-- ==== Sys2Proof/Word.lean ====
section
/-! DEFINITION. The word types of the engine (spec 00_scope R8, R12). -/

namespace Sys2Proof

/-- One device register, one register address or one 8-bit operand field (R8 `PORT_WIDTH`, `REG_ADDR_WIDTH`). -/
abbrev Byte := BitVec 8

/-- A 16-bit logical value: a pin mask, a snapshot, the flag word, a response value (R8 `SNAP_WIDTH`, `ERR_WIDTH`). -/
abbrev Half := BitVec 16

/-- One command or element word (30_encoding R100, R101). -/
abbrev Word := BitVec 32

end Sys2Proof
end

