-- ==== Sys2Proof/Config.lean ====
section
/-! DEFINITION. The parameters a model takes as arguments (spec 00_scope R9) and the one free value:
what the transport and the device answer to a call (20_memory R51). -/

namespace Sys2Proof

/-- What the oracle answers to the n-th transport call that no scripted answer covers: `some b` is a call that
succeeded (and, for a read, the byte `b`), `none` a call that failed (20_memory R51, 93 I4 "any value").
DESIGN CHOICE (log 1), safe for every claim but one that no call ever hangs: it has no body, so nothing can be
proved of its values. -/
opaque Config.busReply : Nat → Option Byte

/-- The detected or forced variant of the device (10_state R27; 90_conflicts C1 for the names). -/
inductive Variant where
  | unknown
  | standardOnly
  | extendedCapable
  deriving DecidableEq, Repr

/-- The optional user-forced variant (10_state R28). -/
inductive Forced where
  | none
  | standardOnly
  | extendedCapable
  deriving DecidableEq, Repr

/-- The two register addresses of one logical 16-bit register (00_scope R16 "register pair"). -/
structure RegPair where
  port0 : Byte
  port1 : Byte
  deriving DecidableEq, Repr

/-- The register map `REGMAP`: the pairs and groups of 20_memory R56 and R57. -/
structure RegMap where
  input : RegPair
  output : RegPair
  polarity : RegPair
  config : RegPair
  drv0L : Byte
  drv0H : Byte
  drv1L : Byte
  drv1H : Byte
  latch : RegPair
  pullEnable : RegPair
  pullSelect : RegPair
  intMask : RegPair
  intStatus : RegPair
  outConf : Byte
  deriving DecidableEq, Repr

/-- The address form of the construction, `ADDR_SPEC` (00_scope R9, 10_state R39). -/
inductive AddrSpec where
  | pins (a0 a1 a2 : Bool)
  | direct (a : Byte)
  deriving DecidableEq, Repr

/-- The arguments of a construction (00_scope R9, 70_reset R350). -/
structure Params where
  defaultRetries : Byte
  addrSpec : AddrSpec
  forcedVariant : Forced
  hasPinHook : Bool
  regMap : RegMap
  probeStd : Byte
  probeExt : Byte
  deriving DecidableEq, Repr

/-- `DEFAULT_RETRIES` is an integer with 1 <= `DEFAULT_RETRIES` <= 255 (00_scope R9). -/
abbrev Params.WellFormed (p : Params) : Prop := p.defaultRetries ≠ 0#8

end Sys2Proof
end

