-- ==== Sys2Proof/Machine/RegMap.lean ====
section
/-! DEFINITION. The default register map, the address at construction, and the parameters of `State.reset`
(spec 20_memory R56, 10_state R39, 00_scope R9). -/

namespace Sys2Proof.Machine

/-- The default `REGMAP` (20_memory R56; PRESUMED there "from general knowledge, not in source", log 7, unsafe). -/
def defaultRegMap : RegMap where
  input := ⟨0x00#8, 0x01#8⟩
  output := ⟨0x02#8, 0x03#8⟩
  polarity := ⟨0x04#8, 0x05#8⟩
  config := ⟨0x06#8, 0x07#8⟩
  drv0L := 0x40#8
  drv0H := 0x41#8
  drv1L := 0x42#8
  drv1H := 0x43#8
  latch := ⟨0x44#8, 0x45#8⟩
  pullEnable := ⟨0x46#8, 0x47#8⟩
  pullSelect := ⟨0x48#8, 0x49#8⟩
  intMask := ⟨0x4A#8, 0x4B#8⟩
  intStatus := ⟨0x4C#8, 0x4D#8⟩
  outConf := 0x4F#8

/-- The four drive-strength registers by index 0..3 (20_memory R56 "DRV quad, index"). -/
def driveAt (m : RegMap) (q : Nat) : Byte :=
  match q with
  | 0 => m.drv0L
  | 1 => m.drv0H
  | 2 => m.drv1L
  | _ => m.drv1H

/-- The addresses of the standard bank, port-0 before port-1 in the order of 20_memory R56. -/
def standardBank (m : RegMap) : List Byte :=
  [m.input.port0, m.input.port1, m.output.port0, m.output.port1,
   m.polarity.port0, m.polarity.port1, m.config.port0, m.config.port1]

/-- The addresses of the extended bank in the order of 20_memory R56. -/
def extendedBank (m : RegMap) : List Byte :=
  [m.drv0L, m.drv0H, m.drv1L, m.drv1H, m.latch.port0, m.latch.port1,
   m.pullEnable.port0, m.pullEnable.port1, m.pullSelect.port0, m.pullSelect.port1,
   m.intMask.port0, m.intMask.port1, m.intStatus.port0, m.intStatus.port1, m.outConf]

/-- The clamp of a direct address to 0x20..0x27 (10_state R39). -/
def clampAddr (a : Byte) : Byte :=
  if a < 0x20#8 then 0x20#8 else if 0x27#8 < a then 0x27#8 else a

/-- `0x20 | zext_7(ABITS)` (10_state R23, R39). -/
def addrOfBits (b : BitVec 3) : BitVec 7 := 0x20#7 ||| b.setWidth 7

/-- `ABITS` at construction: `(a2, a1, a0)` from the pins, a0 in bit 0 (PRESUMED by the spec, log 16), or the low
bits of the clamped address (10_state R39). -/
def resolveBits (spec : AddrSpec) : BitVec 3 :=
  match spec with
  | .pins a0 a1 a2 => BitVec.ofBool a2 ++ BitVec.ofBool a1 ++ BitVec.ofBool a0
  | .direct a => (clampAddr a).setWidth 3

/-- `ADDR` at construction (10_state R39). -/
def resolveAddr (spec : AddrSpec) : BitVec 7 :=
  match spec with
  | .pins _ _ _ => addrOfBits (resolveBits spec)
  | .direct a => (clampAddr a).setWidth 7

/-- The parameters with which `State.reset` is constructed: those of the start states of 95_test_vectors
(`Direct(0x20)`, `DEFAULT_RETRIES` = 1, no forced variant, no pin hook) and the defaults of 00_scope R9.
DESIGN CHOICE (log 4, log 5, log 6, log 8), unsafe: a host may construct the block otherwise, which
`State.construct` covers. -/
def defaultParams : Params where
  defaultRetries := 1#8
  addrSpec := .direct 0x20#8
  forcedVariant := .none
  hasPinHook := false
  regMap := defaultRegMap
  probeStd := 0x00#8
  probeExt := 0x40#8

end Sys2Proof.Machine
end

