-- ==== Sys2Proof/Syntax.lean ====
section
/-! DEFINITION. The commands of the engine: one constructor per row of spec/opcode_table.json (30_encoding R105). -/

namespace Sys2Proof

/-- The requested edge of a callback; code 3 is illegal and has no constructor (30_encoding R103, 10_state R31). -/
inductive Edge where
  | rising
  | falling
  | both
  deriving DecidableEq, Repr

/-- An element of a 1-bit list command (30_encoding R102 format E, `v` in {0, 1}). -/
structure PinBit where
  pin : Byte
  v : Bool
  deriving DecidableEq, Repr

/-- An element of a drive-strength list (30_encoding R102 format E, `v` in {0..3}). -/
structure PinLevel where
  pin : Byte
  v : BitVec 2
  deriving DecidableEq, Repr

/-- The command set (30_encoding R105). A `pin` operand is 8 bits wide, so an invalid pin can be written
(R109). -/
inductive Instr where
  | init
  | detect
  | setretry (n : Byte)
  | geterr
  | clrerr (m : Half)
  | getvar
  | hasext
  | getaddr
  | chaddr (a : Byte)
  | dir (pin : Byte) (v : Bool)
  | dirm (mask : Half) (v : Bool)
  | dirl (es : List PinBit)
  | rdpin (pin : Byte)
  | rdpinl (pins : List Byte)
  | wrpin (pin : Byte) (v : Bool)
  | wrpinl (es : List PinBit)
  | tglpin (pin : Byte)
  | pol (pin : Byte) (v : Bool)
  | polm (mask : Half) (v : Bool)
  | poll (es : List PinBit)
  | rstdef
  | puen (pin : Byte) (v : Bool)
  | puenm (mask : Half) (v : Bool)
  | puenl (es : List PinBit)
  | pusel (pin : Byte) (v : Bool)
  | puselm (mask : Half) (v : Bool)
  | pusell (es : List PinBit)
  | drv (pin : Byte) (v : BitVec 2)
  | drvl (es : List PinLevel)
  | drvget (pin : Byte)
  | latch (pin : Byte) (v : Bool)
  | latchm (mask : Half) (v : Bool)
  | latchl (es : List PinBit)
  | intcfg (pin : Byte) (v : Bool)
  | intcfgl (es : List PinBit)
  | intmask (m : Half)
  | intstat
  | omode (od0 od1 : Bool)
  | cbreg (pin id : Byte) (edge : Edge)
  | cbunreg (pin : Byte)
  | cbglobal (id : Byte)
  | handle
  deriving DecidableEq, Repr

end Sys2Proof
end

