-- ==== Sys2Proof/Machine/State.lean ====
section
/-! DEFINITION. The state of the engine (spec 10_state R21), its ports, construction (10_state R38, R39,
70_reset R350), and the reasons a step can stop. -/

namespace Sys2Proof.Machine

/-- A callback entry of the table `CBT` (10_state R31). -/
structure CbEntry where
  reg : Bool
  id : Byte
  edge : Edge
  deriving DecidableEq, Repr

/-- The empty entry (10_state R38, 43_interrupt_dispatch R292). -/
def CbEntry.empty : CbEntry := ⟨false, 0#8, .rising⟩

/-- One call of the transport: a data call of one byte or a capability hook (20_memory R50 to R53). -/
inductive BusCall where
  | read (dev : BitVec 7) (reg : Byte)
  | write (dev : BitVec 7) (reg data : Byte)
  | hookInit
  | hookPins (a0 a1 a2 : Bool)
  deriving DecidableEq, Repr

/-- One event of the transport history (20_memory R51, R52): the call, whether it succeeded, and the byte that a
successful read returned. -/
structure BusEvent where
  call : BusCall
  ok : Bool
  data : Option Byte
  deriving DecidableEq, Repr

/-- What the oracle answers to one call (20_memory R51, R54): failure, success (with the byte a read returns), or
never (70_reset R365). -/
inductive Answer where
  | fail
  | ok (b : Byte)
  | never
  deriving DecidableEq, Repr

/-- A callback event of the event output (43_interrupt_dispatch R289). -/
inductive CbEvent where
  | pinCB (id : Byte) (pin : BitVec 4) (state : Bool)
  | globalCB (id : Byte) (status : Half)
  deriving DecidableEq, Repr

/-- The response of a command (30_encoding R104). -/
structure Response where
  ok : Bool
  value : Half
  deriving DecidableEq, Repr

/-- The state: the engine's fields (10_state R21), the parameters it reads (00_scope R9), its ports and the oracle.
INVENTORY.md lists each with its rule and its reset value. -/
structure State where
  /-- `ADDR` (10_state R22). -/
  addr : BitVec 7
  /-- `ABITS` (10_state R23). -/
  abits : BitVec 3
  /-- `RETRIES` (10_state R24). -/
  retries : Byte
  /-- `ERR` (10_state R25, R26). -/
  err : Half
  /-- `VARIANT` (10_state R27). -/
  variant : Variant
  /-- `FORCED` (10_state R28). -/
  forced : Forced
  /-- `INIT` (10_state R29). -/
  init : Bool
  /-- `SNAP` (10_state R30). -/
  snap : Half
  /-- `CBT` (10_state R31, R32). -/
  cbt : Vector CbEntry 16
  /-- `GCB` (10_state R33). -/
  gcb : Byte
  /-- `SAVED_RETRIES` (10_state R34). -/
  savedRetries : Byte
  /-- `HAS_PIN_HOOK` (00_scope R9). -/
  hasPinHook : Bool
  /-- `REGMAP` (00_scope R9, 20_memory R56). -/
  regMap : RegMap
  /-- `PROBE_STD_REG` (40_control R142). -/
  probeStd : Byte
  /-- `PROBE_EXT_REG` (40_control R142). -/
  probeExt : Byte
  /-- The words presented on the command port and not yet taken (30_encoding R100). The model's own field, log 2. -/
  port : List Word
  /-- The response the last completed command returned (30_encoding R104). The model's own field, log 2. -/
  response : Option Response
  /-- The transport history, oldest first (20_memory R51). The model's own field, log 2. -/
  history : List BusEvent
  /-- The event output, oldest first (43_interrupt_dispatch R289). The model's own field, log 2. -/
  events : List CbEvent
  /-- The oracle's answers to the next calls (20_memory R51). The model's own field, log 1. -/
  script : List Answer
  /-- How many free answers were taken after the script ran out. The model's own field, log 1. -/
  calls : Nat
  /-- The transport call that never returned, if one did (70_reset R365). The model's own field, log 2. -/
  stuck : Option BusCall
  deriving DecidableEq, Repr

/-- Why a step stops with a fault. -/
inductive Fault where
  /-- Raised by `step` alone: an earlier command made a transport call that never returned, so the engine accepts no
  further command (20_memory R54, 70_reset R365, 93 I3 "stuck"). Safe: the spec gives no further behaviour. -/
  | transportHang
  deriving DecidableEq, Repr

/-- Why a step refuses an instruction. -/
inductive Refusal where
  /-- Raised by an arm of `exec` whose instruction has no meaning yet (no arm, in this model). Safe. -/
  | notModelled (mnemonic : String)
  deriving DecidableEq, Repr

/-- Construction, the only reset of the block (10_state R38, R39, 70_reset R350), for any parameters.
`SAVED_RETRIES` is unspecified (R38): DESIGN CHOICE 0 (log 9, unsafe). The ports are empty (log 2). -/
def State.construct (p : Params) : State where
  addr := resolveAddr p.addrSpec
  abits := resolveBits p.addrSpec
  retries := p.defaultRetries
  err := 0x0000#16
  variant := .unknown
  forced := p.forcedVariant
  init := false
  snap := 0x0000#16
  cbt := Vector.replicate 16 CbEntry.empty
  gcb := 0#8
  savedRetries := 0#8
  hasPinHook := p.hasPinHook
  regMap := p.regMap
  probeStd := p.probeStd
  probeExt := p.probeExt
  port := []
  response := none
  history := []
  events := []
  script := []
  calls := 0
  stuck := none

/-- The machine right after reset: the construction with `defaultParams` (log 4, log 5, log 6). -/
def State.reset : State := State.construct defaultParams

end Sys2Proof.Machine
end

