-- ==== Sys2Proof/Machine/Flags.lean ====
section
/-! DEFINITION. The sticky error flags (spec 10_state R25, R26, 00_scope R15, 60_exceptions R320 to R322). -/

namespace Sys2Proof.Machine

/-- The six flags of `ERR` (10_state R25). -/
inductive Flag where
  | invalidPin
  | invalidMask
  | readFail
  | writeFail
  | unsupportedFeature
  | invalidAddress
  deriving DecidableEq, Repr

/-- The mask of each flag (10_state R25). -/
def flagMask : Flag → Half
  | .invalidPin => 0x0001#16
  | .invalidMask => 0x0002#16
  | .readFail => 0x0004#16
  | .writeFail => 0x0008#16
  | .unsupportedFeature => 0x0010#16
  | .invalidAddress => 0x0020#16

/-- The mask of a set of flags. -/
def flagsMask (fs : List Flag) : Half := fs.foldr (fun f m => flagMask f ||| m) 0#16

/-- `raise F` on the flag word (00_scope R15). -/
def raised (e : Half) (f : Flag) : Half := e ||| flagMask f

/-- `clear F` on the flag word (00_scope R15). -/
def cleared (e : Half) (f : Flag) : Half := e &&& ~~~(flagMask f)

/-- The clearing of a set of flags (40_control R130 step 4). -/
def clearedAll (e : Half) (fs : List Flag) : Half := e &&& ~~~(flagsMask fs)

/-- `raise F` (00_scope R15, 60_exceptions R321). -/
def State.raiseFlag (s : State) (f : Flag) : State := { s with err := raised s.err f }

/-- `clear F` (00_scope R15, 60_exceptions R322). -/
def State.clearFlag (s : State) (f : Flag) : State := { s with err := cleared s.err f }

/-- The entry clear (40_control R130 step 4, 60_exceptions R322 (b)). -/
def State.clearFlags (s : State) (fs : List Flag) : State := { s with err := clearedAll s.err fs }

end Sys2Proof.Machine
end

