-- ==== Sys2Proof/Machine/Operands.lean ====
section
/-! DEFINITION. Pins, ports, register pairs, 16-bit assembly, list operands and drive-strength packing
(spec 00_scope R16, R17, 41_standard_bank R183, 42_extended_bank R236). -/

namespace Sys2Proof.Machine

/-- `p >= 16`, an invalid pin index (30_encoding R109, 60_exceptions R320). -/
def pinInvalid (p : Byte) : Bool := 16 ≤ p.toNat

/-- `port(p) = p >> 3` (00_scope R16). -/
def portOf (p : Byte) : Nat := p.toNat / 8

/-- `bitpos(p) = p & 7` (00_scope R16). -/
def bitposOf (p : Byte) : Nat := p.toNat % 8

/-- `reg_of(pair, p)` (00_scope R16). -/
def regOf (pair : RegPair) (p : Byte) : Byte :=
  if portOf p = 0 then pair.port0 else pair.port1

/-- `{port1_byte, port0_byte}` (00_scope R17). -/
def joinPorts (b0 b1 : Byte) : Half := b1 ++ b0

/-- The port-0 byte `V[7:0]` (00_scope R17). -/
def port0Byte (v : Half) : Byte := v.extractLsb' 0 8

/-- The port-1 byte `V[15:8]` (00_scope R17). -/
def port1Byte (v : Half) : Byte := v.extractLsb' 8 8

/-- The byte with bit k made v (20_memory R67). -/
def putBit (old : Byte) (k : Nat) (v : Bool) : Byte :=
  if v then old ||| (1#8 <<< k) else old &&& ~~~(1#8 <<< k)

/-- The byte with bit k inverted (41_standard_bank R189). -/
def flipBit (old : Byte) (k : Nat) : Byte := old ^^^ (1#8 <<< k)

/-- All bits of the mask set, or all cleared (20_memory R70). -/
def putMask (old mask : Half) (v : Bool) : Half :=
  if v then old ||| mask else old &&& ~~~mask

/-- The bits of the mask taken from the value, the others kept (20_memory R71). -/
def mergeMask (old mask value : Half) : Half := (old &&& ~~~mask) ||| (value &&& mask)

/-- One element of `ListMV` (41_standard_bank R183). -/
def listStep (mv : Half × Half) (e : PinBit) : Half × Half :=
  (mv.1 ||| (1#16 <<< e.pin.toNat),
   (mv.2 &&& ~~~(1#16 <<< e.pin.toNat)) ||| ((BitVec.ofBool e.v).setWidth 16 <<< e.pin.toNat))

/-- `ListMV(e)`: the mask and the values of a list, in list order (41_standard_bank R183). -/
def listMV (es : List PinBit) : Half × Half := es.foldl listStep (0#16, 0#16)

/-- The mask of `ListMV` for the pin list of RDPINL, whose elements have v = 0 (41_standard_bank R186). -/
def pinMask (ps : List Byte) : Half := (listMV (ps.map fun p => ⟨p, false⟩)).1

/-- The index of pin p's drive-strength register: `2*port(p) + (((p & 7) >= 4) ? 1 : 0)`
(42_extended_bank R236). -/
def driveIndex (p : Byte) : Nat := 2 * portOf p + (if 4 ≤ bitposOf p then 1 else 0)

/-- `drv_reg(p)` (42_extended_bank R236). -/
def driveReg (m : RegMap) (p : Byte) : Byte := driveAt m (driveIndex p)

/-- `drv_shift(p) = 2 * (p & 3)` (42_extended_bank R236; field order PRESUMED by the spec, log 16). -/
def driveShift (p : Byte) : Nat := 2 * (p.toNat % 4)

/-- The byte with pin p's 2-bit field made l (42_extended_bank R250). -/
def putLevel (old : Byte) (p : Byte) (l : BitVec 2) : Byte :=
  (old &&& ~~~(0b11#8 <<< driveShift p)) ||| (l.setWidth 8 <<< driveShift p)

/-- Pin p's 2-bit field of a drive-strength byte, zero-extended (42_extended_bank R252). -/
def getLevel (b : Byte) (p : Byte) : Half := ((b >>> driveShift p) &&& 0b11#8).setWidth 16

/-- The ascending indices of the drive-strength registers a list affects (42_extended_bank R251 `A`). -/
def affectedDrives (es : List PinLevel) : List Nat :=
  [0, 1, 2, 3].filter fun q => es.any fun e => driveIndex e.pin == q

/-- Register q's byte with the list's levels for it put in, in list order (42_extended_bank R251). -/
def applyLevels (q : Nat) (es : List PinLevel) (old : Byte) : Byte :=
  es.foldl (fun b e => if driveIndex e.pin = q then putLevel b e.pin e.v else b) old

/-- The VARIANT code (10_state R27). -/
def variantCode : Variant → BitVec 2
  | .unknown => 0#2
  | .standardOnly => 1#2
  | .extendedCapable => 2#2

/-- The FORCED code (10_state R28). -/
def forcedCode : Forced → BitVec 2
  | .none => 0#2
  | .standardOnly => 1#2
  | .extendedCapable => 2#2

end Sys2Proof.Machine
end

