-- ==== Sys2Proof/Machine/Ops.lean ====
section
/-! DEFINITION. The transport port, the Register Transaction Layer, the Bit-Field Accessor and the Chip Variant
Detector (spec 20_memory R50 to R72, 40_control R131, R140 to R143). An operation is a function of the state that
either completes with a result or hangs in a transport call; both outcomes carry the state reached. -/

namespace Sys2Proof.Machine

/-- An operation of the engine: `ok` with a result, or `error` when a transport call never returned
(70_reset R365). -/
abbrev Eff (α : Type) := EStateM Unit State α

/-- Whether a call is a data read, the only call that returns a byte (20_memory R51). -/
def BusCall.isRead : BusCall → Bool
  | .read _ _ => true
  | .write _ _ _ => false
  | .hookInit => false
  | .hookPins _ _ _ => false

/-- The n-th free answer: success or failure, any byte (log 1). -/
def freeAnswer (n : Nat) : Answer :=
  match Config.busReply n with
  | some b => .ok b
  | none => .fail

/-- The oracle's answer to the next call, taken (20_memory R51; log 1). -/
def takeAnswer (s : State) : Answer × State :=
  match s.script with
  | a :: as => (a, { s with script := as })
  | [] => (freeAnswer s.calls, { s with calls := s.calls + 1 })

/-- The event of a completed call, appended to the transport history (20_memory R51). -/
def State.record (s : State) (c : BusCall) (ok : Bool) (data : Option Byte) : State :=
  { s with history := s.history ++ [⟨c, ok, data⟩] }

/-- One transport call (00_scope R14, 20_memory R50 to R54): `some b` when it succeeded (with the byte the oracle
gave, which only a read uses), `none` when it failed. A call that never returns is kept in `stuck` and ends the
operation (70_reset R365; log 10, log 11). -/
def busCall (c : BusCall) : Eff (Option Byte) := fun s =>
  match takeAnswer s with
  | (.never, t) => .error () { t with stuck := some c }
  | (.fail, t) => .ok none (t.record c false none)
  | (.ok b, t) => .ok (some b) (t.record c true (if c.isRead then some b else none))

/-- `BusRead(S.ADDR, reg)` (00_scope R14). -/
def busRead (reg : Byte) : Eff (Option Byte) := fun s => busCall (.read s.addr reg) s

/-- `BusWrite(S.ADDR, reg, b)` (00_scope R14). -/
def busWrite (reg b : Byte) : Eff Bool := fun s =>
  match busCall (.write s.addr reg b) s with
  | .ok r t => .ok r.isSome t
  | .error e t => .error e t

/-- Up to n read calls, stopping at the first success (20_memory R60). -/
def readAttempts (reg : Byte) : Nat → Eff (Option Byte)
  | 0 => pure none
  | n + 1 => do
    match ← busRead reg with
    | some b => pure (some b)
    | none => readAttempts reg n

/-- Up to n write calls, stopping at the first success (20_memory R61). -/
def writeAttempts (reg b : Byte) : Nat → Eff Bool
  | 0 => pure false
  | n + 1 => do
    if ← busWrite reg b then pure true else writeAttempts reg b n

/-- `raise F` as an operation. -/
def raise (f : Flag) : Eff Unit := modify fun s => s.raiseFlag f

/-- `clear F` as an operation. -/
def clear (f : Flag) : Eff Unit := modify fun s => s.clearFlag f

/-- `ReadReg(reg)` (20_memory R60): `some b` for (1, b), `none` for (0, 0x00); no command uses the 0x00 (log 18). -/
def readReg (reg : Byte) : Eff (Option Byte) := do
  let n := (← get).retries.toNat
  match ← readAttempts reg (n + 1) with
  | some b => do
    clear .readFail
    pure (some b)
  | none => do
    raise .readFail
    pure none

/-- `WriteReg(reg, b)` (20_memory R61). -/
def writeReg (reg b : Byte) : Eff Bool := do
  let n := (← get).retries.toNat
  if ← writeAttempts reg b (n + 1) then do
    clear .writeFail
    pure true
  else do
    raise .writeFail
    pure false

/-- A register's byte read, changed by f, and written back; no write after a failed read. The shape shared by
20_memory R67, 41_standard_bank R189 and 42_extended_bank R250. -/
def readModifyWrite (reg : Byte) (f : Byte → Byte) : Eff Bool := do
  match ← readReg reg with
  | none => pure false
  | some old => writeReg reg (f old)

/-- `PinModify(pair, p, v)` (20_memory R67). -/
def pinModify (pair : RegPair) (p : Byte) (v : Bool) : Eff Bool :=
  readModifyWrite (regOf pair p) fun old => putBit old (bitposOf p) v

/-- `DualRead(pair)` (20_memory R68). -/
def dualRead (pair : RegPair) : Eff (Option Half) := do
  match ← readReg pair.port0 with
  | none => pure none
  | some b0 =>
    match ← readReg pair.port1 with
    | none => pure none
    | some b1 => pure (some (joinPorts b0 b1))

/-- `DualWrite(pair, V)` (20_memory R69). -/
def dualWrite (pair : RegPair) (v : Half) : Eff Bool := do
  if ← writeReg pair.port0 (port0Byte v) then writeReg pair.port1 (port1Byte v) else pure false

/-- A pair's value read, changed by f, and written back; no write after a failed read (20_memory R70, R71). -/
def pairModify (pair : RegPair) (f : Half → Half) : Eff Bool := do
  match ← dualRead pair with
  | none => pure false
  | some old => dualWrite pair (f old)

/-- `MaskModify(pair, M, v)` (20_memory R70). -/
def maskModify (pair : RegPair) (mask : Half) (v : Bool) : Eff Bool :=
  pairModify pair fun old => putMask old mask v

/-- `MaskMerge(pair, M, V)` (20_memory R71). -/
def maskMerge (pair : RegPair) (mask value : Half) : Eff Bool :=
  pairModify pair fun old => mergeMask old mask value

/-- `PinRead(pair, p)` (20_memory R72). -/
def pinRead (pair : RegPair) (p : Byte) : Eff (Option Bool) := do
  match ← readReg (regOf pair p) with
  | none => pure none
  | some b => pure (some (b.getLsbD (bitposOf p)))

/-- The writes of a list in order, stopping at the first that fails (41_standard_bank R200, 42_extended_bank R251). -/
def writeSeq : List (Byte × Byte) → Eff Bool
  | [] => pure true
  | (r, b) :: rest => do
    if ← writeReg r b then writeSeq rest else pure false

/-- The outcome table of detection steps 2 and 3 (40_control R143). -/
def detectOutcome (ok2 ok3 : Bool) : Variant :=
  match ok2, ok3 with
  | true, true => .extendedCapable
  | true, false => .unknown
  | false, true => .standardOnly
  | false, false => .unknown

/-- `S.VARIANT <- v`. -/
def setVariant (v : Variant) : Eff Unit := modify fun s => { s with variant := v }

/-- `S.SAVED_RETRIES <- S.RETRIES; S.RETRIES <- 0` (40_control R141). -/
def State.forceSingleShot (s : State) : State := { s with savedRetries := s.retries, retries := 0#8 }

/-- `S.RETRIES <- S.SAVED_RETRIES` (40_control R141). -/
def State.restoreRetries (s : State) : State := { s with retries := s.savedRetries }

/-- Steps 1 to 3 of `Detect()` (40_control R141, R143). -/
def probe : Eff Variant := do
  let stdReg := (← get).probeStd
  let extReg := (← get).probeExt
  match ← readReg stdReg with
  | none => pure .unknown
  | some _ => do
    let r2 ← readReg extReg
    let r3 ← readReg stdReg
    pure (detectOutcome r2.isSome r3.isSome)

/-- `Detect()` (40_control R141). -/
def detect : Eff Unit := do
  modify State.forceSingleShot
  let v ← probe
  setVariant v
  modify State.restoreRetries

/-- `DetectOrForce()` (40_control R140). -/
def detectOrForce : Eff Unit := do
  match (← get).forced with
  | .none => detect
  | .standardOnly => setVariant .standardOnly
  | .extendedCapable => setVariant .extendedCapable

/-- The address-pin hook, called only where the transport has it; its result is ignored (40_control R131). -/
def pinHook : Eff Unit := fun s =>
  if s.hasPinHook then
    match busCall (.hookPins (s.abits.getLsbD 0) (s.abits.getLsbD 1) (s.abits.getLsbD 2)) s with
    | .ok _ t => .ok () t
    | .error e t => .error e t
  else .ok () s

/-- `EnsureInit()` (40_control R131). -/
def ensureInit : Eff Bool := do
  if (← get).init then pure true
  else do
    pinHook
    match ← busCall .hookInit with
    | none => pure false
    | some _ => do
      detectOrForce
      modify fun s => { s with init := true }
      pure true

/-- `(0, 0x0000)` (30_encoding R104). -/
def Response.failed : Response := ⟨false, 0x0000#16⟩

/-- The response of a command that returns nothing: `(ok, 0x0000)` (30_encoding R104). -/
def Response.done (ok : Bool) : Response := ⟨ok, 0x0000#16⟩

/-- The failed response after raising a flag (60_exceptions R321). -/
def failWith (f : Flag) : Eff Response := do
  raise f
  pure Response.failed

/-- The state after a command: its response on the command port, or no response while it hangs
(30_encoding R104, 70_reset R365). -/
def settle : EStateM.Result Unit State Response → State
  | .ok r s => { s with response := some r }
  | .error _ s => { s with response := none }

end Sys2Proof.Machine
end

