-- ==== Sys2Proof/WellFormed.lean ====
section
/-! DEFINITION. The terms of `Instr` that a legal command can carry: a list holds at most 255 elements
(00_scope R9 `MAX_LIST`) and CBREG's handle is not 0 (30_encoding R105, R107). Every other constraint of R107
is in the operand types. -/

namespace Sys2Proof

/-- `MAX_LIST`, the most elements in a list command: `k` is 8 bits (00_scope R9, 30_encoding R103). -/
abbrev maxList : Nat := 255

/-- The well-formedness of one instruction, as a Boolean that can be evaluated. -/
def Instr.wf : Instr → Bool
  | .init => true
  | .detect => true
  | .setretry _ => true
  | .geterr => true
  | .clrerr _ => true
  | .getvar => true
  | .hasext => true
  | .getaddr => true
  | .chaddr _ => true
  | .dir _ _ => true
  | .dirm _ _ => true
  | .dirl es => es.length ≤ maxList
  | .rdpin _ => true
  | .rdpinl ps => ps.length ≤ maxList
  | .wrpin _ _ => true
  | .wrpinl es => es.length ≤ maxList
  | .tglpin _ => true
  | .pol _ _ => true
  | .polm _ _ => true
  | .poll es => es.length ≤ maxList
  | .rstdef => true
  | .puen _ _ => true
  | .puenm _ _ => true
  | .puenl es => es.length ≤ maxList
  | .pusel _ _ => true
  | .puselm _ _ => true
  | .pusell es => es.length ≤ maxList
  | .drv _ _ => true
  | .drvl es => es.length ≤ maxList
  | .drvget _ => true
  | .latch _ _ => true
  | .latchm _ _ => true
  | .latchl es => es.length ≤ maxList
  | .intcfg _ _ => true
  | .intcfgl es => es.length ≤ maxList
  | .intmask _ => true
  | .intstat => true
  | .omode _ _ => true
  | .cbreg _ id _ => id ≠ 0#8
  | .cbunreg _ => true
  | .cbglobal _ => true
  | .handle => true

end Sys2Proof
end

