-- ==== Sys2Proof/Machine/Frame.lean ====
section
/-! DEFINITION. The execution frame that every legal command runs in, with the attribute table
(spec 40_control R130, R132, R150). -/

namespace Sys2Proof.Machine

/-- The attributes of a command (40_control R132). -/
structure Attr where
  pins : Bool
  init : Bool
  gated : Bool
  clear : List Flag
  deriving DecidableEq, Repr

/-- The attribute table (40_control R132): pins, init, gated, clear. -/
def attr : Instr → Attr
  | .init => ⟨false, true, false, []⟩
  | .detect => ⟨false, false, false, []⟩
  | .setretry _ => ⟨false, false, false, []⟩
  | .geterr => ⟨false, false, false, []⟩
  | .clrerr _ => ⟨false, false, false, []⟩
  | .getvar => ⟨false, false, false, []⟩
  | .hasext => ⟨false, false, false, []⟩
  | .getaddr => ⟨false, false, false, []⟩
  | .chaddr _ => ⟨false, false, false, [.invalidAddress]⟩
  | .dir _ _ => ⟨true, true, false, [.invalidPin, .readFail, .writeFail]⟩
  | .dirm _ _ => ⟨false, true, false, [.readFail, .writeFail]⟩
  | .dirl _ => ⟨true, true, false, [.invalidPin, .readFail, .writeFail]⟩
  | .rdpin _ => ⟨true, true, false, [.invalidPin, .readFail]⟩
  | .rdpinl _ => ⟨true, true, false, [.invalidPin, .readFail]⟩
  | .wrpin _ _ => ⟨true, true, false, [.invalidPin, .readFail, .writeFail]⟩
  | .wrpinl _ => ⟨true, true, false, [.invalidPin, .readFail, .writeFail]⟩
  | .tglpin _ => ⟨true, true, false, [.invalidPin, .readFail, .writeFail]⟩
  | .pol _ _ => ⟨true, true, false, [.invalidPin, .readFail, .writeFail]⟩
  | .polm _ _ => ⟨false, true, false, [.readFail, .writeFail]⟩
  | .poll _ => ⟨true, true, false, [.invalidPin, .readFail, .writeFail]⟩
  | .rstdef => ⟨false, true, false, [.writeFail]⟩
  | .puen _ _ => ⟨true, true, true, [.invalidPin, .unsupportedFeature, .readFail, .writeFail]⟩
  | .puenm _ _ => ⟨false, true, true, [.unsupportedFeature, .readFail, .writeFail]⟩
  | .puenl _ => ⟨true, true, true, [.invalidPin, .unsupportedFeature, .readFail, .writeFail]⟩
  | .pusel _ _ => ⟨true, true, true, [.invalidPin, .unsupportedFeature, .readFail, .writeFail]⟩
  | .puselm _ _ => ⟨false, true, true, [.unsupportedFeature, .readFail, .writeFail]⟩
  | .pusell _ => ⟨true, true, true, [.invalidPin, .unsupportedFeature, .readFail, .writeFail]⟩
  | .drv _ _ => ⟨true, true, true, [.invalidPin, .unsupportedFeature, .readFail, .writeFail]⟩
  | .drvl _ => ⟨true, true, true, [.invalidPin, .unsupportedFeature, .readFail, .writeFail]⟩
  | .drvget _ => ⟨true, true, true, [.invalidPin, .unsupportedFeature, .readFail]⟩
  | .latch _ _ => ⟨true, true, true, [.invalidPin, .unsupportedFeature, .readFail, .writeFail]⟩
  | .latchm _ _ => ⟨false, true, true, [.unsupportedFeature, .readFail, .writeFail]⟩
  | .latchl _ => ⟨true, true, true, [.invalidPin, .unsupportedFeature, .readFail, .writeFail]⟩
  | .intcfg _ _ => ⟨true, true, true, [.invalidPin, .unsupportedFeature, .readFail, .writeFail]⟩
  | .intcfgl _ => ⟨true, true, true, [.invalidPin, .unsupportedFeature, .readFail, .writeFail]⟩
  | .intmask _ => ⟨false, true, true, [.unsupportedFeature, .writeFail]⟩
  | .intstat => ⟨false, true, true, [.unsupportedFeature, .readFail]⟩
  | .omode _ _ => ⟨false, true, true, [.unsupportedFeature, .writeFail]⟩
  | .cbreg _ _ _ => ⟨true, true, false, [.invalidPin, .readFail]⟩
  | .cbunreg _ => ⟨true, false, false, [.invalidPin]⟩
  | .cbglobal _ => ⟨false, false, false, []⟩
  | .handle => ⟨false, true, false, [.readFail]⟩

/-- The pin operands of a command, in its command word or its elements (40_control R130 step 1). -/
def pinOperands : Instr → List Byte
  | .init => []
  | .detect => []
  | .setretry _ => []
  | .geterr => []
  | .clrerr _ => []
  | .getvar => []
  | .hasext => []
  | .getaddr => []
  | .chaddr _ => []
  | .dir pin _ => [pin]
  | .dirm _ _ => []
  | .dirl es => es.map fun e => e.pin
  | .rdpin pin => [pin]
  | .rdpinl ps => ps
  | .wrpin pin _ => [pin]
  | .wrpinl es => es.map fun e => e.pin
  | .tglpin pin => [pin]
  | .pol pin _ => [pin]
  | .polm _ _ => []
  | .poll es => es.map fun e => e.pin
  | .rstdef => []
  | .puen pin _ => [pin]
  | .puenm _ _ => []
  | .puenl es => es.map fun e => e.pin
  | .pusel pin _ => [pin]
  | .puselm _ _ => []
  | .pusell es => es.map fun e => e.pin
  | .drv pin _ => [pin]
  | .drvl es => es.map fun e => e.pin
  | .drvget pin => [pin]
  | .latch pin _ => [pin]
  | .latchm _ _ => []
  | .latchl es => es.map fun e => e.pin
  | .intcfg pin _ => [pin]
  | .intcfgl es => es.map fun e => e.pin
  | .intmask _ => []
  | .intstat => []
  | .omode _ _ => []
  | .cbreg pin _ _ => [pin]
  | .cbunreg pin => [pin]
  | .cbglobal _ => []
  | .handle => []

/-- CHADDR's address operand is outside 0x20..0x27 (40_control R130 step 1). -/
def badAddress : Instr → Bool
  | .init => false
  | .detect => false
  | .setretry _ => false
  | .geterr => false
  | .clrerr _ => false
  | .getvar => false
  | .hasext => false
  | .getaddr => false
  | .chaddr a => a < 0x20#8 || 0x27#8 < a
  | .dir _ _ => false
  | .dirm _ _ => false
  | .dirl _ => false
  | .rdpin _ => false
  | .rdpinl _ => false
  | .wrpin _ _ => false
  | .wrpinl _ => false
  | .tglpin _ => false
  | .pol _ _ => false
  | .polm _ _ => false
  | .poll _ => false
  | .rstdef => false
  | .puen _ _ => false
  | .puenm _ _ => false
  | .puenl _ => false
  | .pusel _ _ => false
  | .puselm _ _ => false
  | .pusell _ => false
  | .drv _ _ => false
  | .drvl _ => false
  | .drvget _ => false
  | .latch _ _ => false
  | .latchm _ _ => false
  | .latchl _ => false
  | .intcfg _ _ => false
  | .intcfgl _ => false
  | .intmask _ => false
  | .intstat => false
  | .omode _ _ => false
  | .cbreg _ _ _ => false
  | .cbunreg _ => false
  | .cbglobal _ => false
  | .handle => false

/-- Steps 3 to 5 of the frame: feature gate, entry clear, body (40_control R130, R150). -/
def gateAndRun (a : Attr) (body : Eff Response) : Eff Response := fun s =>
  if a.gated && s.variant != .extendedCapable then failWith .unsupportedFeature s
  else body (s.clearFlags a.clear)

/-- Step 2 of the frame: lazy initialisation for a command with the init attribute (40_control R130, R131). -/
def lazyInit (a : Attr) : Eff Bool := if a.init then ensureInit else pure true

/-- Steps 2 to 5 of the frame (40_control R130). -/
def initAndRun (a : Attr) (body : Eff Response) : Eff Response := do
  if ← lazyInit a then gateAndRun a body else pure Response.failed

/-- `Execute(cmd)` (40_control R130): legality, argument validation, then the rest. -/
def frame (i : Instr) (body : Eff Response) : Eff Response :=
  if i.wf = false then pure Response.failed
  else if (attr i).pins && (pinOperands i).any pinInvalid then failWith .invalidPin
  else if badAddress i then failWith .invalidAddress
  else initAndRun (attr i) body

/-- One command run to its end: its response on the command port, or the engine stuck in a call that never returns
(30_encoding R100, R104, 70_reset R365). Every command has a next state. -/
def runCommand (i : Instr) (body : Eff Response) (s : State) : Host.Outcome State Fault Refusal :=
  .next (settle (frame i body s))

/-- The body of a command that returns nothing but its success. -/
def reportOk (m : Eff Bool) : Eff Response := do
  let ok ← m
  pure (Response.done ok)

end Sys2Proof.Machine
end

