-- ==== Sys2Proof/Machine/Standard.lean ====
section
/-! DEFINITION. The standard-bank commands (spec 41_standard_bank R180 to R200). Each body runs in the frame, so the
register map is read from the state there. -/

namespace Sys2Proof.Machine

/-- A body that performs PinModify on one pair of the map (20_memory R67). -/
def pinModifyBody (sel : RegMap → RegPair) (pin : Byte) (v : Bool) : Eff Response := do
  reportOk (pinModify (sel (← get).regMap) pin v)

/-- A body that performs MaskModify on one pair of the map (20_memory R70). -/
def maskModifyBody (sel : RegMap → RegPair) (mask : Half) (v : Bool) : Eff Response := do
  reportOk (maskModify (sel (← get).regMap) mask v)

/-- A body that merges a list into one pair of the map: `ListMV`, then MaskMerge (41_standard_bank R183). -/
def listBody (sel : RegMap → RegPair) (es : List PinBit) : Eff Response := do
  reportOk (maskMerge (sel (← get).regMap) (listMV es).1 (listMV es).2)

/-- DIR p, v (R180). -/
def execDir (pin : Byte) (v : Bool) (s : State) : Host.Outcome State Fault Refusal :=
  runCommand (.dir pin v) (pinModifyBody RegMap.config pin v) s

/-- DIRM M, v (R181). -/
def execDirm (mask : Half) (v : Bool) (s : State) : Host.Outcome State Fault Refusal :=
  runCommand (.dirm mask v) (maskModifyBody RegMap.config mask v) s

/-- DIRL (R182). -/
def execDirl (es : List PinBit) (s : State) : Host.Outcome State Fault Refusal :=
  runCommand (.dirl es) (listBody RegMap.config es) s

/-- The response of a read that yields one bit (R185). -/
def bitResponse : Option Bool → Response
  | none => Response.failed
  | some b => ⟨true, (BitVec.ofBool b).setWidth 16⟩

/-- The response of a read that yields a 16-bit value (R186, 42_extended_bank R265). -/
def valueResponse : Option Half → Response
  | none => Response.failed
  | some v => ⟨true, v⟩

/-- RDPIN p (R185). -/
def execRdpin (pin : Byte) (s : State) : Host.Outcome State Fault Refusal :=
  runCommand (.rdpin pin) (do pure (bitResponse (← pinRead (← get).regMap.input pin))) s

/-- RDPINL (R186): the levels of the listed pins, 0 elsewhere. -/
def execRdpinl (ps : List Byte) (s : State) : Host.Outcome State Fault Refusal :=
  runCommand (.rdpinl ps) (do
    pure (valueResponse ((← dualRead (← get).regMap.input).map fun l => l &&& pinMask ps))) s

/-- WRPIN p, v (R187). -/
def execWrpin (pin : Byte) (v : Bool) (s : State) : Host.Outcome State Fault Refusal :=
  runCommand (.wrpin pin v) (pinModifyBody RegMap.output pin v) s

/-- WRPINL (R188). -/
def execWrpinl (es : List PinBit) (s : State) : Host.Outcome State Fault Refusal :=
  runCommand (.wrpinl es) (listBody RegMap.output es) s

/-- TGLPIN p (R189): toggles the output register bit. -/
def execTglpin (pin : Byte) (s : State) : Host.Outcome State Fault Refusal :=
  runCommand (.tglpin pin) (do
    reportOk (readModifyWrite (regOf (← get).regMap.output pin) fun old => flipBit old (bitposOf pin))) s

/-- POL p, v (R192). -/
def execPol (pin : Byte) (v : Bool) (s : State) : Host.Outcome State Fault Refusal :=
  runCommand (.pol pin v) (pinModifyBody RegMap.polarity pin v) s

/-- POLM M, v (R193). -/
def execPolm (mask : Half) (v : Bool) (s : State) : Host.Outcome State Fault Refusal :=
  runCommand (.polm mask v) (maskModifyBody RegMap.polarity mask v) s

/-- POLL (R194). -/
def execPoll (es : List PinBit) (s : State) : Host.Outcome State Fault Refusal :=
  runCommand (.poll es) (listBody RegMap.polarity es) s

/-- RSTDEF's writes to the standard bank (R200). -/
def resetStandard (m : RegMap) : List (Byte × Byte) :=
  [(m.output.port0, 0xFF#8), (m.output.port1, 0xFF#8),
   (m.polarity.port0, 0x00#8), (m.polarity.port1, 0x00#8),
   (m.config.port0, 0xFF#8), (m.config.port1, 0xFF#8)]

/-- RSTDEF's writes to the extended bank (R200; byte senses PRESUMED by the spec, log 16). -/
def resetExtended (m : RegMap) : List (Byte × Byte) :=
  [(m.drv0L, 0xFF#8), (m.drv0H, 0xFF#8), (m.drv1L, 0xFF#8), (m.drv1H, 0xFF#8),
   (m.latch.port0, 0x00#8), (m.latch.port1, 0x00#8),
   (m.pullEnable.port0, 0xFF#8), (m.pullEnable.port1, 0xFF#8),
   (m.pullSelect.port0, 0xFF#8), (m.pullSelect.port1, 0xFF#8),
   (m.intMask.port0, 0xFF#8), (m.intMask.port1, 0xFF#8),
   (m.outConf, 0x00#8)]

/-- RSTDEF's write sequence for a variant (R200). -/
def resetWrites (m : RegMap) (v : Variant) : List (Byte × Byte) :=
  if v = .extendedCapable then resetStandard m ++ resetExtended m else resetStandard m

/-- RSTDEF (R200). -/
def execRstdef (s : State) : Host.Outcome State Fault Refusal :=
  runCommand .rstdef (do reportOk (writeSeq (resetWrites (← get).regMap (← get).variant))) s

end Sys2Proof.Machine
end

