-- ==== Sys2Proof/Machine/Extended.lean ====
section
/-! DEFINITION. The extended-bank (Agile I/O) commands (spec 42_extended_bank R230 to R270). The gate is the frame's
(40_control R150). -/

namespace Sys2Proof.Machine

/-- PUEN p, v (R240). -/
def execPuen (pin : Byte) (v : Bool) (s : State) : Host.Outcome State Fault Refusal :=
  runCommand (.puen pin v) (pinModifyBody RegMap.pullEnable pin v) s

/-- PUENM M, v (R241). -/
def execPuenm (mask : Half) (v : Bool) (s : State) : Host.Outcome State Fault Refusal :=
  runCommand (.puenm mask v) (maskModifyBody RegMap.pullEnable mask v) s

/-- PUENL (R242). -/
def execPuenl (es : List PinBit) (s : State) : Host.Outcome State Fault Refusal :=
  runCommand (.puenl es) (listBody RegMap.pullEnable es) s

/-- PUSEL p, v (R244). -/
def execPusel (pin : Byte) (v : Bool) (s : State) : Host.Outcome State Fault Refusal :=
  runCommand (.pusel pin v) (pinModifyBody RegMap.pullSelect pin v) s

/-- PUSELM M, v (R245). -/
def execPuselm (mask : Half) (v : Bool) (s : State) : Host.Outcome State Fault Refusal :=
  runCommand (.puselm mask v) (maskModifyBody RegMap.pullSelect mask v) s

/-- PUSELL (R246). -/
def execPusell (es : List PinBit) (s : State) : Host.Outcome State Fault Refusal :=
  runCommand (.pusell es) (listBody RegMap.pullSelect es) s

/-- DRV p, v (R250). -/
def execDrv (pin : Byte) (v : BitVec 2) (s : State) : Host.Outcome State Fault Refusal :=
  runCommand (.drv pin v) (do
    reportOk (readModifyWrite (driveReg (← get).regMap pin) fun old => putLevel old pin v)) s

/-- The reads of DRVL: each affected register in order, with its byte; nothing more after a failed read (R251). -/
def readDrives (m : RegMap) : List Nat → Eff (Option (List (Nat × Byte)))
  | [] => pure (some [])
  | q :: qs => do
    match ← readReg (driveAt m q) with
    | none => pure none
    | some b =>
      match ← readDrives m qs with
      | none => pure none
      | some bs => pure (some ((q, b) :: bs))

/-- The writes of DRVL for the bytes read (R251). -/
def driveWrites (m : RegMap) (es : List PinLevel) (bs : List (Nat × Byte)) : List (Byte × Byte) :=
  bs.map fun qb => (driveAt m qb.1, applyLevels qb.1 es qb.2)

/-- The body of DRVL: all reads, then all writes (R251). -/
def drvlBody (es : List PinLevel) : Eff Response := do
  let m := (← get).regMap
  match ← readDrives m (affectedDrives es) with
  | none => pure Response.failed
  | some bs => reportOk (writeSeq (driveWrites m es bs))

/-- DRVL (R251). -/
def execDrvl (es : List PinLevel) (s : State) : Host.Outcome State Fault Refusal :=
  runCommand (.drvl es) (drvlBody es) s

/-- DRVGET p (R252). -/
def execDrvget (pin : Byte) (s : State) : Host.Outcome State Fault Refusal :=
  runCommand (.drvget pin) (do
    pure (valueResponse ((← readReg (driveReg (← get).regMap pin)).map fun b => getLevel b pin))) s

/-- LATCH p, v (R255). -/
def execLatch (pin : Byte) (v : Bool) (s : State) : Host.Outcome State Fault Refusal :=
  runCommand (.latch pin v) (pinModifyBody RegMap.latch pin v) s

/-- LATCHM M, v (R256). -/
def execLatchm (mask : Half) (v : Bool) (s : State) : Host.Outcome State Fault Refusal :=
  runCommand (.latchm mask v) (maskModifyBody RegMap.latch mask v) s

/-- LATCHL (R257). -/
def execLatchl (es : List PinBit) (s : State) : Host.Outcome State Fault Refusal :=
  runCommand (.latchl es) (listBody RegMap.latch es) s

/-- INTCFG p, v (R260): v = 1 enables, and the mask bit written is 1 - v. -/
def execIntcfg (pin : Byte) (v : Bool) (s : State) : Host.Outcome State Fault Refusal :=
  runCommand (.intcfg pin v) (pinModifyBody RegMap.intMask pin (!v)) s

/-- INTCFGL (R261): v = 1 enables; the values merged are `(~V) & M`. -/
def execIntcfgl (es : List PinBit) (s : State) : Host.Outcome State Fault Refusal :=
  runCommand (.intcfgl es) (do
    reportOk (maskMerge (← get).regMap.intMask (listMV es).1 (~~~(listMV es).2 &&& (listMV es).1))) s

/-- INTMASK m (R262): written as it is, without a read. -/
def execIntmask (m : Half) (s : State) : Host.Outcome State Fault Refusal :=
  runCommand (.intmask m) (do reportOk (dualWrite (← get).regMap.intMask m)) s

/-- INTSTAT (R265). -/
def execIntstat (s : State) : Host.Outcome State Fault Refusal :=
  runCommand .intstat (do pure (valueResponse (← dualRead (← get).regMap.intStatus))) s

/-- The output-configuration byte `(0b000000, od1, od0)` (R270; layout PRESUMED by the spec, log 16). -/
def omodeByte (od0 od1 : Bool) : Byte := 0#6 ++ BitVec.ofBool od1 ++ BitVec.ofBool od0

/-- OMODE od0, od1 (R270). -/
def execOmode (od0 od1 : Bool) (s : State) : Host.Outcome State Fault Refusal :=
  runCommand (.omode od0 od1) (do reportOk (writeReg (← get).regMap.outConf (omodeByte od0 od1))) s

end Sys2Proof.Machine
end

