-- ==== Sys2Proof/Machine/Interrupt.lean ====
section
/-! DEFINITION. The callback table and the interrupt dispatch (spec 43_interrupt_dispatch R289 to R307). -/

namespace Sys2Proof.Machine

/-- `S.CBT[p] <- e`, for p < 16 (R290, R292). -/
def State.setCallback (s : State) (p : Byte) (e : CbEntry) : State :=
  { s with cbt := s.cbt.setIfInBounds p.toNat e }

/-- `S.SNAP <- v` (R290, R305). -/
def State.setSnap (s : State) (v : Half) : State := { s with snap := v }

/-- The body of CBREG (R290): the entry is stored, then the snapshot is refreshed if the read succeeds. -/
def cbregBody (pin id : Byte) (edge : Edge) : Eff Response := do
  modify fun t => t.setCallback pin ⟨true, id, edge⟩
  match ← dualRead (← get).regMap.input with
  | none => pure (Response.done false)
  | some cur => do
    modify fun t => t.setSnap cur
    pure (Response.done true)

/-- CBREG p, edge, id (R290). -/
def execCbreg (pin id : Byte) (edge : Edge) (s : State) : Host.Outcome State Fault Refusal :=
  runCommand (.cbreg pin id edge) (cbregBody pin id edge) s

/-- CBUNREG p (R292). -/
def execCbunreg (pin : Byte) (s : State) : Host.Outcome State Fault Refusal :=
  runCommand (.cbunreg pin) (do
    modify fun t => t.setCallback pin CbEntry.empty
    pure (Response.done true)) s

/-- CBGLOBAL id (R294). -/
def execCbglobal (n : Byte) (s : State) : Host.Outcome State Fault Refusal :=
  runCommand (.cbglobal n) (do
    modify fun t => { t with gcb := n }
    pure (Response.done true)) s

/-- `Match(edge, rising, falling)` (R303). -/
def edgeMatches (e : Edge) (rising falling : Bool) : Bool :=
  match e with
  | .rising => rising
  | .falling => falling
  | .both => rising || falling

/-- The event of pin p in one dispatch, if it has one (R300 step 4, R303). -/
def pinEvent (cbt : Vector CbEntry 16) (st prev cur : Half) (p : Fin 16) : Option CbEvent :=
  let rising := !prev.getLsbD p.val && cur.getLsbD p.val
  let falling := prev.getLsbD p.val && !cur.getLsbD p.val
  if st.getLsbD p.val && cbt[p].reg && edgeMatches cbt[p].edge rising falling then
    some (.pinCB cbt[p].id (BitVec.ofFin p) (cur.getLsbD p.val))
  else none

/-- The global event of one dispatch, if a global callback is set (R300 step 3). -/
def globalEvent (gcb : Byte) (st : Half) : List CbEvent :=
  if gcb ≠ 0#8 then [.globalCB gcb st] else []

/-- The events of one dispatch in order: the global one, then the pins ascending (R303). -/
def dispatchEvents (s : State) (st cur : Half) : List CbEvent :=
  globalEvent s.gcb st ++ (List.finRange 16).filterMap (pinEvent s.cbt st s.snap cur)

/-- Steps 3 to 5 of HANDLE: the events emitted and the snapshot overwritten (R300, R305). -/
def State.dispatch (s : State) (st cur : Half) : State :=
  { s with events := s.events ++ dispatchEvents s st cur, snap := cur }

/-- Steps 1 and 2 of HANDLE: the status mask and the current levels, or none when a read failed
(R300, R301, R302, R306). -/
def handleReads : Eff (Option (Half × Half)) := do
  let s ← get
  if s.variant = .extendedCapable then do
    match ← dualRead s.regMap.intStatus with
    | none => pure none
    | some st =>
      match ← dualRead s.regMap.input with
      | none => pure none
      | some cur => pure (some (st, cur))
  else do
    match ← dualRead s.regMap.input with
    | none => pure none
    | some cur => pure (some (cur ^^^ s.snap, cur))

/-- The body of HANDLE (R300). -/
def handleBody : Eff Response := do
  match ← handleReads with
  | none => pure Response.failed
  | some (st, cur) => do
    modify fun t => t.dispatch st cur
    pure ⟨true, st⟩

/-- HANDLE (R300). -/
def execHandle (s : State) : Host.Outcome State Fault Refusal :=
  runCommand .handle handleBody s

end Sys2Proof.Machine
end

