-- ==== Sys2Proof/Machine/Management.lean ====
section
/-! DEFINITION. The management commands (spec 40_control R160 to R168). -/

namespace Sys2Proof.Machine

/-- INIT (R160): lazy initialisation is the frame's step 2. -/
def execInit (s : State) : Host.Outcome State Fault Refusal :=
  runCommand .init (pure (Response.done true)) s

/-- `(VARIANT != Unknown, zext_16(VARIANT))` (R161). -/
def detectResponse (v : Variant) : Response := ⟨v != .unknown, (variantCode v).setWidth 16⟩

/-- The body of DETECT (R161). -/
def detectBody : Eff Response := do
  if (← get).init then do
    detectOrForce
    pure (detectResponse (← get).variant)
  else do
    if ← ensureInit then pure (detectResponse (← get).variant) else pure Response.failed

/-- DETECT (R161). -/
def execDetect (s : State) : Host.Outcome State Fault Refusal :=
  runCommand .detect detectBody s

/-- SETRETRY n (R162). -/
def execSetretry (n : Byte) (s : State) : Host.Outcome State Fault Refusal :=
  runCommand (.setretry n) (do
    modify fun t => { t with retries := n }
    pure (Response.done true)) s

/-- GETERR (R163). -/
def execGeterr (s : State) : Host.Outcome State Fault Refusal :=
  runCommand .geterr (do pure ⟨true, (← get).err⟩) s

/-- CLRERR m (R164): clears exactly the flags named in m. -/
def execClrerr (m : Half) (s : State) : Host.Outcome State Fault Refusal :=
  runCommand (.clrerr m) (do
    modify fun t => { t with err := t.err &&& ~~~m }
    pure (Response.done true)) s

/-- GETVAR (R165). -/
def execGetvar (s : State) : Host.Outcome State Fault Refusal :=
  runCommand .getvar (do pure ⟨true, (variantCode (← get).variant).setWidth 16⟩) s

/-- HASEXT (R167). -/
def execHasext (s : State) : Host.Outcome State Fault Refusal :=
  runCommand .hasext (do pure ⟨true, if (← get).variant = .extendedCapable then 0x0001#16 else 0x0000#16⟩) s

/-- GETADDR (R168). -/
def execGetaddr (s : State) : Host.Outcome State Fault Refusal :=
  runCommand .getaddr (do pure ⟨true, (← get).addr.setWidth 16⟩) s

/-- The fields CHADDR writes before it re-initialises (R166). -/
def State.changeAddress (s : State) (a : Byte) : State :=
  { s with addr := a.setWidth 7, abits := a.setWidth 3, init := false, variant := .unknown }

/-- CHADDR a (R166), reached with 0x20 <= a <= 0x27. -/
def execChaddr (a : Byte) (s : State) : Host.Outcome State Fault Refusal :=
  runCommand (.chaddr a) (do
    modify fun t => t.changeAddress a
    reportOk ensureInit) s

end Sys2Proof.Machine
end

