-- ==== Sys2Proof/Machine/Dispatch.lean ====
section
/-! DEFINITION. The dispatch of every instruction to its meaning, one arm a constructor. -/

namespace Sys2Proof.Machine

def exec (i : Instr) (s : State) : Host.Outcome State Fault Refusal :=
  match i with
  | .init => Sys2Proof.Machine.execInit s
  | .detect => Sys2Proof.Machine.execDetect s
  | .setretry n => Sys2Proof.Machine.execSetretry n s
  | .geterr => Sys2Proof.Machine.execGeterr s
  | .clrerr m => Sys2Proof.Machine.execClrerr m s
  | .getvar => Sys2Proof.Machine.execGetvar s
  | .hasext => Sys2Proof.Machine.execHasext s
  | .getaddr => Sys2Proof.Machine.execGetaddr s
  | .chaddr n => Sys2Proof.Machine.execChaddr n s
  | .dir pin v => Sys2Proof.Machine.execDir pin v s
  | .dirm mask v => Sys2Proof.Machine.execDirm mask v s
  | .dirl es => Sys2Proof.Machine.execDirl es s
  | .rdpin pin => Sys2Proof.Machine.execRdpin pin s
  | .rdpinl ps => Sys2Proof.Machine.execRdpinl ps s
  | .wrpin pin v => Sys2Proof.Machine.execWrpin pin v s
  | .wrpinl es => Sys2Proof.Machine.execWrpinl es s
  | .tglpin pin => Sys2Proof.Machine.execTglpin pin s
  | .pol pin v => Sys2Proof.Machine.execPol pin v s
  | .polm mask v => Sys2Proof.Machine.execPolm mask v s
  | .poll es => Sys2Proof.Machine.execPoll es s
  | .rstdef => Sys2Proof.Machine.execRstdef s
  | .puen pin v => Sys2Proof.Machine.execPuen pin v s
  | .puenm mask v => Sys2Proof.Machine.execPuenm mask v s
  | .puenl es => Sys2Proof.Machine.execPuenl es s
  | .pusel pin v => Sys2Proof.Machine.execPusel pin v s
  | .puselm mask v => Sys2Proof.Machine.execPuselm mask v s
  | .pusell es => Sys2Proof.Machine.execPusell es s
  | .drv pin v => Sys2Proof.Machine.execDrv pin v s
  | .drvl es => Sys2Proof.Machine.execDrvl es s
  | .drvget pin => Sys2Proof.Machine.execDrvget pin s
  | .latch pin v => Sys2Proof.Machine.execLatch pin v s
  | .latchm mask v => Sys2Proof.Machine.execLatchm mask v s
  | .latchl es => Sys2Proof.Machine.execLatchl es s
  | .intcfg pin v => Sys2Proof.Machine.execIntcfg pin v s
  | .intcfgl es => Sys2Proof.Machine.execIntcfgl es s
  | .intmask m => Sys2Proof.Machine.execIntmask m s
  | .intstat => Sys2Proof.Machine.execIntstat s
  | .omode od0 od1 => Sys2Proof.Machine.execOmode od0 od1 s
  | .cbreg pin id edge => Sys2Proof.Machine.execCbreg pin id edge s
  | .cbunreg pin => Sys2Proof.Machine.execCbunreg pin s
  | .cbglobal n => Sys2Proof.Machine.execCbglobal n s
  | .handle => Sys2Proof.Machine.execHandle s

end Sys2Proof.Machine
end

