-- ==== Sys2Proof/Decode.lean ====
section
/-! DEFINITION. The command decoder (30_encoding R101, R102, R106, R107) and, after it, the encoder, both written
from the format tables of R102 and the opcode map of R105. Decoding reads no engine state (R107, R110). -/

namespace Sys2Proof

/-- Why a command is illegal (30_encoding R107), by name. -/
inductive DecodeError where
  /-- No word is presented: there is no command. -/
  | noWord
  /-- R107 (a): the opcode is not in the map of R105. -/
  | unassignedOpcode
  /-- R107 (b): a reserved field of the format is not 0. -/
  | reservedField
  /-- R107 (c): an operand constraint of the row fails. -/
  | operandRange
  /-- Fewer element words are presented than the list header counts (R106). -/
  | missingElements
  deriving DecidableEq, Repr

/-- Bits 31:24, `op` (R101). -/
def opcodeOf (w : Word) : Byte := w.extractLsb' 24 8

/-- Bits 7:0, `k` of a list header (R102 format L). -/
def countOf (w : Word) : Nat := (w.extractLsb' 0 8).toNat

/-- Whether an opcode selects format L (R105). -/
def isListOpcode (op : Byte) : Bool :=
  [0x12#8, 0x14#8, 0x16#8, 0x1A#8, 0x22#8, 0x25#8, 0x27#8, 0x2B#8, 0x2D#8].contains op

/-- The number of words of the command that `w` heads: 1, or 1 + k for format L (R106).
An unassigned opcode takes one word (DESIGN CHOICE, log 12, unsafe). -/
def commandLength (w : Word) : Nat :=
  if isListOpcode (opcodeOf w) then 1 + countOf w else 1

/-- The edge codes (R103): Rising 0, Falling 1, Both 2. -/
def Edge.code : Edge → BitVec 2
  | .rising => 0#2
  | .falling => 1#2
  | .both => 2#2

/-- Format N with `imm` = 0. -/
def decodeN0 (w : Word) (i : Instr) : Except DecodeError Instr :=
  if w.extractLsb' 16 8 ≠ 0#8 then .error .reservedField
  else if w.extractLsb' 0 16 ≠ 0#16 then .error .operandRange
  else .ok i

/-- Format N with `imm[15:8]` = 0. -/
def decodeN8 (w : Word) (mk : Byte → Instr) : Except DecodeError Instr :=
  if w.extractLsb' 16 8 ≠ 0#8 then .error .reservedField
  else if w.extractLsb' 8 8 ≠ 0#8 then .error .operandRange
  else .ok (mk (w.extractLsb' 0 8))

/-- Format N with any `imm`. -/
def decodeN16 (w : Word) (mk : Half → Instr) : Except DecodeError Instr :=
  if w.extractLsb' 16 8 ≠ 0#8 then .error .reservedField
  else .ok (mk (w.extractLsb' 0 16))

/-- OMODE, format N with `imm[15:2]` = 0: `od0` is `imm[0]`, `od1` is `imm[1]` (R111, 42_extended_bank R270). -/
def decodeOmode (w : Word) : Except DecodeError Instr :=
  if w.extractLsb' 16 8 ≠ 0#8 then .error .reservedField
  else if w.extractLsb' 2 14 ≠ 0#14 then .error .operandRange
  else .ok (.omode (w.getLsbD 0) (w.getLsbD 1))

/-- Format P with `v` = 0. -/
def decodeP0 (w : Word) (mk : Byte → Instr) : Except DecodeError Instr :=
  if w.extractLsb' 2 14 ≠ 0#14 then .error .reservedField
  else if w.extractLsb' 0 2 ≠ 0#2 then .error .operandRange
  else .ok (mk (w.extractLsb' 16 8))

/-- Format P with `v` in {0, 1}. -/
def decodeP1 (w : Word) (mk : Byte → Bool → Instr) : Except DecodeError Instr :=
  if w.extractLsb' 2 14 ≠ 0#14 then .error .reservedField
  else if w.getLsbD 1 then .error .operandRange
  else .ok (mk (w.extractLsb' 16 8) (w.getLsbD 0))

/-- Format P with `v` in {0..3}. -/
def decodeP2 (w : Word) (mk : Byte → BitVec 2 → Instr) : Except DecodeError Instr :=
  if w.extractLsb' 2 14 ≠ 0#14 then .error .reservedField
  else .ok (mk (w.extractLsb' 16 8) (w.extractLsb' 0 2))

/-- Format M. -/
def decodeM (w : Word) (mk : Half → Bool → Instr) : Except DecodeError Instr :=
  if w.extractLsb' 17 7 ≠ 0#7 then .error .reservedField
  else .ok (mk (w.extractLsb' 0 16) (w.getLsbD 16))

/-- The edge that a 2-bit code names; code 3 names none (R107). -/
def decodeEdge (c : BitVec 2) : Option Edge :=
  match c with
  | 0#2 => some .rising
  | 1#2 => some .falling
  | 2#2 => some .both
  | _ => none

/-- Format C, with `id` != 0 and `edge` != 3 (R105). -/
def decodeCbreg (w : Word) : Except DecodeError Instr :=
  if w.extractLsb' 2 6 ≠ 0#6 then .error .reservedField
  else if w.extractLsb' 8 8 = 0#8 then .error .operandRange
  else
    match decodeEdge (w.extractLsb' 0 2) with
    | none => .error .operandRange
    | some e => .ok (.cbreg (w.extractLsb' 16 8) (w.extractLsb' 8 8) e)

/-- The reserved fields of format E are 0 (R102). -/
def elemReservedOk (w : Word) : Bool :=
  w.extractLsb' 16 16 == 0#16 && w.extractLsb' 2 6 == 0#6

/-- Format E with `v` = 0 (RDPINL). -/
def decodeElem0 (w : Word) : Except DecodeError Byte :=
  if elemReservedOk w = false then .error .reservedField
  else if w.extractLsb' 0 2 ≠ 0#2 then .error .operandRange
  else .ok (w.extractLsb' 8 8)

/-- Format E with `v` in {0, 1}. -/
def decodeElem1 (w : Word) : Except DecodeError PinBit :=
  if elemReservedOk w = false then .error .reservedField
  else if w.getLsbD 1 then .error .operandRange
  else .ok ⟨w.extractLsb' 8 8, w.getLsbD 0⟩

/-- Format E with `v` in {0..3} (DRVL). -/
def decodeElem2 (w : Word) : Except DecodeError PinLevel :=
  if elemReservedOk w = false then .error .reservedField
  else .ok ⟨w.extractLsb' 8 8, w.extractLsb' 0 2⟩

/-- The first `k` words as elements, and the words after them. -/
def decodeElems {α : Type} (elem : Word → Except DecodeError α) : Nat → List Word → Except DecodeError (List α × List Word)
  | 0, ws => .ok ([], ws)
  | _ + 1, [] => .error .missingElements
  | k + 1, w :: ws =>
    match elem w with
    | .error e => .error e
    | .ok a =>
      match decodeElems elem k ws with
      | .error e => .error e
      | .ok (as, rest) => .ok (a :: as, rest)

/-- Format L: the header `w`, then `k` element words (R102, R106). -/
def decodeList {α : Type} (elem : Word → Except DecodeError α) (mk : List α → Instr) (w : Word) (ws : List Word) :
    Except DecodeError (Instr × List Word) :=
  if w.extractLsb' 8 16 ≠ 0#16 then .error .reservedField
  else
    match decodeElems elem (countOf w) ws with
    | .error e => .error e
    | .ok (as, rest) => .ok (mk as, rest)

/-- A command of one word, with the words after it. -/
def oneWord (ws : List Word) (r : Except DecodeError Instr) : Except DecodeError (Instr × List Word) :=
  match r with
  | .error e => .error e
  | .ok i => .ok (i, ws)

/-- The command at the head of the words presented, and the words after it (R105, R106, R107). -/
def decode : List Word → Except DecodeError (Instr × List Word)
  | [] => .error .noWord
  | w :: ws =>
    match opcodeOf w with
    | 0x01#8 => oneWord ws (decodeN0 w .init)
    | 0x02#8 => oneWord ws (decodeN0 w .detect)
    | 0x03#8 => oneWord ws (decodeN8 w .setretry)
    | 0x04#8 => oneWord ws (decodeN0 w .geterr)
    | 0x05#8 => oneWord ws (decodeN16 w .clrerr)
    | 0x06#8 => oneWord ws (decodeN0 w .getvar)
    | 0x07#8 => oneWord ws (decodeN0 w .hasext)
    | 0x08#8 => oneWord ws (decodeN0 w .getaddr)
    | 0x09#8 => oneWord ws (decodeN8 w .chaddr)
    | 0x10#8 => oneWord ws (decodeP1 w .dir)
    | 0x11#8 => oneWord ws (decodeM w .dirm)
    | 0x12#8 => decodeList decodeElem1 .dirl w ws
    | 0x13#8 => oneWord ws (decodeP0 w .rdpin)
    | 0x14#8 => decodeList decodeElem0 .rdpinl w ws
    | 0x15#8 => oneWord ws (decodeP1 w .wrpin)
    | 0x16#8 => decodeList decodeElem1 .wrpinl w ws
    | 0x17#8 => oneWord ws (decodeP0 w .tglpin)
    | 0x18#8 => oneWord ws (decodeP1 w .pol)
    | 0x19#8 => oneWord ws (decodeM w .polm)
    | 0x1A#8 => decodeList decodeElem1 .poll w ws
    | 0x1B#8 => oneWord ws (decodeN0 w .rstdef)
    | 0x20#8 => oneWord ws (decodeP1 w .puen)
    | 0x21#8 => oneWord ws (decodeM w .puenm)
    | 0x22#8 => decodeList decodeElem1 .puenl w ws
    | 0x23#8 => oneWord ws (decodeP1 w .pusel)
    | 0x24#8 => oneWord ws (decodeM w .puselm)
    | 0x25#8 => decodeList decodeElem1 .pusell w ws
    | 0x26#8 => oneWord ws (decodeP2 w .drv)
    | 0x27#8 => decodeList decodeElem2 .drvl w ws
    | 0x28#8 => oneWord ws (decodeP0 w .drvget)
    | 0x29#8 => oneWord ws (decodeP1 w .latch)
    | 0x2A#8 => oneWord ws (decodeM w .latchm)
    | 0x2B#8 => decodeList decodeElem1 .latchl w ws
    | 0x2C#8 => oneWord ws (decodeP1 w .intcfg)
    | 0x2D#8 => decodeList decodeElem1 .intcfgl w ws
    | 0x2E#8 => oneWord ws (decodeN16 w .intmask)
    | 0x2F#8 => oneWord ws (decodeN0 w .intstat)
    | 0x30#8 => oneWord ws (decodeOmode w)
    | 0x40#8 => oneWord ws (decodeCbreg w)
    | 0x41#8 => oneWord ws (decodeP0 w .cbunreg)
    | 0x42#8 => oneWord ws (decodeN8 w .cbglobal)
    | 0x43#8 => oneWord ws (decodeN0 w .handle)
    | _ => .error .unassignedOpcode

/-- A 1-bit operand in the 2-bit field `v`. -/
def bit2 (v : Bool) : BitVec 2 := 0#1 ++ BitVec.ofBool v

/-- Format N (R102). -/
def wordN (op : Byte) (imm : Half) : Word := op ++ 0#8 ++ imm

/-- Format P (R102). -/
def wordP (op pin : Byte) (v : BitVec 2) : Word := op ++ pin ++ 0#14 ++ v

/-- Format M (R102). -/
def wordM (op : Byte) (v : Bool) (mask : Half) : Word := op ++ 0#7 ++ BitVec.ofBool v ++ mask

/-- Format C (R102). -/
def wordC (op pin id : Byte) (edge : BitVec 2) : Word := op ++ pin ++ id ++ 0#6 ++ edge

/-- Format L (R102). -/
def wordL (op : Byte) (k : Nat) : Word := op ++ 0#16 ++ BitVec.ofNat 8 k

/-- Format E (R102). -/
def wordE (pin : Byte) (v : BitVec 2) : Word := 0#16 ++ pin ++ 0#6 ++ v

/-- The words of an instruction (R102, R105). -/
def encode : Instr → List Word
  | .init => [wordN 0x01#8 0#16]
  | .detect => [wordN 0x02#8 0#16]
  | .setretry n => [wordN 0x03#8 (0#8 ++ n)]
  | .geterr => [wordN 0x04#8 0#16]
  | .clrerr m => [wordN 0x05#8 m]
  | .getvar => [wordN 0x06#8 0#16]
  | .hasext => [wordN 0x07#8 0#16]
  | .getaddr => [wordN 0x08#8 0#16]
  | .chaddr n => [wordN 0x09#8 (0#8 ++ n)]
  | .dir pin v => [wordP 0x10#8 pin (bit2 v)]
  | .dirm mask v => [wordM 0x11#8 v mask]
  | .dirl es => wordL 0x12#8 es.length :: es.map fun e => wordE e.pin (bit2 e.v)
  | .rdpin pin => [wordP 0x13#8 pin 0#2]
  | .rdpinl ps => wordL 0x14#8 ps.length :: ps.map fun p => wordE p 0#2
  | .wrpin pin v => [wordP 0x15#8 pin (bit2 v)]
  | .wrpinl es => wordL 0x16#8 es.length :: es.map fun e => wordE e.pin (bit2 e.v)
  | .tglpin pin => [wordP 0x17#8 pin 0#2]
  | .pol pin v => [wordP 0x18#8 pin (bit2 v)]
  | .polm mask v => [wordM 0x19#8 v mask]
  | .poll es => wordL 0x1A#8 es.length :: es.map fun e => wordE e.pin (bit2 e.v)
  | .rstdef => [wordN 0x1B#8 0#16]
  | .puen pin v => [wordP 0x20#8 pin (bit2 v)]
  | .puenm mask v => [wordM 0x21#8 v mask]
  | .puenl es => wordL 0x22#8 es.length :: es.map fun e => wordE e.pin (bit2 e.v)
  | .pusel pin v => [wordP 0x23#8 pin (bit2 v)]
  | .puselm mask v => [wordM 0x24#8 v mask]
  | .pusell es => wordL 0x25#8 es.length :: es.map fun e => wordE e.pin (bit2 e.v)
  | .drv pin v => [wordP 0x26#8 pin v]
  | .drvl es => wordL 0x27#8 es.length :: es.map fun e => wordE e.pin e.v
  | .drvget pin => [wordP 0x28#8 pin 0#2]
  | .latch pin v => [wordP 0x29#8 pin (bit2 v)]
  | .latchm mask v => [wordM 0x2A#8 v mask]
  | .latchl es => wordL 0x2B#8 es.length :: es.map fun e => wordE e.pin (bit2 e.v)
  | .intcfg pin v => [wordP 0x2C#8 pin (bit2 v)]
  | .intcfgl es => wordL 0x2D#8 es.length :: es.map fun e => wordE e.pin (bit2 e.v)
  | .intmask m => [wordN 0x2E#8 m]
  | .intstat => [wordN 0x2F#8 0#16]
  | .omode od0 od1 => [wordN 0x30#8 (0#14 ++ BitVec.ofBool od1 ++ BitVec.ofBool od0)]
  | .cbreg pin id edge => [wordC 0x40#8 pin id edge.code]
  | .cbunreg pin => [wordP 0x41#8 pin 0#2]
  | .cbglobal n => [wordN 0x42#8 (0#8 ++ n)]
  | .handle => [wordN 0x43#8 0#16]

/-- The words of the instruction whose bits are `w`, of which `nbits` are given and the rest are 0: the first word is
bits 31:0, the next bits 63:32, as many words as the first one's opcode says (R101, R106). -/
def tableWords (nbits w : Nat) : List Word :=
  let given := w % 2 ^ nbits
  (List.range (commandLength (BitVec.ofNat 32 given))).map fun j => BitVec.ofNat 32 (given >>> (32 * j))

/-- The instruction the decoder reads from those words. -/
def decodeTableWord (nbits w : Nat) : Option Instr :=
  match decode (tableWords nbits w) with
  | .error _ => none
  | .ok (i, _) => some i

end Sys2Proof
end

