-- ==== Sys2Proof/Machine/Fetch.lean ====
section
/-! DEFINITION. Taking a command from the command port (spec 30_encoding R100, R106, R108). -/

namespace Sys2Proof.Machine

/-- What stands on the command port. -/
inductive Fetched where
  /-- No complete command is presented; the engine waits (60_exceptions R335; log 13, log 14). -/
  | idle
  /-- An illegal command, and the words after it (R108). -/
  | illegal (why : DecodeError) (rest : List Word)
  /-- A legal command, and the words after it. -/
  | command (i : Instr) (rest : List Word)
  deriving DecidableEq, Repr

/-- The command at the head of the port: its length is read from its opcode (R106), and it is decoded once all its
words are presented. -/
def fetch (port : List Word) : Fetched :=
  match port with
  | [] => .idle
  | w :: ws =>
    if ws.length + 1 < commandLength w then .idle
    else
      match decode (w :: ws) with
      | .error e => .illegal e ((w :: ws).drop (commandLength w))
      | .ok (i, rest) => .command i rest

/-- The command's words taken from the port. -/
def State.takeCommand (s : State) (rest : List Word) : State := { s with port := rest }

/-- The response `(0, 0x0000)` to an illegal command, which changes nothing else (R108). -/
def State.rejectIllegal (s : State) (rest : List Word) : State :=
  { s with port := rest, response := some Response.failed }

/-- The words of one command placed on the command port, in place of what was there. -/
def State.presentWords (s : State) (ws : List Word) : State := { s with port := ws }

end Sys2Proof.Machine
end

