-- ==== Sys2Proof/Machine/Step.lean ====
section
/-! DEFINITION. One step of the machine: one command taken from the command port and executed to its end
(spec 30_encoding R100), and the placing of an instruction's words for it. -/

namespace Sys2Proof.Machine

/-- One step. With a transport call that never returned the engine accepts nothing (70_reset R365); with no complete
command it holds its state (60_exceptions R335); an illegal command is answered (0, 0x0000) (30_encoding R108); a
legal one is executed. -/
def step (s : State) : Host.Outcome State Fault Refusal :=
  match s.stuck with
  | some _ => .fault .transportHang
  | none =>
    match fetch s.port with
    | .idle => .next s
    | .illegal _ rest => .next (s.rejectIllegal rest)
    | .command i rest => exec i (s.takeCommand rest)

/-- The instruction whose bits are `w` presented on the command port, so that the next step takes exactly it
(log 3). -/
def State.withFetchWord (s : State) (nbits w : Nat) : State := s.presentWords (tableWords nbits w)

end Sys2Proof.Machine
end

