-- ==== Sys2Proof/Safety.lean ====
section
/-! DEFINITION. The terms the statements are written in: the oracle answers and the history events of one transaction
(spec 20_memory R51, R60, R61), of a lazy initialisation (40_control R131, R141), the shapes a command's outcomes
take, and the invariant of the engine. -/

namespace Sys2Proof.Machine

/-- No answer in the script is one that never comes (70_reset R365). -/
abbrev State.NoHang (s : State) : Prop := Answer.never ∉ s.script

/-- A list of pins that all exist (30_encoding R109). -/
abbrev PinsValid (ps : List Byte) : Prop := ∀ p ∈ ps, p.toNat < 16

/-- The answers of a transaction that succeeds after `fails` failed attempts (20_memory R60, R61); for a write the
byte is not used. -/
def okAnswers (fails : Nat) (b : Byte) : List Answer := List.replicate fails .fail ++ [.ok b]

/-- The answers of a transaction whose n + 1 attempts all fail. -/
def failAnswers (n : Nat) : List Answer := List.replicate (n + 1) .fail

/-- The event of a failed read call. -/
def readMiss (dev : BitVec 7) (reg : Byte) : BusEvent := ⟨.read dev reg, false, none⟩

/-- The event of a failed write call. -/
def writeMiss (dev : BitVec 7) (reg b : Byte) : BusEvent := ⟨.write dev reg b, false, none⟩

/-- The events of a read transaction that succeeds after `fails` failed attempts. -/
def readOk (dev : BitVec 7) (reg : Byte) (fails : Nat) (b : Byte) : List BusEvent :=
  List.replicate fails (readMiss dev reg) ++ [⟨.read dev reg, true, some b⟩]

/-- The events of a read transaction whose n + 1 attempts all fail. -/
def readFailed (dev : BitVec 7) (reg : Byte) (n : Nat) : List BusEvent := List.replicate (n + 1) (readMiss dev reg)

/-- The events of a write transaction that succeeds after `fails` failed attempts. -/
def writeOk (dev : BitVec 7) (reg b : Byte) (fails : Nat) : List BusEvent :=
  List.replicate fails (writeMiss dev reg b) ++ [⟨.write dev reg b, true, none⟩]

/-- The events of a write transaction whose n + 1 attempts all fail. -/
def writeFailed (dev : BitVec 7) (reg b : Byte) (n : Nat) : List BusEvent :=
  List.replicate (n + 1) (writeMiss dev reg b)

/-- `s` with a new flag word, new events at the end of the history, the rest of the script, and a response: every
other field is as it was. -/
def State.completed (s : State) (err : Half) (evs : List BusEvent) (rest : List Answer) (r : Response) : State :=
  { s with err := err, history := s.history ++ evs, script := rest, response := some r }

/-- `s` with the flag word and the response of a command turned away before its body: nothing else changes. -/
def State.turnedAway (s : State) (flag : Half) : State :=
  { s with err := s.err ||| flag, response := some ⟨false, 0#16⟩ }

/-- The outcomes of a command that reads one register: its value, or failure with I2CReadFail (bit 2). -/
def ReadCommand (i : Instr) (s : State) (reg : Byte) (value : Byte → Half) (clears : Half) : Prop :=
  let n := s.retries.toNat
  let e := s.err &&& ~~~clears
  (∀ j b rest, j ≤ n → s.script = okAnswers j b ++ rest →
    exec i s = .next (s.completed e (readOk s.addr reg j b) rest ⟨true, value b⟩)) ∧
  (∀ rest, s.script = failAnswers n ++ rest →
    exec i s = .next (s.completed (e ||| 0x0004#16) (readFailed s.addr reg n) rest ⟨false, 0#16⟩))

/-- The outcomes of a command that reads one register and writes it back changed by f: success, a failed read with
no write, a failed write with I2CWriteFail (bit 3). -/
def ModifyCommand (i : Instr) (s : State) (reg : Byte) (f : Byte → Byte) (clears : Half) : Prop :=
  let n := s.retries.toNat
  let e := s.err &&& ~~~clears
  (∀ j old k x rest, j ≤ n → k ≤ n → s.script = okAnswers j old ++ okAnswers k x ++ rest →
    exec i s = .next (s.completed e (readOk s.addr reg j old ++ writeOk s.addr reg (f old) k) rest ⟨true, 0#16⟩)) ∧
  (∀ rest, s.script = failAnswers n ++ rest →
    exec i s = .next (s.completed (e ||| 0x0004#16) (readFailed s.addr reg n) rest ⟨false, 0#16⟩)) ∧
  (∀ j old rest, j ≤ n → s.script = okAnswers j old ++ failAnswers n ++ rest →
    exec i s = .next (s.completed (e ||| 0x0008#16)
      (readOk s.addr reg j old ++ writeFailed s.addr reg (f old) n) rest ⟨false, 0#16⟩))

/-- The outcomes of a command that reads both registers of a pair, port-0 first: `{b1, b0}` through `value`, or
failure at either port, with port-1 not read after a failed port-0. -/
def PairReadCommand (i : Instr) (s : State) (pair : RegPair) (value : Half → Half) (clears : Half) : Prop :=
  let n := s.retries.toNat
  let e := s.err &&& ~~~clears
  (∀ j0 b0 j1 b1 rest, j0 ≤ n → j1 ≤ n → s.script = okAnswers j0 b0 ++ okAnswers j1 b1 ++ rest →
    exec i s = .next (s.completed e (readOk s.addr pair.port0 j0 b0 ++ readOk s.addr pair.port1 j1 b1) rest
      ⟨true, value (b1 ++ b0)⟩)) ∧
  (∀ rest, s.script = failAnswers n ++ rest →
    exec i s = .next (s.completed (e ||| 0x0004#16) (readFailed s.addr pair.port0 n) rest ⟨false, 0#16⟩)) ∧
  (∀ j0 b0 rest, j0 ≤ n → s.script = okAnswers j0 b0 ++ failAnswers n ++ rest →
    exec i s = .next (s.completed (e ||| 0x0004#16)
      (readOk s.addr pair.port0 j0 b0 ++ readFailed s.addr pair.port1 n) rest ⟨false, 0#16⟩))

/-- The outcomes of a command that writes both registers of a pair, port-0 first: success, a failed port-0 write
with port-1 not written, a failed port-1 write with port-0 written. -/
def PairWriteCommand (i : Instr) (s : State) (pair : RegPair) (v : Half) (clears : Half) : Prop :=
  let n := s.retries.toNat
  let e := s.err &&& ~~~clears
  let lo := v.extractLsb' 0 8
  let hi := v.extractLsb' 8 8
  (∀ k0 x0 k1 x1 rest, k0 ≤ n → k1 ≤ n → s.script = okAnswers k0 x0 ++ okAnswers k1 x1 ++ rest →
    exec i s = .next (s.completed e (writeOk s.addr pair.port0 lo k0 ++ writeOk s.addr pair.port1 hi k1) rest
      ⟨true, 0#16⟩)) ∧
  (∀ rest, s.script = failAnswers n ++ rest →
    exec i s = .next (s.completed (e ||| 0x0008#16) (writeFailed s.addr pair.port0 lo n) rest ⟨false, 0#16⟩)) ∧
  (∀ k0 x0 rest, k0 ≤ n → s.script = okAnswers k0 x0 ++ failAnswers n ++ rest →
    exec i s = .next (s.completed (e ||| 0x0008#16)
      (writeOk s.addr pair.port0 lo k0 ++ writeFailed s.addr pair.port1 hi n) rest ⟨false, 0#16⟩))

/-- The outcomes of a command that reads a pair and writes it back changed by f: success, and failure at each of the
two reads (nothing written) and each of the two writes (port-0 written before a failed port-1 write). -/
def PairModifyCommand (i : Instr) (s : State) (pair : RegPair) (f : Half → Half) (clears : Half) : Prop :=
  let n := s.retries.toNat
  let e := s.err &&& ~~~clears
  let lo := fun (b0 b1 : Byte) => (f (b1 ++ b0)).extractLsb' 0 8
  let hi := fun (b0 b1 : Byte) => (f (b1 ++ b0)).extractLsb' 8 8
  let reads := fun (j0 : Nat) (b0 : Byte) (j1 : Nat) (b1 : Byte) =>
    readOk s.addr pair.port0 j0 b0 ++ readOk s.addr pair.port1 j1 b1
  (∀ j0 b0 j1 b1 k0 x0 k1 x1 rest, j0 ≤ n → j1 ≤ n → k0 ≤ n → k1 ≤ n →
    s.script = okAnswers j0 b0 ++ okAnswers j1 b1 ++ okAnswers k0 x0 ++ okAnswers k1 x1 ++ rest →
    exec i s = .next (s.completed e
      (reads j0 b0 j1 b1 ++ writeOk s.addr pair.port0 (lo b0 b1) k0 ++ writeOk s.addr pair.port1 (hi b0 b1) k1)
      rest ⟨true, 0#16⟩)) ∧
  (∀ rest, s.script = failAnswers n ++ rest →
    exec i s = .next (s.completed (e ||| 0x0004#16) (readFailed s.addr pair.port0 n) rest ⟨false, 0#16⟩)) ∧
  (∀ j0 b0 rest, j0 ≤ n → s.script = okAnswers j0 b0 ++ failAnswers n ++ rest →
    exec i s = .next (s.completed (e ||| 0x0004#16)
      (readOk s.addr pair.port0 j0 b0 ++ readFailed s.addr pair.port1 n) rest ⟨false, 0#16⟩)) ∧
  (∀ j0 b0 j1 b1 rest, j0 ≤ n → j1 ≤ n →
    s.script = okAnswers j0 b0 ++ okAnswers j1 b1 ++ failAnswers n ++ rest →
    exec i s = .next (s.completed (e ||| 0x0008#16)
      (reads j0 b0 j1 b1 ++ writeFailed s.addr pair.port0 (lo b0 b1) n) rest ⟨false, 0#16⟩)) ∧
  (∀ j0 b0 j1 b1 k0 x0 rest, j0 ≤ n → j1 ≤ n → k0 ≤ n →
    s.script = okAnswers j0 b0 ++ okAnswers j1 b1 ++ okAnswers k0 x0 ++ failAnswers n ++ rest →
    exec i s = .next (s.completed (e ||| 0x0008#16)
      (reads j0 b0 j1 b1 ++ writeOk s.addr pair.port0 (lo b0 b1) k0 ++ writeFailed s.addr pair.port1 (hi b0 b1) n)
      rest ⟨false, 0#16⟩))

/-- The answers of several transactions that succeed, one entry (failed attempts, byte) a transaction. -/
def okRun (ms : List (Nat × Byte)) : List Answer := ms.flatMap fun m => okAnswers m.1 m.2

/-- The events of several reads that succeed, one register an entry. -/
def readRun (dev : BitVec 7) (regs : List Byte) (ms : List (Nat × Byte)) : List BusEvent :=
  (List.zipWith (fun r m => readOk dev r m.1 m.2) regs ms).flatten

/-- The events of several writes that succeed, one register and byte an entry. -/
def writeRun (dev : BitVec 7) (ws : List (Byte × Byte)) (ms : List (Nat × Byte)) : List BusEvent :=
  (List.zipWith (fun w m => writeOk dev w.1 w.2 m.1) ws ms).flatten

/-- No transaction of a run takes more than n failed attempts before it succeeds. -/
abbrev RunWithin (n : Nat) (ms : List (Nat × Byte)) : Prop := ∀ m ∈ ms, m.1 ≤ n

/-- The answer of one single-shot call whose result is given. -/
def answerOf : Option Byte → Answer
  | none => .fail
  | some b => .ok b

/-- The event of one single-shot read call whose result is given. -/
def readEvent (dev : BitVec 7) (reg : Byte) (r : Option Byte) : BusEvent := ⟨.read dev reg, r.isSome, r⟩

/-- The answers a detection takes: one when the first read fails, else three (40_control R145). -/
def probeAnswers (r1 r2 r3 : Option Byte) : List Answer :=
  match r1 with
  | none => [.fail]
  | some b => [.ok b, answerOf r2, answerOf r3]

/-- The events of a detection: the standard probe, and after its success the extended probe and the standard probe
again (40_control R141, R145). -/
def probeEvents (s : State) (r1 r2 r3 : Option Byte) : List BusEvent :=
  match r1 with
  | none => [readEvent s.addr s.probeStd none]
  | some b => [readEvent s.addr s.probeStd (some b), readEvent s.addr s.probeExt r2, readEvent s.addr s.probeStd r3]

/-- The outcome of a detection: Unknown after a failed step 1, else the table of 40_control R143. -/
def probeVariant (r1 r2 r3 : Option Byte) : Variant :=
  if r1.isSome && r3.isSome then (if r2.isSome then .extendedCapable else .standardOnly) else .unknown

/-- The flag word after a detection: I2CReadFail is the negation of the last read's outcome (40_control R144). -/
def probeErr (e : Half) (r1 r3 : Option Byte) : Half :=
  if r1.isSome && r3.isSome then e &&& ~~~0x0004#16 else e ||| 0x0004#16

/-- The state after a detection with these results (40_control R141, R143, R144). -/
def State.detected (s : State) (r1 r2 r3 : Option Byte) (rest : List Answer) : State :=
  { s with variant := probeVariant r1 r2 r3, err := probeErr s.err r1 r3, savedRetries := s.retries,
           history := s.history ++ probeEvents s r1 r2 r3, script := rest }

/-- The variant that a forced variant names (10_state R28). -/
def forcedVariant : Forced → Variant
  | .none => .unknown
  | .standardOnly => .standardOnly
  | .extendedCapable => .extendedCapable

/-- The answers of the address-pin hook, where the transport has it (40_control R131). -/
def hookAnswers (s : State) (x : Option Byte) : List Answer := if s.hasPinHook then [answerOf x] else []

/-- The event of the address-pin hook with the levels a0, a1, a2, where the transport has it (40_control R131). -/
def hookEvents (s : State) (x : Option Byte) : List BusEvent :=
  if s.hasPinHook then
    [⟨.hookPins (s.abits.getLsbD 0) (s.abits.getLsbD 1) (s.abits.getLsbD 2), x.isSome, none⟩]
  else []

/-- The state after the hooks of a lazy initialisation whose transport is ready or not (40_control R131). -/
def State.hooked (s : State) (x : Option Byte) (ready : Bool) (rest : List Answer) : State :=
  { s with history := s.history ++ hookEvents s x ++ [⟨.hookInit, ready, none⟩], script := rest }

/-- The state after a lazy initialisation that detected the variant (40_control R131, R141). -/
def State.initialised (s : State) (x r1 r2 r3 : Option Byte) (rest : List Answer) : State :=
  { (s.hooked x true rest).detected r1 r2 r3 rest with init := true }

/-- The state after a lazy initialisation with a forced variant: no probe (40_control R131, R140). -/
def State.initialisedForced (s : State) (x : Option Byte) (rest : List Answer) : State :=
  { s.hooked x true rest with variant := forcedVariant s.forced, init := true }

/-- The state with a response. -/
def State.respond (s : State) (ok : Bool) (value : Half) : State := { s with response := some ⟨ok, value⟩ }

/-- The commands of the extended bank, which are gated (40_control R132 "gated"). -/
def extendedCommand : Instr → Bool
  | .puen _ _ | .puenm _ _ | .puenl _ | .pusel _ _ | .puselm _ _ | .pusell _ | .drv _ _ | .drvl _ | .drvget _
  | .latch _ _ | .latchm _ _ | .latchl _ | .intcfg _ _ | .intcfgl _ | .intmask _ | .intstat | .omode _ _ => true
  | .init | .detect | .setretry _ | .geterr | .clrerr _ | .getvar | .hasext | .getaddr | .chaddr _
  | .dir _ _ | .dirm _ _ | .dirl _ | .rdpin _ | .rdpinl _ | .wrpin _ _ | .wrpinl _ | .tglpin _ | .pol _ _
  | .polm _ _ | .poll _ | .rstdef | .cbreg _ _ _ | .cbunreg _ | .cbglobal _ | .handle => false

/-- The commands that run the lazy initialisation in the frame (40_control R132 "init"). -/
def lazyCommand : Instr → Bool
  | .detect | .setretry _ | .geterr | .clrerr _ | .getvar | .hasext | .getaddr | .chaddr _ | .cbunreg _
  | .cbglobal _ => false
  | .init | .dir _ _ | .dirm _ _ | .dirl _ | .rdpin _ | .rdpinl _ | .wrpin _ _ | .wrpinl _ | .tglpin _ | .pol _ _
  | .polm _ _ | .poll _ | .rstdef | .puen _ _ | .puenm _ _ | .puenl _ | .pusel _ _ | .puselm _ _ | .pusell _
  | .drv _ _ | .drvl _ | .drvget _ | .latch _ _ | .latchm _ _ | .latchl _ | .intcfg _ _ | .intcfgl _ | .intmask _
  | .intstat | .omode _ _ | .cbreg _ _ _ | .handle => true

/-- The pins an instruction names, in its command word or in its elements (30_encoding R103, R109). -/
def namedPins : Instr → List Byte
  | .dir p _ | .rdpin p | .wrpin p _ | .tglpin p | .pol p _ | .puen p _ | .pusel p _ | .drv p _ | .drvget p
  | .latch p _ | .intcfg p _ | .cbreg p _ _ | .cbunreg p => [p]
  | .dirl es | .wrpinl es | .poll es | .puenl es | .pusell es | .latchl es | .intcfgl es => es.map fun e => e.pin
  | .drvl es => es.map fun e => e.pin
  | .rdpinl ps => ps
  | .init | .detect | .setretry _ | .geterr | .clrerr _ | .getvar | .hasext | .getaddr | .chaddr _ | .dirm _ _
  | .polm _ _ | .rstdef | .puenm _ _ | .puselm _ _ | .latchm _ _ | .intmask _ | .intstat | .omode _ _
  | .cbglobal _ | .handle => []

/-- The register address a data call names, if it is a data call. -/
def callReg : BusCall → Option Byte
  | .read _ r => some r
  | .write _ r _ => some r
  | .hookInit => none
  | .hookPins _ _ _ => none

/-- The device address a data call names, if it is a data call. -/
def callDev : BusCall → Option (BitVec 7)
  | .read d _ => some d
  | .write d _ _ => some d
  | .hookInit => none
  | .hookPins _ _ _ => none

/-- The register a write call names, if the call is a write. -/
def writtenReg : BusCall → Option Byte
  | .write _ r _ => some r
  | .read _ _ => none
  | .hookInit => none
  | .hookPins _ _ _ => none

/-- The transport calls made between two states, in issue order: the completed ones, which are the new events of the
history, and last the call that never returned, if there is one (20_memory R51, R54; log 11). -/
def Issued (s t : State) (cs : List BusCall) : Prop :=
  ∃ (evs : List BusEvent) (hung : Option BusCall), t.history = s.history ++ evs ∧ t.stuck = hung.or s.stuck ∧
    cs = evs.map (fun e => e.call) ++ hung.toList

/-- A command that runs the variant detection: no variant is forced, and it is DETECT, CHADDR with a legal address, or
a command with the init attribute on an uninitialised block (40_control R131, R140, R161, R166). -/
def RunsDetection (i : Instr) (s : State) : Prop :=
  s.forced = .none ∧
    (i = .detect ∨ (∃ a, i = .chaddr a ∧ 0x20 ≤ a.toNat ∧ a.toNat ≤ 0x27) ∨ (lazyCommand i = true ∧ s.init = false))

/-- The pin of a per-pin callback event, if the event is one. -/
def eventPin : CbEvent → Option (BitVec 4)
  | .pinCB _ p _ => some p
  | .globalCB _ _ => none

/-- The invariant of the engine: the address lies in 0x20..0x27 and is 0x20 | ABITS (10_state R22, R23); InvalidMask
and the reserved bits of ERR are 0 (R26); an entry is registered exactly when its handle is not 0 (R31); an
uninitialised block is Unknown (40_control R131, R133); an initialised block with a forced variant has it (R28). -/
structure State.Inv (s : State) : Prop where
  addr : s.addr = 0x20#7 ||| s.abits.setWidth 7
  err : s.err &&& 0xFFC2#16 = 0#16
  table : ∀ p : Fin 16, s.cbt[p].reg = true ↔ s.cbt[p].id ≠ 0#8
  fresh : s.init = false → s.variant = .unknown
  forced : s.init = true → s.forced ≠ .none → s.variant = forcedVariant s.forced

end Sys2Proof.Machine
end

