-- ==== Sys2Proof/Certificates/Slice0/Obligations.lean ====
section
/-! DEFINITION. The statements about the model, each with the rule of spec/ it formalises. The shapes of a command's
outcomes (`ReadCommand`, `ModifyCommand`, ...) and the oracle's answers are in Sys2Proof/Safety.lean. -/

open Sys2Proof Sys2Proof.Machine

/-! Construction, invariant. -/

/-- 10_state R38, R39: the value of every engine field at construction, for every parameter set. The order of the
address pins in ABITS is the spec's own ('from general knowledge', R39; log 16), and the fields a construction gives
besides R38's are the model's (log 2). -/
def Obligations.ConstructionGivesEachFieldItsValue : Prop :=
  ∀ p : Params,
    let s := State.construct p
    s.retries = p.defaultRetries ∧ s.err = 0x0000#16 ∧ s.variant = .unknown ∧ s.forced = p.forcedVariant ∧
    s.init = false ∧ s.snap = 0x0000#16 ∧ (∀ q : Fin 16, s.cbt[q] = ⟨false, 0#8, .rising⟩) ∧ s.gcb = 0#8 ∧
    s.history = [] ∧
    (match p.addrSpec with
     | .pins a0 a1 a2 =>
       s.abits.getLsbD 0 = a0 ∧ s.abits.getLsbD 1 = a1 ∧ s.abits.getLsbD 2 = a2 ∧
       s.addr = 0x20#7 ||| s.abits.setWidth 7
     | .direct a =>
       let c := if a.toNat < 0x20 then 0x20#8 else if 0x27 < a.toNat then 0x27#8 else a
       s.addr = c.setWidth 7 ∧ s.abits = c.setWidth 3)

/-- The invariant of the engine (`State.Inv`: 10_state R22, R23, R26, R28, R31) holds after every construction and
at `State.reset`. R23 and R31 mark these invariants as derived. -/
def Obligations.InvariantHoldsAtConstruction : Prop :=
  (∀ p : Params, (State.construct p).Inv) ∧ State.reset.Inv

/-- Every step keeps the invariant of the engine (10_state R22, R23, R26, R28, R31). R23 and R31 mark these
invariants as derived; that an uninitialised block is Unknown is read from R131 and R166. -/
def Obligations.EveryStepKeepsTheInvariant : Prop :=
  ∀ s t : State, s.Inv → step s = .next t → t.Inv

/-! Encoding and the command port. -/

/-- 30_encoding R102, R105, R106: decoding the words of a well-formed command gives it back, with the words after
it. -/
def Obligations.DecodingAnEncodedCommandGivesItBack : Prop :=
  ∀ (i : Instr) (rest : List Word), i.wf = true → decode (encode i ++ rest) = .ok (i, rest)

/-- 30_encoding R107: a decoded command is well-formed and its words are exactly its encoding, so no word is legal but
the encoding of a command, and no two commands share words. -/
def Obligations.DecodedWordsAreTheEncoding : Prop :=
  ∀ (ws rest : List Word) (i : Instr), decode ws = .ok (i, rest) → i.wf = true ∧ ws = encode i ++ rest

/-- 30_encoding R113: the encoding examples of the spec decode to the commands they stand for. -/
def Obligations.EncodingExamplesDecode : Prop :=
  decode [0x10030000#32] = .ok (.dir 3#8 false, []) ∧
  decode [0x110100FF#32] = .ok (.dirm 0x00FF#16 true, []) ∧
  decode [0x40000100#32] = .ok (.cbreg 0#8 1#8 .rising, []) ∧
  decode [0x40010202#32] = .ok (.cbreg 1#8 2#8 .both, []) ∧
  decode [0x03000002#32] = .ok (.setretry 2#8, []) ∧
  decode [0x09000019#32] = .ok (.chaddr 0x19#8, []) ∧
  decode [0x43000000#32] = .ok (.handle, []) ∧
  decode [0x12000002#32, 0x00000000#32, 0x00000901#32] = .ok (.dirl [⟨0#8, false⟩, ⟨9#8, true⟩], [])

/-- 30_encoding R100: when the words on the command port decode to a command, the step is that command's meaning, on
the state whose port holds the words after it. -/
def Obligations.StepRunsTheDecodedCommand : Prop :=
  ∀ (s : State) (i : Instr) (rest : List Word), s.stuck = none → decode s.port = .ok (i, rest) →
    i.wf = true ∧ step s = exec i { s with port := rest }

/-- 30_encoding R108: an illegal command is answered (0, 0x0000) and changes no field but the port it is taken from;
every word with an opcode outside R105 is one. The number of words taken from the port is the model's reading of
R106 (log 12). -/
def Obligations.IllegalCommandChangesNothing : Prop :=
  (∀ (s : State) (w : Word) (ws : List Word) (e : DecodeError), s.stuck = none → s.port = w :: ws →
    commandLength w ≤ ws.length + 1 → decode (w :: ws) = .error e →
    step s = .next { s with port := (w :: ws).drop (commandLength w), response := some ⟨false, 0x0000#16⟩ }) ∧
  (∀ (w : Word) (ws : List Word),
    w.extractLsb' 24 8 ∉ [0x01#8, 0x02#8, 0x03#8, 0x04#8, 0x05#8, 0x06#8, 0x07#8, 0x08#8, 0x09#8,
      0x10#8, 0x11#8, 0x12#8, 0x13#8, 0x14#8, 0x15#8, 0x16#8, 0x17#8, 0x18#8, 0x19#8, 0x1A#8, 0x1B#8,
      0x20#8, 0x21#8, 0x22#8, 0x23#8, 0x24#8, 0x25#8, 0x26#8, 0x27#8, 0x28#8, 0x29#8, 0x2A#8, 0x2B#8, 0x2C#8,
      0x2D#8, 0x2E#8, 0x2F#8, 0x30#8, 0x40#8, 0x41#8, 0x42#8, 0x43#8] →
    decode (w :: ws) = .error .unassignedOpcode)

/-- 60_exceptions R335, 20_memory R54, 70_reset R365: with no complete command presented the engine holds its state
(log 13, log 14: the model's choice for a list whose elements are not all presented); after a call that never returned
it accepts nothing (log 10). -/
def Obligations.EngineIdlesOrStaysHung : Prop :=
  (∀ s : State, s.stuck = none → s.port = [] → step s = .next s) ∧
  (∀ (s : State) (w : Word) (ws : List Word), s.stuck = none → s.port = w :: ws →
    ws.length + 1 < commandLength w → step s = .next s) ∧
  (∀ (s : State) (c : BusCall), s.stuck = some c → step s = .fault .transportHang)

/-- 20_memory R54, 70_reset R365: a command hangs exactly when it takes an answer that never comes, which is then the
last answer it takes; it gives no response, and no further command is accepted. That the engine then stands in a fault
is the model's form of the spec's 'does not terminate' (log 10), and the answers are the model's script (log 1). -/
def Obligations.HungCommandGivesNoResponse : Prop :=
  ∀ (i : Instr) (s t : State), s.stuck = none → exec i s = .next t →
    (∃ used, s.script = used ++ t.script ∧
      ((t.stuck = none ∧ Answer.never ∉ used) ∨
       (∃ c before, t.stuck = some c ∧ used = before ++ [Answer.never] ∧ Answer.never ∉ before))) ∧
    (∀ c, t.stuck = some c →
      t.response = none ∧ ∀ ws : List Word, step { t with port := ws } = .fault .transportHang)

/-- 30_encoding R100, R104: when every answer comes, every command is executed to completion and returns a response.
The answers after the script are the model's and always come (log 1). -/
def Obligations.CommandsCompleteWhenTheTransportAnswers : Prop :=
  ∀ (i : Instr) (s : State), s.stuck = none → s.NoHang →
    ∃ t r, exec i s = .next t ∧ t.response = some r ∧ t.stuck = none ∧ t.NoHang

/-! Transactions. -/

/-- 20_memory R60: a completed read transaction makes failed calls and then, if it succeeds, one successful call, at
most RETRIES + 1 in all; it clears or raises I2CReadFail and changes nothing else. The byte 0x00 of a failed read is
the model's none (log 18). -/
def Obligations.ReadTransactionStopsAtItsFirstSuccess : Prop :=
  ∀ (reg : Byte) (s t : State) (r : Option Byte), readReg reg s = .ok r t →
    t = { s with err := t.err, history := t.history, script := t.script, calls := t.calls } ∧
    (match r with
     | some b => (∃ j, j ≤ s.retries.toNat ∧ t.history = s.history ++ readOk s.addr reg j b) ∧
         t.err = s.err &&& ~~~0x0004#16
     | none => t.history = s.history ++ readFailed s.addr reg s.retries.toNat ∧ t.err = s.err ||| 0x0004#16)

/-- 20_memory R61: a completed write transaction sends the same byte at every attempt, stops at the first success,
makes at most RETRIES + 1 calls, clears or raises I2CWriteFail and changes nothing else. -/
def Obligations.WriteTransactionStopsAtItsFirstSuccess : Prop :=
  ∀ (reg b : Byte) (s t : State) (ok : Bool), writeReg reg b s = .ok ok t →
    t = { s with err := t.err, history := t.history, script := t.script, calls := t.calls } ∧
    (if ok then (∃ k, k ≤ s.retries.toNat ∧ t.history = s.history ++ writeOk s.addr reg b k) ∧
         t.err = s.err &&& ~~~0x0008#16
     else t.history = s.history ++ writeFailed s.addr reg b s.retries.toNat ∧ t.err = s.err ||| 0x0008#16)

/-- 20_memory R71: MaskModify equals MaskMerge with the value all ones or all zeros. R71 marks it as derived. -/
def Obligations.MaskModifyIsAMaskMerge : Prop :=
  ∀ (pair : RegPair) (mask : Half) (v : Bool) (s : State),
    maskModify pair mask v s = maskMerge pair mask (if v then 0xFFFF#16 else 0x0000#16) s

/-! The frame: validation, lazy initialisation, feature gate. -/

/-- 42_extended_bank R231, 70_reset R372: a command that names a pin >= 16, in its command word or in any element,
raises exactly InvalidPin, fails, and changes and calls nothing else, whatever the variant and INIT are. R231 marks
its sentence as derived from the frame (R130). -/
def Obligations.InvalidPinTurnsTheCommandAway : Prop :=
  ∀ (i : Instr) (s : State) (p : Byte), i.wf = true → p ∈ namedPins i → 16 ≤ p.toNat →
    exec i s = .next (s.turnedAway 0x0001#16)

/-- 40_control R131, 70_reset R353: on a block with INIT = 0, a command with the init attribute first runs the
hooks and the detection (or takes the forced variant), and then does what it does on the initialised block; if the
transport is not ready it fails with no flag and INIT stays 0. The answers of the hooks and probes come in the order
of R353. -/
def Obligations.LazyInitialisationRunsFirst : Prop :=
  ∀ (i : Instr) (s : State) (x : Option Byte), i.wf = true → lazyCommand i = true → PinsValid (namedPins i) →
    s.init = false →
    (∀ b r1 r2 r3 rest, s.forced = .none →
      s.script = hookAnswers s x ++ .ok b :: (probeAnswers r1 r2 r3 ++ rest) →
      exec i s = exec i (s.initialised x r1 r2 r3 rest)) ∧
    (∀ b rest, s.forced ≠ .none → s.script = hookAnswers s x ++ .ok b :: rest →
      exec i s = exec i (s.initialisedForced x rest)) ∧
    (∀ rest, s.script = hookAnswers s x ++ .fail :: rest →
      exec i s = .next ((s.hooked x false rest).respond false 0x0000#16))

/-- 40_control R150, R152: on an initialised block whose variant is not ExtendedCapable, every extended-bank command
raises UnsupportedFeature and fails without a transport call. -/
def Obligations.FeatureGateTurnsTheCommandAway : Prop :=
  ∀ (i : Instr) (s : State), i.wf = true → extendedCommand i = true → PinsValid (namedPins i) → s.init = true →
    s.variant ≠ .extendedCapable → exec i s = .next (s.turnedAway 0x0010#16)

/-! Management commands. -/

/-- 40_control R163, R165, R167, R168: the queries report the field and change nothing but the response; with their
encodings. -/
def Obligations.QueriesReportAndChangeNothing : Prop :=
  encode .geterr = [0x04000000#32] ∧ encode .getvar = [0x06000000#32] ∧ encode .hasext = [0x07000000#32] ∧
  encode .getaddr = [0x08000000#32] ∧
  ∀ s : State,
    exec .geterr s = .next (s.respond true s.err) ∧
    exec .getvar s = .next (s.respond true
      (match s.variant with | .unknown => 0#16 | .standardOnly => 1#16 | .extendedCapable => 2#16)) ∧
    exec .hasext s = .next (s.respond true (if s.variant = .extendedCapable then 0x0001#16 else 0x0000#16)) ∧
    exec .getaddr s = .next (s.respond true (s.addr.setWidth 16))

/-- 40_control R162, R164, 43_interrupt_dispatch R294: SETRETRY, CLRERR and CBGLOBAL write their one field and the
response; with their encodings. -/
def Obligations.SettersWriteTheirField : Prop :=
  (∀ n : Byte, encode (.setretry n) = [0x0300#16 ++ 0x00#8 ++ n]) ∧
  (∀ m : Half, encode (.clrerr m) = [0x0500#16 ++ m]) ∧
  (∀ c : Byte, encode (.cbglobal c) = [0x4200#16 ++ 0x00#8 ++ c]) ∧
  ∀ s : State,
    (∀ n : Byte, exec (.setretry n) s = .next ({ s with retries := n }.respond true 0x0000#16)) ∧
    (∀ m : Half, exec (.clrerr m) s = .next ({ s with err := s.err &&& ~~~m }.respond true 0x0000#16)) ∧
    (∀ c : Byte, exec (.cbglobal c) s = .next ({ s with gcb := c }.respond true 0x0000#16))

/-- 40_control R160: INIT on an initialised block calls nothing and succeeds; otherwise it initialises, succeeding
whatever the detection finds, and fails with INIT still 0 when the transport is not ready. -/
def Obligations.InitOutcomes : Prop :=
  ∀ (s : State) (x : Option Byte),
    (s.init = true → exec .init s = .next (s.respond true 0x0000#16)) ∧
    (s.init = false →
      (∀ b r1 r2 r3 rest, s.forced = .none →
        s.script = hookAnswers s x ++ .ok b :: (probeAnswers r1 r2 r3 ++ rest) →
        exec .init s = .next ((s.initialised x r1 r2 r3 rest).respond true 0x0000#16)) ∧
      (∀ b rest, s.forced ≠ .none → s.script = hookAnswers s x ++ .ok b :: rest →
        exec .init s = .next ((s.initialisedForced x rest).respond true 0x0000#16)) ∧
      (∀ rest, s.script = hookAnswers s x ++ .fail :: rest →
        exec .init s = .next ((s.hooked x false rest).respond false 0x0000#16)))

/-- 40_control R140, R143, R144, R145, R161: DETECT probes with single-shot reads of the two probe registers, leaves
VARIANT by the outcome table and I2CReadFail as the negation of the last read, keeps RETRIES, and reports the
variant; a forced variant is taken without a probe; an uninitialised block is initialised instead. R144 and R145
mark the flag and the calls as derived. -/
def Obligations.DetectOutcomes : Prop :=
  ∀ (s : State) (x : Option Byte),
    (s.init = true →
      (∀ r1 r2 r3 rest, s.forced = .none → s.script = probeAnswers r1 r2 r3 ++ rest →
        exec .detect s = .next ((s.detected r1 r2 r3 rest).respond
          (probeVariant r1 r2 r3 != .unknown) ((variantCode (probeVariant r1 r2 r3)).setWidth 16))) ∧
      (s.forced ≠ .none →
        exec .detect s = .next ({ s with variant := forcedVariant s.forced }.respond true
          ((variantCode (forcedVariant s.forced)).setWidth 16)))) ∧
    (s.init = false →
      (∀ b r1 r2 r3 rest, s.forced = .none →
        s.script = hookAnswers s x ++ .ok b :: (probeAnswers r1 r2 r3 ++ rest) →
        exec .detect s = .next ((s.initialised x r1 r2 r3 rest).respond
          (probeVariant r1 r2 r3 != .unknown) ((variantCode (probeVariant r1 r2 r3)).setWidth 16))) ∧
      (∀ b rest, s.forced ≠ .none → s.script = hookAnswers s x ++ .ok b :: rest →
        exec .detect s = .next ((s.initialisedForced x rest).respond true
          ((variantCode (forcedVariant s.forced)).setWidth 16))) ∧
      (∀ rest, s.script = hookAnswers s x ++ .fail :: rest →
        exec .detect s = .next ((s.hooked x false rest).respond false 0x0000#16)))

/-- 40_control R166: CHADDR outside 0x20..0x27 raises InvalidAddress and changes nothing else; inside, it sets the
address, clears INIT, VARIANT and InvalidAddress, and re-initialises at once with the new address. -/
def Obligations.ChangeAddressOutcomes : Prop :=
  ∀ (s : State) (a : Byte) (x : Option Byte),
    ((a.toNat < 0x20 ∨ 0x27 < a.toNat) → exec (.chaddr a) s = .next (s.turnedAway 0x0020#16)) ∧
    (0x20 ≤ a.toNat → a.toNat ≤ 0x27 →
      let c := { s with addr := a.setWidth 7, abits := a.setWidth 3, init := false, variant := .unknown,
                        err := s.err &&& ~~~0x0020#16 }
      (∀ b r1 r2 r3 rest, s.forced = .none →
        s.script = hookAnswers s x ++ .ok b :: (probeAnswers r1 r2 r3 ++ rest) →
        exec (.chaddr a) s = .next ((c.initialised x r1 r2 r3 rest).respond true 0x0000#16)) ∧
      (∀ b rest, s.forced ≠ .none → s.script = hookAnswers s x ++ .ok b :: rest →
        exec (.chaddr a) s = .next ((c.initialisedForced x rest).respond true 0x0000#16)) ∧
      (∀ rest, s.script = hookAnswers s x ++ .fail :: rest →
        exec (.chaddr a) s = .next ((c.hooked x false rest).respond false 0x0000#16)))

/-! Standard-bank commands. -/

/-- 41_standard_bank R180, R187, R192: DIR, WRPIN and POL set or clear one bit of the register that owns the pin. -/
def Obligations.StandardPinCommands : Prop :=
  ∀ (s : State) (pin : Byte) (v : Bool), s.init = true → pin.toNat < 16 →
    let own := fun (pair : RegPair) => if pin.toNat < 8 then pair.port0 else pair.port1
    let f := fun (old : Byte) =>
      if v then old ||| (1#8 <<< (pin.toNat % 8)) else old &&& ~~~(1#8 <<< (pin.toNat % 8))
    ModifyCommand (.dir pin v) s (own s.regMap.config) f 0x000D#16 ∧
    ModifyCommand (.wrpin pin v) s (own s.regMap.output) f 0x000D#16 ∧
    ModifyCommand (.pol pin v) s (own s.regMap.polarity) f 0x000D#16

/-- 41_standard_bank R189: TGLPIN inverts one bit of the output register that owns the pin. -/
def Obligations.TogglePinCommand : Prop :=
  ∀ (s : State) (pin : Byte), s.init = true → pin.toNat < 16 →
    ModifyCommand (.tglpin pin) s
      (if pin.toNat < 8 then s.regMap.output.port0 else s.regMap.output.port1)
      (fun old => old ^^^ (1#8 <<< (pin.toNat % 8))) 0x000D#16

/-- 41_standard_bank R190: TGLPIN twice, all four transactions succeeding and the device keeping the written byte,
restores the original output byte. -/
def Obligations.ToggleTwiceRestoresTheOutput : Prop :=
  ∀ (s : State) (pin old a c : Byte) (j k j' k' : Nat) (rest : List Answer), s.init = true → pin.toNat < 16 →
    let n := s.retries.toNat
    let reg := if pin.toNat < 8 then s.regMap.output.port0 else s.regMap.output.port1
    let new := old ^^^ (1#8 <<< (pin.toNat % 8))
    j ≤ n → k ≤ n → j' ≤ n → k' ≤ n →
    s.script = okAnswers j old ++ okAnswers k a ++ okAnswers j' new ++ okAnswers k' c ++ rest →
    ∃ t u, exec (.tglpin pin) s = .next t ∧ exec (.tglpin pin) t = .next u ∧
      u.history = s.history ++ (readOk s.addr reg j old ++ writeOk s.addr reg new k ++
        readOk s.addr reg j' new ++ writeOk s.addr reg old k') ∧
      u.response = some ⟨true, 0x0000#16⟩

/-- 41_standard_bank R181, R193: DIRM and POLM set or clear the masked bits of the pair. -/
def Obligations.StandardMaskCommands : Prop :=
  ∀ (s : State) (mask : Half) (v : Bool), s.init = true →
    let f := fun (old : Half) => if v then old ||| mask else old &&& ~~~mask
    PairModifyCommand (.dirm mask v) s s.regMap.config f 0x000C#16 ∧
    PairModifyCommand (.polm mask v) s s.regMap.polarity f 0x000C#16

/-- 41_standard_bank R182, R183, R188, R194: DIRL, WRPINL and POLL read the pair once, apply the elements' bits in
list order (so a pin listed twice takes its last value), and write the pair once, for every list length. -/
def Obligations.StandardListCommands : Prop :=
  ∀ (s : State) (es : List PinBit), s.init = true → es.length ≤ 255 → PinsValid (es.map fun e => e.pin) →
    let f := fun (old : Half) => es.foldl (fun w e =>
      if e.v then w ||| (1#16 <<< e.pin.toNat) else w &&& ~~~(1#16 <<< e.pin.toNat)) old
    PairModifyCommand (.dirl es) s s.regMap.config f 0x000D#16 ∧
    PairModifyCommand (.wrpinl es) s s.regMap.output f 0x000D#16 ∧
    PairModifyCommand (.poll es) s s.regMap.polarity f 0x000D#16

/-- 41_standard_bank R185: RDPIN reads the one input register that owns the pin and returns its bit. -/
def Obligations.ReadPinCommand : Prop :=
  ∀ (s : State) (pin : Byte), s.init = true → pin.toNat < 16 →
    ReadCommand (.rdpin pin) s (if pin.toNat < 8 then s.regMap.input.port0 else s.regMap.input.port1)
      (fun b => if b.getLsbD (pin.toNat % 8) then 0x0001#16 else 0x0000#16) 0x0005#16

/-- 41_standard_bank R186: RDPINL reads the input pair and returns the levels of the listed pins, 0 elsewhere. -/
def Obligations.ReadPinListCommand : Prop :=
  ∀ (s : State) (ps : List Byte), s.init = true → ps.length ≤ 255 → PinsValid ps →
    PairReadCommand (.rdpinl ps) s s.regMap.input
      (fun l => l &&& ps.foldl (fun m p => m ||| (1#16 <<< p.toNat)) 0x0000#16) 0x0005#16

/-- 41_standard_bank R200: RSTDEF writes its sequence in order, the extended bank only on ExtendedCapable; it
succeeds when every write does, and stops at the first write that fails, with I2CWriteFail. Five of the byte values
are the spec's 'from general knowledge' (R200; log 16). -/
def Obligations.ResetToDefaultWrites : Prop :=
  ∀ (s : State), s.init = true →
    let m := s.regMap
    let standard := [(m.output.port0, 0xFF#8), (m.output.port1, 0xFF#8), (m.polarity.port0, 0x00#8),
      (m.polarity.port1, 0x00#8), (m.config.port0, 0xFF#8), (m.config.port1, 0xFF#8)]
    let extended := [(m.drv0L, 0xFF#8), (m.drv0H, 0xFF#8), (m.drv1L, 0xFF#8), (m.drv1H, 0xFF#8),
      (m.latch.port0, 0x00#8), (m.latch.port1, 0x00#8), (m.pullEnable.port0, 0xFF#8), (m.pullEnable.port1, 0xFF#8),
      (m.pullSelect.port0, 0xFF#8), (m.pullSelect.port1, 0xFF#8), (m.intMask.port0, 0xFF#8),
      (m.intMask.port1, 0xFF#8), (m.outConf, 0x00#8)]
    let seq := if s.variant = .extendedCapable then standard ++ extended else standard
    let n := s.retries.toNat
    let e := s.err &&& ~~~0x0008#16
    (∀ ms rest, ms.length = seq.length → RunWithin n ms → s.script = okRun ms ++ rest →
      exec .rstdef s = .next (s.completed e (writeRun s.addr seq ms) rest ⟨true, 0x0000#16⟩)) ∧
    (∀ before r b after ms rest, seq = before ++ (r, b) :: after → ms.length = before.length → RunWithin n ms →
      s.script = okRun ms ++ failAnswers n ++ rest →
      exec .rstdef s = .next (s.completed (e ||| 0x0008#16)
        (writeRun s.addr before ms ++ writeFailed s.addr r b n) rest ⟨false, 0x0000#16⟩))

/-- 70_reset R352: on an initialised block RSTDEF changes no engine field but I2CWriteFail, for every answer of the
oracle; and on any block it leaves the callback table, the global callback and the snapshot as they are. -/
def Obligations.ResetToDefaultKeepsEngineState : Prop :=
  ∀ s t : State, exec .rstdef s = .next t →
    (s.init = true →
      t = { s with err := t.err, history := t.history, script := t.script, calls := t.calls, stuck := t.stuck,
                   response := t.response } ∧
      t.err &&& ~~~0x0008#16 = s.err &&& ~~~0x0008#16) ∧
    t.cbt = s.cbt ∧ t.gcb = s.gcb ∧ t.snap = s.snap

/-! Extended-bank commands. -/

/-- 42_extended_bank R240, R244, R255, R260: PUEN, PUSEL and LATCH write the operand to the pin's bit; INTCFG writes
1 - v to its mask bit. -/
def Obligations.ExtendedPinCommands : Prop :=
  ∀ (s : State) (pin : Byte) (v : Bool), s.init = true → s.variant = .extendedCapable → pin.toNat < 16 →
    let own := fun (pair : RegPair) => if pin.toNat < 8 then pair.port0 else pair.port1
    let put := fun (v : Bool) (old : Byte) =>
      if v then old ||| (1#8 <<< (pin.toNat % 8)) else old &&& ~~~(1#8 <<< (pin.toNat % 8))
    ModifyCommand (.puen pin v) s (own s.regMap.pullEnable) (put v) 0x001D#16 ∧
    ModifyCommand (.pusel pin v) s (own s.regMap.pullSelect) (put v) 0x001D#16 ∧
    ModifyCommand (.latch pin v) s (own s.regMap.latch) (put v) 0x001D#16 ∧
    ModifyCommand (.intcfg pin v) s (own s.regMap.intMask) (put (!v)) 0x001D#16

/-- 42_extended_bank R241, R245, R256: PUENM, PUSELM and LATCHM set or clear the masked bits of the pair. -/
def Obligations.ExtendedMaskCommands : Prop :=
  ∀ (s : State) (mask : Half) (v : Bool), s.init = true → s.variant = .extendedCapable →
    let f := fun (old : Half) => if v then old ||| mask else old &&& ~~~mask
    PairModifyCommand (.puenm mask v) s s.regMap.pullEnable f 0x001C#16 ∧
    PairModifyCommand (.puselm mask v) s s.regMap.pullSelect f 0x001C#16 ∧
    PairModifyCommand (.latchm mask v) s s.regMap.latch f 0x001C#16

/-- 42_extended_bank R242, R246, R257, R261: PUENL, PUSELL and LATCHL apply the elements' bits in list order; INTCFGL
applies their inverses to the mask pair. -/
def Obligations.ExtendedListCommands : Prop :=
  ∀ (s : State) (es : List PinBit), s.init = true → s.variant = .extendedCapable → es.length ≤ 255 →
    PinsValid (es.map fun e => e.pin) →
    let put := fun (v : Bool) (w : Half) (p : Byte) =>
      if v then w ||| (1#16 <<< p.toNat) else w &&& ~~~(1#16 <<< p.toNat)
    let f := fun (old : Half) => es.foldl (fun w e => put e.v w e.pin) old
    let g := fun (old : Half) => es.foldl (fun w e => put (!e.v) w e.pin) old
    PairModifyCommand (.puenl es) s s.regMap.pullEnable f 0x001D#16 ∧
    PairModifyCommand (.pusell es) s s.regMap.pullSelect f 0x001D#16 ∧
    PairModifyCommand (.latchl es) s s.regMap.latch f 0x001D#16 ∧
    PairModifyCommand (.intcfgl es) s s.regMap.intMask g 0x001D#16

/-- 42_extended_bank R250, R252: DRV writes the pin's 2-bit field of register p >> 2 of the drive quad and keeps the
others; DRVGET returns the field. The placement of the fields is the spec's 'from general knowledge' (R236; log 16).
-/
def Obligations.DriveStrengthCommands : Prop :=
  ∀ (s : State) (pin : Byte) (l : BitVec 2), s.init = true → s.variant = .extendedCapable → pin.toNat < 16 →
    let reg := driveAt s.regMap (pin.toNat / 4)
    let sh := 2 * (pin.toNat % 4)
    ModifyCommand (.drv pin l) s reg (fun old => (old &&& ~~~(0b11#8 <<< sh)) ||| (l.setWidth 8 <<< sh)) 0x001D#16 ∧
    ReadCommand (.drvget pin) s reg (fun b => ((b >>> sh) &&& 0b11#8).setWidth 16) 0x0015#16

/-- 42_extended_bank R253: DRV p, l and then DRVGET p, the transactions succeeding and the device keeping the
written byte, returns (1, l), and the fields of the other pins of the register are unchanged. The placement of the
fields is the spec's 'from general knowledge' (R236; log 16). -/
def Obligations.DriveStrengthRoundTrip : Prop :=
  ∀ (s : State) (pin old a : Byte) (l : BitVec 2) (j k j' : Nat) (rest : List Answer), s.init = true →
    s.variant = .extendedCapable → pin.toNat < 16 →
    let n := s.retries.toNat
    let reg := driveAt s.regMap (pin.toNat / 4)
    let sh := 2 * (pin.toNat % 4)
    let new := (old &&& ~~~(0b11#8 <<< sh)) ||| (l.setWidth 8 <<< sh)
    j ≤ n → k ≤ n → j' ≤ n → s.script = okAnswers j old ++ okAnswers k a ++ okAnswers j' new ++ rest →
    ∃ t u, exec (.drv pin l) s = .next t ∧ exec (.drvget pin) t = .next u ∧
      t.response = some ⟨true, 0x0000#16⟩ ∧ u.response = some ⟨true, l.setWidth 16⟩ ∧
      t.history = s.history ++ (readOk s.addr reg j old ++ writeOk s.addr reg new k) ∧
      ∀ b < 8, b / 2 ≠ pin.toNat % 4 → new.getLsbD b = old.getLsbD b

/-- 42_extended_bank R251: DRVL reads each affected drive register once, in ascending order, all reads before all
writes, puts the levels in list order into the bytes, and writes each affected register once; a failed read writes
nothing, and a failed write stops the rest. The placement of the fields is the spec's 'from general knowledge'
(R236; log 16). -/
def Obligations.DriveStrengthListCommand : Prop :=
  ∀ (s : State) (es : List PinLevel), s.init = true → s.variant = .extendedCapable → es.length ≤ 255 →
    PinsValid (es.map fun e => e.pin) →
    let n := s.retries.toNat
    let e := s.err &&& ~~~0x001D#16
    let qs := [0, 1, 2, 3].filter fun q => es.any fun el => el.pin.toNat / 4 == q
    let regs := qs.map fun q => driveAt s.regMap q
    let byte := fun (q : Nat) (old : Byte) => es.foldl (fun (b : Byte) (el : PinLevel) =>
      if el.pin.toNat / 4 = q then
        (b &&& ~~~(0b11#8 <<< (2 * (el.pin.toNat % 4)))) ||| (el.v.setWidth 8 <<< (2 * (el.pin.toNat % 4)))
      else b) old
    let writes := fun (ms : List (Nat × Byte)) => List.zipWith (fun q m => (driveAt s.regMap q, byte q m.2)) qs ms
    (∀ ms ks rest, ms.length = qs.length → ks.length = qs.length → RunWithin n ms → RunWithin n ks →
      s.script = okRun ms ++ okRun ks ++ rest →
      exec (.drvl es) s = .next (s.completed e (readRun s.addr regs ms ++ writeRun s.addr (writes ms) ks) rest
        ⟨true, 0x0000#16⟩)) ∧
    (∀ before r after ms rest, regs = before ++ r :: after → ms.length = before.length → RunWithin n ms →
      s.script = okRun ms ++ failAnswers n ++ rest →
      exec (.drvl es) s = .next (s.completed (e ||| 0x0004#16) (readRun s.addr before ms ++ readFailed s.addr r n) rest
        ⟨false, 0x0000#16⟩)) ∧
    (∀ ms before r b after ks rest, ms.length = qs.length → RunWithin n ms →
      writes ms = before ++ (r, b) :: after → ks.length = before.length → RunWithin n ks →
      s.script = okRun ms ++ okRun ks ++ failAnswers n ++ rest →
      exec (.drvl es) s = .next (s.completed (e ||| 0x0008#16)
        (readRun s.addr regs ms ++ writeRun s.addr before ks ++ writeFailed s.addr r b n) rest ⟨false, 0x0000#16⟩))

/-- 42_extended_bank R262: INTMASK writes its operand to the mask pair as it is, port-0 first, without a read. -/
def Obligations.InterruptMaskCommand : Prop :=
  ∀ (s : State) (m : Half), s.init = true → s.variant = .extendedCapable →
    PairWriteCommand (.intmask m) s s.regMap.intMask m 0x0018#16

/-- 42_extended_bank R265: INTSTAT reads the status pair and returns it. -/
def Obligations.InterruptStatusCommand : Prop :=
  ∀ s : State, s.init = true → s.variant = .extendedCapable →
    PairReadCommand .intstat s s.regMap.intStatus (fun v => v) 0x0014#16

/-- 42_extended_bank R270: OMODE writes the byte with od0 in bit 0 and od1 in bit 1, without a read. The bit layout
is the spec's 'from general knowledge' (R270; log 16). -/
def Obligations.OutputModeCommand : Prop :=
  ∀ (s : State) (od0 od1 : Bool), s.init = true → s.variant = .extendedCapable →
    let n := s.retries.toNat
    let e := s.err &&& ~~~0x0018#16
    let b := (if od0 then 0x01#8 else 0x00#8) ||| (if od1 then 0x02#8 else 0x00#8)
    (∀ k x rest, k ≤ n → s.script = okAnswers k x ++ rest →
      exec (.omode od0 od1) s = .next (s.completed e (writeOk s.addr s.regMap.outConf b k) rest
        ⟨true, 0x0000#16⟩)) ∧
    (∀ rest, s.script = failAnswers n ++ rest →
      exec (.omode od0 od1) s = .next (s.completed (e ||| 0x0008#16) (writeFailed s.addr s.regMap.outConf b n) rest
        ⟨false, 0x0000#16⟩))

/-! Callback table and dispatch. -/

/-- 43_interrupt_dispatch R290: CBREG stores the entry whatever the refresh read does, and overwrites the snapshot for
all pins when the read of both input registers succeeds. -/
def Obligations.RegisterCallbackOutcomes : Prop :=
  ∀ (s : State) (pin id : Byte) (edge : Edge) (h : pin.toNat < 16), s.init = true → id ≠ 0#8 →
    let n := s.retries.toNat
    let e := s.err &&& ~~~0x0005#16
    let c := { s with cbt := s.cbt.set pin.toNat ⟨true, id, edge⟩ h }
    let in0 := s.regMap.input.port0
    let in1 := s.regMap.input.port1
    (∀ j0 b0 j1 b1 rest, j0 ≤ n → j1 ≤ n → s.script = okAnswers j0 b0 ++ okAnswers j1 b1 ++ rest →
      exec (.cbreg pin id edge) s = .next ({ c with snap := b1 ++ b0 }.completed e
        (readOk s.addr in0 j0 b0 ++ readOk s.addr in1 j1 b1) rest ⟨true, 0x0000#16⟩)) ∧
    (∀ rest, s.script = failAnswers n ++ rest →
      exec (.cbreg pin id edge) s = .next (c.completed (e ||| 0x0004#16) (readFailed s.addr in0 n) rest
        ⟨false, 0x0000#16⟩)) ∧
    (∀ j0 b0 rest, j0 ≤ n → s.script = okAnswers j0 b0 ++ failAnswers n ++ rest →
      exec (.cbreg pin id edge) s = .next (c.completed (e ||| 0x0004#16)
        (readOk s.addr in0 j0 b0 ++ readFailed s.addr in1 n) rest ⟨false, 0x0000#16⟩))

/-- 43_interrupt_dispatch R292: CBUNREG empties the pin's entry and clears InvalidPin, with no call and no
initialisation; with its encoding. -/
def Obligations.UnregisterCallbackEmptiesTheEntry : Prop :=
  (∀ pin : Byte, encode (.cbunreg pin) = [0x41#8 ++ pin ++ 0x0000#16]) ∧
  ∀ (s : State) (pin : Byte) (h : pin.toNat < 16),
    exec (.cbunreg pin) s = .next ({ s with cbt := s.cbt.set pin.toNat ⟨false, 0#8, .rising⟩ h,
                                            err := s.err &&& ~~~0x0001#16 }.respond true 0x0000#16)

/-- 43_interrupt_dispatch R301, R302, R305, R306 on the software path (StandardOnly or Unknown): HANDLE reads the input
pair once, synthesises the status mask by comparison with the snapshot, emits the events of the dispatch, overwrites
the snapshot and returns the mask; a failed read leaves the snapshot and emits nothing. -/
def Obligations.HandleOnTheSoftwarePath : Prop :=
  ∀ s : State, s.init = true → s.variant ≠ .extendedCapable →
    let n := s.retries.toNat
    let e := s.err &&& ~~~0x0004#16
    let in0 := s.regMap.input.port0
    let in1 := s.regMap.input.port1
    (∀ j0 b0 j1 b1 rest, j0 ≤ n → j1 ≤ n → s.script = okAnswers j0 b0 ++ okAnswers j1 b1 ++ rest →
      let cur := b1 ++ b0
      let st := cur ^^^ s.snap
      exec .handle s = .next ({ s with snap := cur, events := s.events ++ dispatchEvents s st cur }.completed e
        (readOk s.addr in0 j0 b0 ++ readOk s.addr in1 j1 b1) rest ⟨true, st⟩)) ∧
    (∀ rest, s.script = failAnswers n ++ rest →
      exec .handle s = .next (s.completed (e ||| 0x0004#16) (readFailed s.addr in0 n) rest ⟨false, 0x0000#16⟩)) ∧
    (∀ j0 b0 rest, j0 ≤ n → s.script = okAnswers j0 b0 ++ failAnswers n ++ rest →
      exec .handle s = .next (s.completed (e ||| 0x0004#16) (readOk s.addr in0 j0 b0 ++ readFailed s.addr in1 n) rest
        ⟨false, 0x0000#16⟩))

/-- 43_interrupt_dispatch R301, R302, R305, R306 on ExtendedCapable: HANDLE reads the status pair once and then the
input pair; a failure of any of the four reads emits nothing and leaves the snapshot. -/
def Obligations.HandleOnTheExtendedPath : Prop :=
  ∀ s : State, s.init = true → s.variant = .extendedCapable →
    let n := s.retries.toNat
    let e := s.err &&& ~~~0x0004#16
    let in0 := s.regMap.input.port0
    let in1 := s.regMap.input.port1
    let st0 := s.regMap.intStatus.port0
    let st1 := s.regMap.intStatus.port1
    let status := fun (i0 : Nat) (c0 : Byte) (i1 : Nat) (c1 : Byte) =>
      readOk s.addr st0 i0 c0 ++ readOk s.addr st1 i1 c1
    (∀ i0 c0 i1 c1 j0 b0 j1 b1 rest, i0 ≤ n → i1 ≤ n → j0 ≤ n → j1 ≤ n →
      s.script = okAnswers i0 c0 ++ okAnswers i1 c1 ++ okAnswers j0 b0 ++ okAnswers j1 b1 ++ rest →
      let cur := b1 ++ b0
      let st := c1 ++ c0
      exec .handle s = .next ({ s with snap := cur, events := s.events ++ dispatchEvents s st cur }.completed e
        (status i0 c0 i1 c1 ++ readOk s.addr in0 j0 b0 ++ readOk s.addr in1 j1 b1) rest ⟨true, st⟩)) ∧
    (∀ rest, s.script = failAnswers n ++ rest →
      exec .handle s = .next (s.completed (e ||| 0x0004#16) (readFailed s.addr st0 n) rest ⟨false, 0x0000#16⟩)) ∧
    (∀ i0 c0 rest, i0 ≤ n → s.script = okAnswers i0 c0 ++ failAnswers n ++ rest →
      exec .handle s = .next (s.completed (e ||| 0x0004#16) (readOk s.addr st0 i0 c0 ++ readFailed s.addr st1 n) rest
        ⟨false, 0x0000#16⟩)) ∧
    (∀ i0 c0 i1 c1 rest, i0 ≤ n → i1 ≤ n →
      s.script = okAnswers i0 c0 ++ okAnswers i1 c1 ++ failAnswers n ++ rest →
      exec .handle s = .next (s.completed (e ||| 0x0004#16) (status i0 c0 i1 c1 ++ readFailed s.addr in0 n) rest
        ⟨false, 0x0000#16⟩)) ∧
    (∀ i0 c0 i1 c1 j0 b0 rest, i0 ≤ n → i1 ≤ n → j0 ≤ n →
      s.script = okAnswers i0 c0 ++ okAnswers i1 c1 ++ okAnswers j0 b0 ++ failAnswers n ++ rest →
      exec .handle s = .next (s.completed (e ||| 0x0004#16)
        (status i0 c0 i1 c1 ++ readOk s.addr in0 j0 b0 ++ readFailed s.addr in1 n) rest ⟨false, 0x0000#16⟩))

/-- 43_interrupt_dispatch R303: the events of a dispatch. The global event comes first, once, with the full status
mask, exactly when a global callback is set; a per-pin event stands for a flagged pin with a registered entry whose
edge matches the change from the snapshot to the current levels, and says the current level; per-pin events are in
ascending pin order, at most one a pin. R303 marks the order of the events as derived. -/
def Obligations.DispatchEventsFollowTheEdgeRules : Prop :=
  ∀ (s : State) (st cur : Half),
    ∃ perPin : List CbEvent,
      dispatchEvents s st cur = (if s.gcb = 0#8 then [] else [.globalCB s.gcb st]) ++ perPin ∧
      (∀ ev, ev ∈ perPin ↔ ∃ p : Fin 16,
        st.getLsbD p.val = true ∧ s.cbt[p].reg = true ∧
        (let rising := s.snap.getLsbD p.val = false ∧ cur.getLsbD p.val = true
         let falling := s.snap.getLsbD p.val = true ∧ cur.getLsbD p.val = false
         match s.cbt[p].edge with
         | .rising => rising
         | .falling => falling
         | .both => rising ∨ falling) ∧
        ev = .pinCB s.cbt[p].id (BitVec.ofNat 4 p.val) (cur.getLsbD p.val)) ∧
      (perPin.filterMap eventPin).Pairwise (fun a b => a.toNat < b.toNat) ∧
      (perPin.filterMap eventPin).length = perPin.length

/-- 43_interrupt_dispatch R304: whatever the oracle answers, HANDLE emits no per-pin event for a pin whose level is
the same in the snapshot before it and in the levels it read (the snapshot after it), flagged or not; on the
software path a bit of the returned status mask is set exactly when the pin's level changed. R304 marks the
software-path sentence as derived. -/
def Obligations.UnchangedPinHasNoEvent : Prop :=
  ∀ s t : State, exec .handle s = .next t →
    ∃ evs, t.events = s.events ++ evs ∧
      ∀ p : Fin 16,
        (s.snap.getLsbD p.val = t.snap.getLsbD p.val →
          ∀ ev ∈ evs, eventPin ev ≠ some (BitVec.ofNat 4 p.val)) ∧
        (∀ st, t.variant ≠ .extendedCapable → t.response = some ⟨true, st⟩ →
          (st.getLsbD p.val = true ↔ s.snap.getLsbD p.val ≠ t.snap.getLsbD p.val))

/-- 43_interrupt_dispatch R293: after CBUNREG p, a HANDLE emits no event for pin p, whatever the oracle answers. -/
def Obligations.UnregisteredPinStaysSilent : Prop :=
  ∀ (s t u : State) (pin : Byte), pin.toNat < 16 → exec (.cbunreg pin) s = .next t → exec .handle t = .next u →
    ∃ evs, u.events = s.events ++ evs ∧ ∀ ev ∈ evs, eventPin ev ≠ some (pin.setWidth 4)

/-- 43_interrupt_dispatch R290: after a CBREG whose refresh succeeded, a HANDLE on the software path that reads the
same levels emits no per-pin event and returns mask 0. Inferred from R290, R300 and R307. -/
def Obligations.RefreshedSnapshotGivesNoSpuriousEdge : Prop :=
  ∀ (s : State) (pin id b0 b1 : Byte) (edge : Edge) (j k j' k' : Nat) (rest : List Answer), s.init = true →
    s.variant ≠ .extendedCapable → pin.toNat < 16 → id ≠ 0#8 →
    let n := s.retries.toNat
    j ≤ n → k ≤ n → j' ≤ n → k' ≤ n →
    s.script = okAnswers j b0 ++ okAnswers k b1 ++ okAnswers j' b0 ++ okAnswers k' b1 ++ rest →
    ∃ t u, exec (.cbreg pin id edge) s = .next t ∧ exec .handle t = .next u ∧
      u.events = s.events ++ (if s.gcb = 0#8 then [] else [.globalCB s.gcb 0x0000#16]) ∧
      u.snap = b1 ++ b0 ∧ u.response = some ⟨true, 0x0000#16⟩

/-! Rules of the whole machine. -/

/-- 10_state R21, R27, R28, R30, R32, R33, R34, 43_interrupt_dispatch R291, 40_control R133, 70_reset R354: each field
of the engine is written only by its writers, whatever the oracle answers; RETRIES and SAVED_RETRIES by no command
that runs no detection, but for SETRETRY, and RETRIES by no other that completes. What a hung command leaves is the
model's reading (log 25). -/
def Obligations.EachFieldHasOnlyItsWriters : Prop :=
  ∀ (i : Instr) (s t : State), exec i s = .next t →
    ((∀ p e d, i ≠ .cbreg p e d) → (∀ p, i ≠ .cbunreg p) → t.cbt = s.cbt) ∧
    ((∀ c, i ≠ .cbglobal c) → t.gcb = s.gcb) ∧
    ((∀ p e d, i ≠ .cbreg p e d) → i ≠ .handle → t.snap = s.snap) ∧
    (i ≠ .handle → t.events = s.events) ∧
    ((∀ a, i ≠ .chaddr a) → t.addr = s.addr ∧ t.abits = s.abits) ∧
    ((∀ n, i ≠ .setretry n) → s.stuck = none → t.stuck = none → t.retries = s.retries) ∧
    ((∀ n, i ≠ .setretry n) → ¬ RunsDetection i s → t.retries = s.retries) ∧
    (¬ RunsDetection i s → t.savedRetries = s.savedRetries) ∧
    ((∃ n, i = .setretry n) ∨ i = .geterr ∨ i = .getvar ∨ i = .hasext ∨ i = .getaddr ∨ (∃ c, i = .cbglobal c) →
      t.err = s.err) ∧
    ((∀ a, i ≠ .chaddr a) → i ≠ .detect → s.init = true → t.variant = s.variant) ∧
    ((∀ a, i ≠ .chaddr a) → s.init = true → t.init = true) ∧
    (lazyCommand i = false → (∀ a, i ≠ .chaddr a) → i ≠ .detect →
      t.variant = s.variant ∧ t.init = s.init ∧ t.history = s.history ∧ t.stuck = s.stuck) ∧
    t.forced = s.forced ∧ t.hasPinHook = s.hasPinHook ∧ t.regMap = s.regMap ∧ t.probeStd = s.probeStd ∧
    t.probeExt = s.probeExt ∧ t.port = s.port

/-- 10_state R22, 20_memory R51, R74, R77: every command only appends to the transport history; every data call it
makes, the one that never returns included (log 11), goes to ADDR and names a register of the map or a probe register.
R77 marks the sentence as derived. -/
def Obligations.TransportCallsStayInTheRegisterMap : Prop :=
  ∀ (i : Instr) (s t : State), exec i s = .next t →
    ∃ cs, Issued s t cs ∧ ∀ c ∈ cs,
      (∀ d, callDev c = some d → d = t.addr) ∧
      (∀ r, callReg c = some r →
        r ∈ standardBank s.regMap ∨ r ∈ extendedBank s.regMap ∨ r = s.probeStd ∨ r = s.probeExt)

/-- 20_memory R58: with the default register map and probes, the calls of a command, the one that never returns
included (log 11), are those of its initialisation and then those of its body. Of the first, at most one is to an
extended-bank register: the read of the extended probe register, by a command that runs a detection. A body calls an
extended-bank register only when VARIANT = ExtendedCapable: as it stood, as it was forced, or after all three probe
reads. R58 marks the sentence as derived; the addresses are the default map (log 7). -/
def Obligations.ExtendedBankReachedOnlyWhenCapable : Prop :=
  ∀ (i : Instr) (s t : State), s.regMap = defaultRegMap → s.probeStd = 0x00#8 → s.probeExt = 0x40#8 →
    exec i s = .next t →
    let extended := fun (c : BusCall) => ∃ r, callReg c = some r ∧ r ∈ extendedBank defaultRegMap
    let reads := [BusCall.read t.addr 0x00#8, .read t.addr 0x40#8, .read t.addr 0x00#8]
    ∃ hooks probes body, Issued s t (hooks ++ probes ++ body) ∧
      (∀ c ∈ hooks, callReg c = none) ∧
      probes <+: reads ∧
      (probes ≠ [] → RunsDetection i s) ∧
      ∀ c ∈ body, extended c →
        t.variant = .extendedCapable ∧
        (RunsDetection i s → probes = reads) ∧
        (¬ RunsDetection i s → s.variant = .extendedCapable ∨ (s.init = false ∧ s.forced = .extendedCapable))

/-- 20_memory R59: with the default register map, the read-only registers (IN and ISTAT) are never written, by a call
that never returns neither (log 11). R59 marks the sentence as derived; the addresses are the default map (log 7). -/
def Obligations.ReadOnlyRegistersAreNeverWritten : Prop :=
  ∀ (i : Instr) (s t : State), s.regMap = defaultRegMap → exec i s = .next t →
    ∃ cs, Issued s t cs ∧ ∀ c ∈ cs, ∀ r, writtenReg c = some r → r ∉ [0x00#8, 0x01#8, 0x4C#8, 0x4D#8]

/-- 10_state R26, 60_exceptions R320: a command raises InvalidPin only for a pin operand >= 16, UnsupportedFeature only
for a gated command whose gate fails, InvalidAddress only for CHADDR outside 0x20..0x27, the transport flags only with a
failed call of their direction in its history, and InvalidMask and the reserved bits never. -/
def Obligations.FlagsAreRaisedOnlyByTheirCauses : Prop :=
  ∀ (i : Instr) (s t : State), exec i s = .next t →
    let newly := fun (k : Nat) => s.err.getLsbD k = false ∧ t.err.getLsbD k = true
    (newly 0 → ∃ p ∈ namedPins i, 16 ≤ p.toNat) ∧
    (∀ k, (k = 1 ∨ 6 ≤ k) → ¬ newly k) ∧
    (newly 2 → ∃ evs, t.history = s.history ++ evs ∧ ∃ e ∈ evs, ∃ d r, e = readMiss d r) ∧
    (newly 3 → ∃ evs, t.history = s.history ++ evs ∧ ∃ e ∈ evs, ∃ d r b, e = writeMiss d r b) ∧
    (newly 4 → extendedCommand i = true ∧ t.variant ≠ .extendedCapable) ∧
    (newly 5 → ∃ a, i = .chaddr a ∧ (a.toNat < 0x20 ∨ 0x27 < a.toNat))

/-- 10_state R21 ("readable by"), R30, R33: the snapshot, the callback table and the global handle reach no command but
HANDLE: any other command that does not write them does the same with any other values of the three. -/
def Obligations.DispatchStateReachesOnlyHandle : Prop :=
  ∀ (i : Instr) (s t : State) (snap : Half) (cbt : Vector CbEntry 16) (gcb : Byte),
    i ≠ .handle → (∀ p e d, i ≠ .cbreg p e d) → (∀ p, i ≠ .cbunreg p) → (∀ c, i ≠ .cbglobal c) →
    exec i s = .next t →
    exec i { s with snap := snap, cbt := cbt, gcb := gcb } =
      .next { t with snap := snap, cbt := cbt, gcb := gcb }

/-- 20_memory R50, R51, R52, R54, 70_reset R365: a transport call takes the next answer. A failure and a success are
recorded as the call's event, with the byte for a read alone; an answer that never comes hangs the call, which is kept
and not recorded. The script is the model's form of the oracle (log 1), and how a hang is kept is its choice
(log 10, log 11). -/
def Obligations.CallTakesTheNextAnswer : Prop :=
  ∀ (c : BusCall) (s : State) (rest : List Answer),
    (s.script = .fail :: rest →
      busCall c s = .ok none { s with script := rest, history := s.history ++ [⟨c, false, none⟩] }) ∧
    (∀ b, s.script = .ok b :: rest →
      busCall c s = .ok (some b)
        { s with script := rest
                 history := s.history ++ [⟨c, true, match c with
                   | .read _ _ => some b
                   | .write _ _ _ => none
                   | .hookInit => none
                   | .hookPins _ _ _ => none⟩] }) ∧
    (s.script = .never :: rest → busCall c s = .error () { s with script := rest, stuck := some c })
end

