-- ==== Sys2Proof/Laws/Encoding.lean ====
section
/-! SUPPORT. The fields of an encoded word, one lemma a field of each format (30_encoding R102). -/

namespace Sys2Proof.Laws

theorem opcodeOf_N (op : Byte) (imm : Half) : opcodeOf (wordN op imm) = op := by
  simp [opcodeOf, wordN]; ext k hk; simp; grind

theorem wordN_res (op : Byte) (imm : Half) : (wordN op imm).extractLsb' 16 8 = 0#8 := by
  simp [wordN]; ext k hk; simp; grind

theorem wordN_imm (op : Byte) (imm : Half) : (wordN op imm).extractLsb' 0 16 = imm := by
  simp [wordN]; ext k hk; simp; grind

theorem wordN_lo (op : Byte) (n : Byte) : (wordN op (0#8 ++ n)).extractLsb' 0 8 = n := by
  simp [wordN]; ext k hk; simp; grind

theorem wordN_hi (op : Byte) (n : Byte) : (wordN op (0#8 ++ n)).extractLsb' 8 8 = 0#8 := by
  simp [wordN]; ext k hk; simp; grind

theorem opcodeOf_P (op pin : Byte) (v : BitVec 2) : opcodeOf (wordP op pin v) = op := by
  simp [opcodeOf, wordP]; ext k hk; simp; grind

theorem wordP_res (op pin : Byte) (v : BitVec 2) : (wordP op pin v).extractLsb' 2 14 = 0#14 := by
  simp [wordP]; ext k hk; simp; grind

theorem wordP_pin (op pin : Byte) (v : BitVec 2) : (wordP op pin v).extractLsb' 16 8 = pin := by
  simp [wordP]; ext k hk; simp; grind

theorem wordP_v (op pin : Byte) (v : BitVec 2) : (wordP op pin v).extractLsb' 0 2 = v := by
  simp [wordP]; ext k hk; simp; grind

theorem wordP_0 (op pin : Byte) (v : Bool) : (wordP op pin (bit2 v))[0] = v := by
  cases v <;> simp [wordP, bit2] <;> grind

theorem wordP_1 (op pin : Byte) (v : Bool) : (wordP op pin (bit2 v))[1] = false := by
  cases v <;> simp [wordP, bit2] <;> grind

theorem opcodeOf_M (op : Byte) (v : Bool) (m : Half) : opcodeOf (wordM op v m) = op := by
  simp [opcodeOf, wordM]; ext k hk; simp; grind

theorem wordM_res (op : Byte) (v : Bool) (m : Half) : (wordM op v m).extractLsb' 17 7 = 0#7 := by
  simp [wordM]; ext k hk; simp; grind

theorem wordM_m (op : Byte) (v : Bool) (m : Half) : (wordM op v m).extractLsb' 0 16 = m := by
  simp [wordM]; ext k hk; simp; grind

theorem wordM_v (op : Byte) (v : Bool) (m : Half) : (wordM op v m)[16] = v := by
  cases v <;> simp [wordM] <;> grind

theorem opcodeOf_C (op pin id : Byte) (v : BitVec 2) : opcodeOf (wordC op pin id v) = op := by
  simp [opcodeOf, wordC]; ext k hk; simp; grind

theorem wordC_res (op pin id : Byte) (v : BitVec 2) : (wordC op pin id v).extractLsb' 2 6 = 0#6 := by
  simp [wordC]; ext k hk; simp; grind

theorem wordC_pin (op pin id : Byte) (v : BitVec 2) : (wordC op pin id v).extractLsb' 16 8 = pin := by
  simp [wordC]; ext k hk; simp; grind

theorem wordC_id (op pin id : Byte) (v : BitVec 2) : (wordC op pin id v).extractLsb' 8 8 = id := by
  simp [wordC]; ext k hk; simp; grind

theorem wordC_v (op pin id : Byte) (v : BitVec 2) : (wordC op pin id v).extractLsb' 0 2 = v := by
  simp [wordC]; ext k hk; simp; grind

theorem opcodeOf_L (op : Byte) (k : Nat) : opcodeOf (wordL op k) = op := by
  simp [opcodeOf, wordL]; ext k hk; simp; grind

theorem wordL_res (op : Byte) (k : Nat) : (wordL op k).extractLsb' 8 16 = 0#16 := by
  simp [wordL]; ext k hk; simp; grind

theorem wordL_k (op : Byte) (k : Nat) : (wordL op k).extractLsb' 0 8 = BitVec.ofNat 8 k := by
  simp only [wordL]; ext j hj; simp; grind

theorem countOf_L (op : Byte) (k : Nat) (h : k ≤ 255) : countOf (wordL op k) = k := by
  rw [countOf, wordL_k]
  simp
  omega

theorem elem_res (pin : Byte) (v : BitVec 2) : elemReservedOk (wordE pin v) = true := by
  simp [elemReservedOk, wordE]
  constructor
  · ext k hk; simp; grind
  · ext k hk; simp; grind

theorem wordE_pin (pin : Byte) (v : BitVec 2) : (wordE pin v).extractLsb' 8 8 = pin := by
  simp [wordE]; ext k hk; simp; grind

theorem wordE_v (pin : Byte) (v : BitVec 2) : (wordE pin v).extractLsb' 0 2 = v := by
  simp [wordE]; ext k hk; simp; grind

theorem wordE_0 (pin : Byte) (v : Bool) : (wordE pin (bit2 v))[0] = v := by
  cases v <;> simp [wordE, bit2] <;> grind

theorem wordE_1 (pin : Byte) (v : Bool) : (wordE pin (bit2 v))[1] = false := by
  cases v <;> simp [wordE, bit2] <;> grind

/-- An element list decodes back from the words of its elements. -/
theorem elems_ok {α : Type} (elem : Word → Except DecodeError α) (f : α → Word) (h : ∀ a, elem (f a) = .ok a)
    (as : List α) (rest : List Word) : decodeElems elem as.length (as.map f ++ rest) = .ok (as, rest) := by
  induction as with
  | nil => rfl
  | cons a as ih => simp [decodeElems, h, ih]

/-- A field that is zero has zero bits. -/
theorem bit_of_zero_field {n lo : Nat} {w : Word} (h : w.extractLsb' lo n = 0#n) (k : Nat) (h1 : lo ≤ k) (h2 : k < lo + n) : w.getLsbD k = false := by
  have := congrArg (fun v => v.getLsbD (k - lo)) h
  simp at this
  have h3 := this (by omega)
  rwa [Nat.add_sub_cancel' h1] at h3

end Sys2Proof.Laws
end

