-- ==== Sys2Proof/Laws/Flags.lean ====
section
/-! SUPPORT. The algebra of the sticky flags: what raising and clearing do to each other and to the other bits. -/

namespace Sys2Proof.Laws

open Sys2Proof.Machine

theorem cleared_after_mask (e m : Half) (f : Flag) (h : flagMask f &&& m = flagMask f) :
    cleared (e &&& ~~~m) f = e &&& ~~~m := by
  unfold cleared
  ext k hk
  have := congrArg (fun v => v.getLsbD k) h
  simp at this ⊢
  grind

theorem cleared_cleared (e : Half) (f : Flag) : cleared (cleared e f) f = cleared e f := by
  simp [cleared, BitVec.and_assoc]

theorem raised_raised (e : Half) (f : Flag) : raised (raised e f) f = raised e f := by
  simp [raised, BitVec.or_assoc]

theorem raised_cleared (e : Half) (f : Flag) : raised (cleared e f) f = raised e f := by
  unfold raised cleared; ext k hk; simp; grind

theorem cleared_raised (e : Half) (f : Flag) : cleared (raised e f) f = cleared e f := by
  unfold raised cleared; ext k hk; simp; grind

theorem raised_outside (e m : Half) (f : Flag) (h : flagMask f &&& m = flagMask f) : raised e f &&& ~~~m = e &&& ~~~m := by
  unfold raised
  ext k hk
  have := congrArg (fun v => v.getLsbD k) h
  simp at this ⊢
  grind

theorem cleared_outside (e m : Half) (f : Flag) (h : flagMask f &&& m = flagMask f) : cleared e f &&& ~~~m = e &&& ~~~m := by
  unfold cleared
  ext k hk
  have := congrArg (fun v => v.getLsbD k) h
  simp at this ⊢
  grind

/-- A bit outside a mask is the same in two words that agree outside it. -/
theorem bit_of_outside {e f m : Half} (he : e &&& ~~~m = f &&& ~~~m) {k : Nat} (hk : m.getLsbD k = false) :
    e.getLsbD k = f.getLsbD k := by
  have := congrArg (fun v => v.getLsbD k) he
  by_cases h : k < 16
  · simp only [BitVec.getLsbD_and, BitVec.getLsbD_not, hk, h, decide_true, Bool.not_false, Bool.and_true] at this
    exact this
  · rw [BitVec.getLsbD_of_ge _ _ (by omega), BitVec.getLsbD_of_ge _ _ (by omega)]

end Sys2Proof.Laws
end

