-- ==== Sys2Proof/Laws/State.lean ====
section
/-! SUPPORT. One lemma per field per named update of the state, so that no later proof unfolds a record update. -/

namespace Sys2Proof.Laws

open Sys2Proof.Machine

section raiseFlag

variable (s : State) (f : Flag)

@[simp] theorem raiseFlag_addr : (s.raiseFlag f).addr = s.addr := rfl
@[simp] theorem raiseFlag_abits : (s.raiseFlag f).abits = s.abits := rfl
@[simp] theorem raiseFlag_retries : (s.raiseFlag f).retries = s.retries := rfl
@[simp] theorem raiseFlag_err : (s.raiseFlag f).err = raised s.err f := rfl
@[simp] theorem raiseFlag_variant : (s.raiseFlag f).variant = s.variant := rfl
@[simp] theorem raiseFlag_forced : (s.raiseFlag f).forced = s.forced := rfl
@[simp] theorem raiseFlag_init : (s.raiseFlag f).init = s.init := rfl
@[simp] theorem raiseFlag_snap : (s.raiseFlag f).snap = s.snap := rfl
@[simp] theorem raiseFlag_cbt : (s.raiseFlag f).cbt = s.cbt := rfl
@[simp] theorem raiseFlag_gcb : (s.raiseFlag f).gcb = s.gcb := rfl
@[simp] theorem raiseFlag_savedRetries : (s.raiseFlag f).savedRetries = s.savedRetries := rfl
@[simp] theorem raiseFlag_hasPinHook : (s.raiseFlag f).hasPinHook = s.hasPinHook := rfl
@[simp] theorem raiseFlag_regMap : (s.raiseFlag f).regMap = s.regMap := rfl
@[simp] theorem raiseFlag_probeStd : (s.raiseFlag f).probeStd = s.probeStd := rfl
@[simp] theorem raiseFlag_probeExt : (s.raiseFlag f).probeExt = s.probeExt := rfl
@[simp] theorem raiseFlag_port : (s.raiseFlag f).port = s.port := rfl
@[simp] theorem raiseFlag_response : (s.raiseFlag f).response = s.response := rfl
@[simp] theorem raiseFlag_history : (s.raiseFlag f).history = s.history := rfl
@[simp] theorem raiseFlag_events : (s.raiseFlag f).events = s.events := rfl
@[simp] theorem raiseFlag_script : (s.raiseFlag f).script = s.script := rfl
@[simp] theorem raiseFlag_calls : (s.raiseFlag f).calls = s.calls := rfl
@[simp] theorem raiseFlag_stuck : (s.raiseFlag f).stuck = s.stuck := rfl

end raiseFlag

section clearFlag

variable (s : State) (f : Flag)

@[simp] theorem clearFlag_addr : (s.clearFlag f).addr = s.addr := rfl
@[simp] theorem clearFlag_abits : (s.clearFlag f).abits = s.abits := rfl
@[simp] theorem clearFlag_retries : (s.clearFlag f).retries = s.retries := rfl
@[simp] theorem clearFlag_err : (s.clearFlag f).err = cleared s.err f := rfl
@[simp] theorem clearFlag_variant : (s.clearFlag f).variant = s.variant := rfl
@[simp] theorem clearFlag_forced : (s.clearFlag f).forced = s.forced := rfl
@[simp] theorem clearFlag_init : (s.clearFlag f).init = s.init := rfl
@[simp] theorem clearFlag_snap : (s.clearFlag f).snap = s.snap := rfl
@[simp] theorem clearFlag_cbt : (s.clearFlag f).cbt = s.cbt := rfl
@[simp] theorem clearFlag_gcb : (s.clearFlag f).gcb = s.gcb := rfl
@[simp] theorem clearFlag_savedRetries : (s.clearFlag f).savedRetries = s.savedRetries := rfl
@[simp] theorem clearFlag_hasPinHook : (s.clearFlag f).hasPinHook = s.hasPinHook := rfl
@[simp] theorem clearFlag_regMap : (s.clearFlag f).regMap = s.regMap := rfl
@[simp] theorem clearFlag_probeStd : (s.clearFlag f).probeStd = s.probeStd := rfl
@[simp] theorem clearFlag_probeExt : (s.clearFlag f).probeExt = s.probeExt := rfl
@[simp] theorem clearFlag_port : (s.clearFlag f).port = s.port := rfl
@[simp] theorem clearFlag_response : (s.clearFlag f).response = s.response := rfl
@[simp] theorem clearFlag_history : (s.clearFlag f).history = s.history := rfl
@[simp] theorem clearFlag_events : (s.clearFlag f).events = s.events := rfl
@[simp] theorem clearFlag_script : (s.clearFlag f).script = s.script := rfl
@[simp] theorem clearFlag_calls : (s.clearFlag f).calls = s.calls := rfl
@[simp] theorem clearFlag_stuck : (s.clearFlag f).stuck = s.stuck := rfl

end clearFlag

section clearFlags

variable (s : State) (fs : List Flag)

@[simp] theorem clearFlags_addr : (s.clearFlags fs).addr = s.addr := rfl
@[simp] theorem clearFlags_abits : (s.clearFlags fs).abits = s.abits := rfl
@[simp] theorem clearFlags_retries : (s.clearFlags fs).retries = s.retries := rfl
@[simp] theorem clearFlags_err : (s.clearFlags fs).err = clearedAll s.err fs := rfl
@[simp] theorem clearFlags_variant : (s.clearFlags fs).variant = s.variant := rfl
@[simp] theorem clearFlags_forced : (s.clearFlags fs).forced = s.forced := rfl
@[simp] theorem clearFlags_init : (s.clearFlags fs).init = s.init := rfl
@[simp] theorem clearFlags_snap : (s.clearFlags fs).snap = s.snap := rfl
@[simp] theorem clearFlags_cbt : (s.clearFlags fs).cbt = s.cbt := rfl
@[simp] theorem clearFlags_gcb : (s.clearFlags fs).gcb = s.gcb := rfl
@[simp] theorem clearFlags_savedRetries : (s.clearFlags fs).savedRetries = s.savedRetries := rfl
@[simp] theorem clearFlags_hasPinHook : (s.clearFlags fs).hasPinHook = s.hasPinHook := rfl
@[simp] theorem clearFlags_regMap : (s.clearFlags fs).regMap = s.regMap := rfl
@[simp] theorem clearFlags_probeStd : (s.clearFlags fs).probeStd = s.probeStd := rfl
@[simp] theorem clearFlags_probeExt : (s.clearFlags fs).probeExt = s.probeExt := rfl
@[simp] theorem clearFlags_port : (s.clearFlags fs).port = s.port := rfl
@[simp] theorem clearFlags_response : (s.clearFlags fs).response = s.response := rfl
@[simp] theorem clearFlags_history : (s.clearFlags fs).history = s.history := rfl
@[simp] theorem clearFlags_events : (s.clearFlags fs).events = s.events := rfl
@[simp] theorem clearFlags_script : (s.clearFlags fs).script = s.script := rfl
@[simp] theorem clearFlags_calls : (s.clearFlags fs).calls = s.calls := rfl
@[simp] theorem clearFlags_stuck : (s.clearFlags fs).stuck = s.stuck := rfl

end clearFlags

section record

variable (s : State) (c : BusCall) (ok : Bool) (d : Option Byte)

@[simp] theorem record_addr : (s.record c ok d).addr = s.addr := rfl
@[simp] theorem record_abits : (s.record c ok d).abits = s.abits := rfl
@[simp] theorem record_retries : (s.record c ok d).retries = s.retries := rfl
@[simp] theorem record_err : (s.record c ok d).err = s.err := rfl
@[simp] theorem record_variant : (s.record c ok d).variant = s.variant := rfl
@[simp] theorem record_forced : (s.record c ok d).forced = s.forced := rfl
@[simp] theorem record_init : (s.record c ok d).init = s.init := rfl
@[simp] theorem record_snap : (s.record c ok d).snap = s.snap := rfl
@[simp] theorem record_cbt : (s.record c ok d).cbt = s.cbt := rfl
@[simp] theorem record_gcb : (s.record c ok d).gcb = s.gcb := rfl
@[simp] theorem record_savedRetries : (s.record c ok d).savedRetries = s.savedRetries := rfl
@[simp] theorem record_hasPinHook : (s.record c ok d).hasPinHook = s.hasPinHook := rfl
@[simp] theorem record_regMap : (s.record c ok d).regMap = s.regMap := rfl
@[simp] theorem record_probeStd : (s.record c ok d).probeStd = s.probeStd := rfl
@[simp] theorem record_probeExt : (s.record c ok d).probeExt = s.probeExt := rfl
@[simp] theorem record_port : (s.record c ok d).port = s.port := rfl
@[simp] theorem record_response : (s.record c ok d).response = s.response := rfl
@[simp] theorem record_history : (s.record c ok d).history = s.history ++ [⟨c, ok, d⟩] := rfl
@[simp] theorem record_events : (s.record c ok d).events = s.events := rfl
@[simp] theorem record_script : (s.record c ok d).script = s.script := rfl
@[simp] theorem record_calls : (s.record c ok d).calls = s.calls := rfl
@[simp] theorem record_stuck : (s.record c ok d).stuck = s.stuck := rfl

end record

section forceSingleShot

variable (s : State) 

@[simp] theorem forceSingleShot_addr : s.forceSingleShot.addr = s.addr := rfl
@[simp] theorem forceSingleShot_abits : s.forceSingleShot.abits = s.abits := rfl
@[simp] theorem forceSingleShot_retries : s.forceSingleShot.retries = 0#8 := rfl
@[simp] theorem forceSingleShot_err : s.forceSingleShot.err = s.err := rfl
@[simp] theorem forceSingleShot_variant : s.forceSingleShot.variant = s.variant := rfl
@[simp] theorem forceSingleShot_forced : s.forceSingleShot.forced = s.forced := rfl
@[simp] theorem forceSingleShot_init : s.forceSingleShot.init = s.init := rfl
@[simp] theorem forceSingleShot_snap : s.forceSingleShot.snap = s.snap := rfl
@[simp] theorem forceSingleShot_cbt : s.forceSingleShot.cbt = s.cbt := rfl
@[simp] theorem forceSingleShot_gcb : s.forceSingleShot.gcb = s.gcb := rfl
@[simp] theorem forceSingleShot_savedRetries : s.forceSingleShot.savedRetries = s.retries := rfl
@[simp] theorem forceSingleShot_hasPinHook : s.forceSingleShot.hasPinHook = s.hasPinHook := rfl
@[simp] theorem forceSingleShot_regMap : s.forceSingleShot.regMap = s.regMap := rfl
@[simp] theorem forceSingleShot_probeStd : s.forceSingleShot.probeStd = s.probeStd := rfl
@[simp] theorem forceSingleShot_probeExt : s.forceSingleShot.probeExt = s.probeExt := rfl
@[simp] theorem forceSingleShot_port : s.forceSingleShot.port = s.port := rfl
@[simp] theorem forceSingleShot_response : s.forceSingleShot.response = s.response := rfl
@[simp] theorem forceSingleShot_history : s.forceSingleShot.history = s.history := rfl
@[simp] theorem forceSingleShot_events : s.forceSingleShot.events = s.events := rfl
@[simp] theorem forceSingleShot_script : s.forceSingleShot.script = s.script := rfl
@[simp] theorem forceSingleShot_calls : s.forceSingleShot.calls = s.calls := rfl
@[simp] theorem forceSingleShot_stuck : s.forceSingleShot.stuck = s.stuck := rfl

end forceSingleShot

section restoreRetries

variable (s : State) 

@[simp] theorem restoreRetries_addr : s.restoreRetries.addr = s.addr := rfl
@[simp] theorem restoreRetries_abits : s.restoreRetries.abits = s.abits := rfl
@[simp] theorem restoreRetries_retries : s.restoreRetries.retries = s.savedRetries := rfl
@[simp] theorem restoreRetries_err : s.restoreRetries.err = s.err := rfl
@[simp] theorem restoreRetries_variant : s.restoreRetries.variant = s.variant := rfl
@[simp] theorem restoreRetries_forced : s.restoreRetries.forced = s.forced := rfl
@[simp] theorem restoreRetries_init : s.restoreRetries.init = s.init := rfl
@[simp] theorem restoreRetries_snap : s.restoreRetries.snap = s.snap := rfl
@[simp] theorem restoreRetries_cbt : s.restoreRetries.cbt = s.cbt := rfl
@[simp] theorem restoreRetries_gcb : s.restoreRetries.gcb = s.gcb := rfl
@[simp] theorem restoreRetries_savedRetries : s.restoreRetries.savedRetries = s.savedRetries := rfl
@[simp] theorem restoreRetries_hasPinHook : s.restoreRetries.hasPinHook = s.hasPinHook := rfl
@[simp] theorem restoreRetries_regMap : s.restoreRetries.regMap = s.regMap := rfl
@[simp] theorem restoreRetries_probeStd : s.restoreRetries.probeStd = s.probeStd := rfl
@[simp] theorem restoreRetries_probeExt : s.restoreRetries.probeExt = s.probeExt := rfl
@[simp] theorem restoreRetries_port : s.restoreRetries.port = s.port := rfl
@[simp] theorem restoreRetries_response : s.restoreRetries.response = s.response := rfl
@[simp] theorem restoreRetries_history : s.restoreRetries.history = s.history := rfl
@[simp] theorem restoreRetries_events : s.restoreRetries.events = s.events := rfl
@[simp] theorem restoreRetries_script : s.restoreRetries.script = s.script := rfl
@[simp] theorem restoreRetries_calls : s.restoreRetries.calls = s.calls := rfl
@[simp] theorem restoreRetries_stuck : s.restoreRetries.stuck = s.stuck := rfl

end restoreRetries

section changeAddress

variable (s : State) (a : Byte)

@[simp] theorem changeAddress_addr : (s.changeAddress a).addr = a.setWidth 7 := rfl
@[simp] theorem changeAddress_abits : (s.changeAddress a).abits = a.setWidth 3 := rfl
@[simp] theorem changeAddress_retries : (s.changeAddress a).retries = s.retries := rfl
@[simp] theorem changeAddress_err : (s.changeAddress a).err = s.err := rfl
@[simp] theorem changeAddress_variant : (s.changeAddress a).variant = .unknown := rfl
@[simp] theorem changeAddress_forced : (s.changeAddress a).forced = s.forced := rfl
@[simp] theorem changeAddress_init : (s.changeAddress a).init = false := rfl
@[simp] theorem changeAddress_snap : (s.changeAddress a).snap = s.snap := rfl
@[simp] theorem changeAddress_cbt : (s.changeAddress a).cbt = s.cbt := rfl
@[simp] theorem changeAddress_gcb : (s.changeAddress a).gcb = s.gcb := rfl
@[simp] theorem changeAddress_savedRetries : (s.changeAddress a).savedRetries = s.savedRetries := rfl
@[simp] theorem changeAddress_hasPinHook : (s.changeAddress a).hasPinHook = s.hasPinHook := rfl
@[simp] theorem changeAddress_regMap : (s.changeAddress a).regMap = s.regMap := rfl
@[simp] theorem changeAddress_probeStd : (s.changeAddress a).probeStd = s.probeStd := rfl
@[simp] theorem changeAddress_probeExt : (s.changeAddress a).probeExt = s.probeExt := rfl
@[simp] theorem changeAddress_port : (s.changeAddress a).port = s.port := rfl
@[simp] theorem changeAddress_response : (s.changeAddress a).response = s.response := rfl
@[simp] theorem changeAddress_history : (s.changeAddress a).history = s.history := rfl
@[simp] theorem changeAddress_events : (s.changeAddress a).events = s.events := rfl
@[simp] theorem changeAddress_script : (s.changeAddress a).script = s.script := rfl
@[simp] theorem changeAddress_calls : (s.changeAddress a).calls = s.calls := rfl
@[simp] theorem changeAddress_stuck : (s.changeAddress a).stuck = s.stuck := rfl

end changeAddress

section setCallback

variable (s : State) (p : Byte) (e : CbEntry)

@[simp] theorem setCallback_addr : (s.setCallback p e).addr = s.addr := rfl
@[simp] theorem setCallback_abits : (s.setCallback p e).abits = s.abits := rfl
@[simp] theorem setCallback_retries : (s.setCallback p e).retries = s.retries := rfl
@[simp] theorem setCallback_err : (s.setCallback p e).err = s.err := rfl
@[simp] theorem setCallback_variant : (s.setCallback p e).variant = s.variant := rfl
@[simp] theorem setCallback_forced : (s.setCallback p e).forced = s.forced := rfl
@[simp] theorem setCallback_init : (s.setCallback p e).init = s.init := rfl
@[simp] theorem setCallback_snap : (s.setCallback p e).snap = s.snap := rfl
@[simp] theorem setCallback_cbt : (s.setCallback p e).cbt = s.cbt.setIfInBounds p.toNat e := rfl
@[simp] theorem setCallback_gcb : (s.setCallback p e).gcb = s.gcb := rfl
@[simp] theorem setCallback_savedRetries : (s.setCallback p e).savedRetries = s.savedRetries := rfl
@[simp] theorem setCallback_hasPinHook : (s.setCallback p e).hasPinHook = s.hasPinHook := rfl
@[simp] theorem setCallback_regMap : (s.setCallback p e).regMap = s.regMap := rfl
@[simp] theorem setCallback_probeStd : (s.setCallback p e).probeStd = s.probeStd := rfl
@[simp] theorem setCallback_probeExt : (s.setCallback p e).probeExt = s.probeExt := rfl
@[simp] theorem setCallback_port : (s.setCallback p e).port = s.port := rfl
@[simp] theorem setCallback_response : (s.setCallback p e).response = s.response := rfl
@[simp] theorem setCallback_history : (s.setCallback p e).history = s.history := rfl
@[simp] theorem setCallback_events : (s.setCallback p e).events = s.events := rfl
@[simp] theorem setCallback_script : (s.setCallback p e).script = s.script := rfl
@[simp] theorem setCallback_calls : (s.setCallback p e).calls = s.calls := rfl
@[simp] theorem setCallback_stuck : (s.setCallback p e).stuck = s.stuck := rfl

end setCallback

section setSnap

variable (s : State) (v : Half)

@[simp] theorem setSnap_addr : (s.setSnap v).addr = s.addr := rfl
@[simp] theorem setSnap_abits : (s.setSnap v).abits = s.abits := rfl
@[simp] theorem setSnap_retries : (s.setSnap v).retries = s.retries := rfl
@[simp] theorem setSnap_err : (s.setSnap v).err = s.err := rfl
@[simp] theorem setSnap_variant : (s.setSnap v).variant = s.variant := rfl
@[simp] theorem setSnap_forced : (s.setSnap v).forced = s.forced := rfl
@[simp] theorem setSnap_init : (s.setSnap v).init = s.init := rfl
@[simp] theorem setSnap_snap : (s.setSnap v).snap = v := rfl
@[simp] theorem setSnap_cbt : (s.setSnap v).cbt = s.cbt := rfl
@[simp] theorem setSnap_gcb : (s.setSnap v).gcb = s.gcb := rfl
@[simp] theorem setSnap_savedRetries : (s.setSnap v).savedRetries = s.savedRetries := rfl
@[simp] theorem setSnap_hasPinHook : (s.setSnap v).hasPinHook = s.hasPinHook := rfl
@[simp] theorem setSnap_regMap : (s.setSnap v).regMap = s.regMap := rfl
@[simp] theorem setSnap_probeStd : (s.setSnap v).probeStd = s.probeStd := rfl
@[simp] theorem setSnap_probeExt : (s.setSnap v).probeExt = s.probeExt := rfl
@[simp] theorem setSnap_port : (s.setSnap v).port = s.port := rfl
@[simp] theorem setSnap_response : (s.setSnap v).response = s.response := rfl
@[simp] theorem setSnap_history : (s.setSnap v).history = s.history := rfl
@[simp] theorem setSnap_events : (s.setSnap v).events = s.events := rfl
@[simp] theorem setSnap_script : (s.setSnap v).script = s.script := rfl
@[simp] theorem setSnap_calls : (s.setSnap v).calls = s.calls := rfl
@[simp] theorem setSnap_stuck : (s.setSnap v).stuck = s.stuck := rfl

end setSnap

section dispatch

variable (s : State) (st cur : Half)

@[simp] theorem dispatch_addr : (s.dispatch st cur).addr = s.addr := rfl
@[simp] theorem dispatch_abits : (s.dispatch st cur).abits = s.abits := rfl
@[simp] theorem dispatch_retries : (s.dispatch st cur).retries = s.retries := rfl
@[simp] theorem dispatch_err : (s.dispatch st cur).err = s.err := rfl
@[simp] theorem dispatch_variant : (s.dispatch st cur).variant = s.variant := rfl
@[simp] theorem dispatch_forced : (s.dispatch st cur).forced = s.forced := rfl
@[simp] theorem dispatch_init : (s.dispatch st cur).init = s.init := rfl
@[simp] theorem dispatch_snap : (s.dispatch st cur).snap = cur := rfl
@[simp] theorem dispatch_cbt : (s.dispatch st cur).cbt = s.cbt := rfl
@[simp] theorem dispatch_gcb : (s.dispatch st cur).gcb = s.gcb := rfl
@[simp] theorem dispatch_savedRetries : (s.dispatch st cur).savedRetries = s.savedRetries := rfl
@[simp] theorem dispatch_hasPinHook : (s.dispatch st cur).hasPinHook = s.hasPinHook := rfl
@[simp] theorem dispatch_regMap : (s.dispatch st cur).regMap = s.regMap := rfl
@[simp] theorem dispatch_probeStd : (s.dispatch st cur).probeStd = s.probeStd := rfl
@[simp] theorem dispatch_probeExt : (s.dispatch st cur).probeExt = s.probeExt := rfl
@[simp] theorem dispatch_port : (s.dispatch st cur).port = s.port := rfl
@[simp] theorem dispatch_response : (s.dispatch st cur).response = s.response := rfl
@[simp] theorem dispatch_history : (s.dispatch st cur).history = s.history := rfl
@[simp] theorem dispatch_events : (s.dispatch st cur).events = s.events ++ dispatchEvents s st cur := rfl
@[simp] theorem dispatch_script : (s.dispatch st cur).script = s.script := rfl
@[simp] theorem dispatch_calls : (s.dispatch st cur).calls = s.calls := rfl
@[simp] theorem dispatch_stuck : (s.dispatch st cur).stuck = s.stuck := rfl

end dispatch

section takeCommand

variable (s : State) (ws : List Word)

@[simp] theorem takeCommand_addr : (s.takeCommand ws).addr = s.addr := rfl
@[simp] theorem takeCommand_abits : (s.takeCommand ws).abits = s.abits := rfl
@[simp] theorem takeCommand_retries : (s.takeCommand ws).retries = s.retries := rfl
@[simp] theorem takeCommand_err : (s.takeCommand ws).err = s.err := rfl
@[simp] theorem takeCommand_variant : (s.takeCommand ws).variant = s.variant := rfl
@[simp] theorem takeCommand_forced : (s.takeCommand ws).forced = s.forced := rfl
@[simp] theorem takeCommand_init : (s.takeCommand ws).init = s.init := rfl
@[simp] theorem takeCommand_snap : (s.takeCommand ws).snap = s.snap := rfl
@[simp] theorem takeCommand_cbt : (s.takeCommand ws).cbt = s.cbt := rfl
@[simp] theorem takeCommand_gcb : (s.takeCommand ws).gcb = s.gcb := rfl
@[simp] theorem takeCommand_savedRetries : (s.takeCommand ws).savedRetries = s.savedRetries := rfl
@[simp] theorem takeCommand_hasPinHook : (s.takeCommand ws).hasPinHook = s.hasPinHook := rfl
@[simp] theorem takeCommand_regMap : (s.takeCommand ws).regMap = s.regMap := rfl
@[simp] theorem takeCommand_probeStd : (s.takeCommand ws).probeStd = s.probeStd := rfl
@[simp] theorem takeCommand_probeExt : (s.takeCommand ws).probeExt = s.probeExt := rfl
@[simp] theorem takeCommand_port : (s.takeCommand ws).port = ws := rfl
@[simp] theorem takeCommand_response : (s.takeCommand ws).response = s.response := rfl
@[simp] theorem takeCommand_history : (s.takeCommand ws).history = s.history := rfl
@[simp] theorem takeCommand_events : (s.takeCommand ws).events = s.events := rfl
@[simp] theorem takeCommand_script : (s.takeCommand ws).script = s.script := rfl
@[simp] theorem takeCommand_calls : (s.takeCommand ws).calls = s.calls := rfl
@[simp] theorem takeCommand_stuck : (s.takeCommand ws).stuck = s.stuck := rfl

end takeCommand

section rejectIllegal

variable (s : State) (ws : List Word)

@[simp] theorem rejectIllegal_addr : (s.rejectIllegal ws).addr = s.addr := rfl
@[simp] theorem rejectIllegal_abits : (s.rejectIllegal ws).abits = s.abits := rfl
@[simp] theorem rejectIllegal_retries : (s.rejectIllegal ws).retries = s.retries := rfl
@[simp] theorem rejectIllegal_err : (s.rejectIllegal ws).err = s.err := rfl
@[simp] theorem rejectIllegal_variant : (s.rejectIllegal ws).variant = s.variant := rfl
@[simp] theorem rejectIllegal_forced : (s.rejectIllegal ws).forced = s.forced := rfl
@[simp] theorem rejectIllegal_init : (s.rejectIllegal ws).init = s.init := rfl
@[simp] theorem rejectIllegal_snap : (s.rejectIllegal ws).snap = s.snap := rfl
@[simp] theorem rejectIllegal_cbt : (s.rejectIllegal ws).cbt = s.cbt := rfl
@[simp] theorem rejectIllegal_gcb : (s.rejectIllegal ws).gcb = s.gcb := rfl
@[simp] theorem rejectIllegal_savedRetries : (s.rejectIllegal ws).savedRetries = s.savedRetries := rfl
@[simp] theorem rejectIllegal_hasPinHook : (s.rejectIllegal ws).hasPinHook = s.hasPinHook := rfl
@[simp] theorem rejectIllegal_regMap : (s.rejectIllegal ws).regMap = s.regMap := rfl
@[simp] theorem rejectIllegal_probeStd : (s.rejectIllegal ws).probeStd = s.probeStd := rfl
@[simp] theorem rejectIllegal_probeExt : (s.rejectIllegal ws).probeExt = s.probeExt := rfl
@[simp] theorem rejectIllegal_port : (s.rejectIllegal ws).port = ws := rfl
@[simp] theorem rejectIllegal_response : (s.rejectIllegal ws).response = some Response.failed := rfl
@[simp] theorem rejectIllegal_history : (s.rejectIllegal ws).history = s.history := rfl
@[simp] theorem rejectIllegal_events : (s.rejectIllegal ws).events = s.events := rfl
@[simp] theorem rejectIllegal_script : (s.rejectIllegal ws).script = s.script := rfl
@[simp] theorem rejectIllegal_calls : (s.rejectIllegal ws).calls = s.calls := rfl
@[simp] theorem rejectIllegal_stuck : (s.rejectIllegal ws).stuck = s.stuck := rfl

end rejectIllegal

end Sys2Proof.Laws
end

