-- ==== Sys2Proof/Laws/Ops.lean ====
section
/-! SUPPORT. What the shared operations can do: how an operation continues (`bind`), what the attempts of a
transaction do on a given script, and the frame of every operation that talks to the transport. -/

namespace Sys2Proof.Laws

open Sys2Proof.Machine

/-! Continuing an operation. -/

theorem bind_ok {α β : Type} {m : Eff α} {f : α → Eff β} {s t : State} {a : α} (h : m s = .ok a t) :
    (m >>= f) s = f a t := by
  show EStateM.bind m f s = _
  simp [EStateM.bind, h]

theorem bind_error {α β : Type} {m : Eff α} {f : α → Eff β} {s t : State} {e : Unit} (h : m s = .error e t) :
    (m >>= f) s = .error e t := by
  show EStateM.bind m f s = _
  simp [EStateM.bind, h]

@[simp] theorem pure_run {α : Type} (a : α) (s : State) : (pure a : Eff α) s = .ok a s := rfl

@[simp] theorem get_run (s : State) : (get : Eff State) s = .ok s s := rfl

@[simp] theorem modify_run (f : State → State) (s : State) : (modify f : Eff Unit) s = .ok () (f s) := rfl

@[simp] theorem raise_run (f : Flag) (s : State) : raise f s = .ok () (s.raiseFlag f) := rfl

@[simp] theorem clear_run (f : Flag) (s : State) : clear f s = .ok () (s.clearFlag f) := rfl

@[simp] theorem setVariant_run (v : Variant) (s : State) : setVariant v s = .ok () { s with variant := v } := rfl

@[simp] theorem failWith_run (f : Flag) (s : State) : failWith f s = .ok Response.failed (s.raiseFlag f) := rfl

theorem get_bind {β : Type} (f : State → Eff β) (s : State) : (get >>= f) s = f s s := rfl

theorem modify_bind {β : Type} (g : State → State) (f : Unit → Eff β) (s : State) :
    ((modify g : Eff Unit) >>= f) s = f () (g s) := rfl

/-! One call on a given script. -/

theorem busCall_ok {c : BusCall} {s : State} {b : Byte} {rest : List Answer} (h : s.script = .ok b :: rest) :
    busCall c s = .ok (some b)
      { s with script := rest, history := s.history ++ [⟨c, true, if c.isRead then some b else none⟩] } := by
  simp [busCall, takeAnswer, h, State.record]

theorem busCall_fail {c : BusCall} {s : State} {rest : List Answer} (h : s.script = .fail :: rest) :
    busCall c s = .ok none { s with script := rest, history := s.history ++ [⟨c, false, none⟩] } := by
  simp [busCall, takeAnswer, h, State.record]

theorem busCall_never {c : BusCall} {s : State} {rest : List Answer} (h : s.script = .never :: rest) :
    busCall c s = .error () { s with script := rest, stuck := some c } := by
  simp [busCall, takeAnswer, h]

/-! The attempts of one transaction on a given script (20_memory R60, R61). -/

theorem okAnswers_succ (j : Nat) (b : Byte) (rest : List Answer) :
    okAnswers (j + 1) b ++ rest = .fail :: (okAnswers j b ++ rest) := by
  simp [okAnswers, List.replicate_succ]

theorem okAnswers_zero (b : Byte) (rest : List Answer) : okAnswers 0 b ++ rest = .ok b :: rest := by
  simp [okAnswers]

theorem readAttempts_ok {reg : Byte} {b : Byte} {rest : List Answer} (j n : Nat) (s : State) (hj : j < n)
    (h : s.script = okAnswers j b ++ rest) :
    readAttempts reg n s =
      .ok (some b) { s with script := rest, history := s.history ++ readOk s.addr reg j b } := by
  induction j generalizing n s with
  | zero =>
    obtain ⟨n, rfl⟩ : ∃ m, n = m + 1 := ⟨n - 1, by omega⟩
    rw [okAnswers_zero] at h
    rw [readAttempts, bind_ok (show busRead reg s = _ from busCall_ok h)]
    simp [readOk, BusCall.isRead]
  | succ j ih =>
    obtain ⟨n, rfl⟩ : ∃ m, n = m + 1 := ⟨n - 1, by omega⟩
    rw [okAnswers_succ] at h
    rw [readAttempts, bind_ok (show busRead reg s = _ from busCall_fail h)]
    simp only
    rw [ih n _ (by omega) rfl]
    simp [readOk, readMiss, List.replicate_succ]

theorem readAttempts_fail {reg : Byte} {rest : List Answer} (n : Nat) (s : State)
    (h : s.script = List.replicate n .fail ++ rest) :
    readAttempts reg n s =
      .ok none { s with script := rest, history := s.history ++ List.replicate n (readMiss s.addr reg) } := by
  induction n generalizing s with
  | zero =>
    simp only [List.replicate_zero, List.nil_append] at h
    simp [readAttempts, ← h]
  | succ n ih =>
    rw [List.replicate_succ, List.cons_append] at h
    rw [readAttempts, bind_ok (show busRead reg s = _ from busCall_fail h)]
    simp only
    rw [ih _ rfl]
    simp [readMiss, List.replicate_succ]

theorem busWrite_ok {reg b x : Byte} {s : State} {rest : List Answer} (h : s.script = .ok x :: rest) :
    busWrite reg b s = .ok true
      { s with script := rest, history := s.history ++ [⟨.write s.addr reg b, true, none⟩] } := by
  simp [busWrite, busCall_ok h, BusCall.isRead]

theorem busWrite_fail {reg b : Byte} {s : State} {rest : List Answer} (h : s.script = .fail :: rest) :
    busWrite reg b s = .ok false
      { s with script := rest, history := s.history ++ [⟨.write s.addr reg b, false, none⟩] } := by
  simp [busWrite, busCall_fail h]

theorem writeAttempts_ok {reg b x : Byte} {rest : List Answer} (k n : Nat) (s : State) (hk : k < n)
    (h : s.script = okAnswers k x ++ rest) :
    writeAttempts reg b n s =
      .ok true { s with script := rest, history := s.history ++ writeOk s.addr reg b k } := by
  induction k generalizing n s with
  | zero =>
    obtain ⟨n, rfl⟩ : ∃ m, n = m + 1 := ⟨n - 1, by omega⟩
    rw [okAnswers_zero] at h
    rw [writeAttempts, bind_ok (busWrite_ok h)]
    simp [writeOk]
  | succ k ih =>
    obtain ⟨n, rfl⟩ : ∃ m, n = m + 1 := ⟨n - 1, by omega⟩
    rw [okAnswers_succ] at h
    rw [writeAttempts, bind_ok (busWrite_fail h)]
    simp only [Bool.false_eq_true, if_false]
    rw [ih n _ (by omega) rfl]
    simp [writeOk, writeMiss, List.replicate_succ]

theorem writeAttempts_fail {reg b : Byte} {rest : List Answer} (n : Nat) (s : State)
    (h : s.script = List.replicate n .fail ++ rest) :
    writeAttempts reg b n s =
      .ok false { s with script := rest, history := s.history ++ List.replicate n (writeMiss s.addr reg b) } := by
  induction n generalizing s with
  | zero =>
    simp only [List.replicate_zero, List.nil_append] at h
    simp [writeAttempts, ← h]
  | succ n ih =>
    rw [List.replicate_succ, List.cons_append] at h
    rw [writeAttempts, bind_ok (busWrite_fail h)]
    simp only [Bool.false_eq_true, if_false]
    rw [ih _ rfl]
    simp [writeMiss, List.replicate_succ]

/-! One transaction on a given script (20_memory R60, R61). -/

theorem readReg_ok {reg b : Byte} {rest : List Answer} {j : Nat} {s : State} (hj : j ≤ s.retries.toNat)
    (h : s.script = okAnswers j b ++ rest) :
    readReg reg s = .ok (some b)
      { s with script := rest, history := s.history ++ readOk s.addr reg j b, err := cleared s.err .readFail } := by
  rw [readReg, get_bind, bind_ok (readAttempts_ok j _ s (by omega) h)]
  rfl

theorem readReg_fail {reg : Byte} {rest : List Answer} {s : State}
    (h : s.script = failAnswers s.retries.toNat ++ rest) :
    readReg reg s = .ok none
      { s with script := rest, history := s.history ++ readFailed s.addr reg s.retries.toNat,
               err := raised s.err .readFail } := by
  rw [readReg, get_bind, bind_ok (readAttempts_fail _ s h)]
  rfl

theorem writeReg_ok {reg b x : Byte} {rest : List Answer} {k : Nat} {s : State} (hk : k ≤ s.retries.toNat)
    (h : s.script = okAnswers k x ++ rest) :
    writeReg reg b s = .ok true
      { s with script := rest, history := s.history ++ writeOk s.addr reg b k, err := cleared s.err .writeFail } := by
  rw [writeReg, get_bind, bind_ok (writeAttempts_ok k _ s (by omega) h)]
  rfl

theorem writeReg_fail {reg b : Byte} {rest : List Answer} {s : State}
    (h : s.script = failAnswers s.retries.toNat ++ rest) :
    writeReg reg b s = .ok false
      { s with script := rest, history := s.history ++ writeFailed s.addr reg b s.retries.toNat,
               err := raised s.err .writeFail } := by
  rw [writeReg, get_bind, bind_ok (writeAttempts_fail _ s h)]
  rfl

/-! A completed operation, as a command reports it. -/

theorem reportOk_ok {m : Eff Bool} {s t : State} {b : Bool} (h : m s = .ok b t) :
    reportOk m s = .ok (Response.done b) t := by
  rw [reportOk, bind_ok h]; rfl

theorem runCommand_ok {i : Instr} {body : Eff Response} {s t : State} {r : Response}
    (h : frame i body s = .ok r t) : runCommand i body s = .next { t with response := some r } := by
  simp [runCommand, h, settle]

/-- The frame of a command whose checks pass: the body, after the entry clear (40_control R130). -/
theorem frame_body {i : Instr} {body : Eff Response} {s : State} (hw : i.wf = true)
    (hp : ((attr i).pins && (pinOperands i).any pinInvalid) = false) (ha : badAddress i = false)
    (hi : (attr i).init = false ∨ s.init = true)
    (hg : (attr i).gated = false ∨ s.variant = .extendedCapable) :
    frame i body s = body (s.clearFlags (attr i).clear) := by
  have h1 : lazyInit (attr i) s = .ok true s := by
    cases h : (attr i).init
    · simp [lazyInit, h]
    · have h3 : s.init = true := by simpa [h] using hi
      simp only [lazyInit, h, if_true, ensureInit, get_bind, h3]; rfl
  have h2 : gateAndRun (attr i) body s = body (s.clearFlags (attr i).clear) := by
    rcases hg with hg | hg <;> simp [gateAndRun, hg]
  simp only [frame, hw, hp, ha, Bool.true_eq_false, Bool.false_eq_true, if_false]
  rw [initAndRun, bind_ok h1]
  simpa using h2

end Sys2Proof.Laws
end

