-- ==== Sys2Proof/Laws/Script.lean ====
section
/-! SUPPORT. What the composite operations do when the oracle's answers are given: the accesses of
20_memory R67 to R71, the write sequences, the reads of DRVL, and the initialisation (40_control R131, R140, R141).
Each lemma says the result and the whole state reached. -/

namespace Sys2Proof.Laws

open Sys2Proof.Machine

/-! Read, change and write one register (20_memory R67). -/

theorem readModifyWrite_ok {reg old x : Byte} {f : Byte → Byte} {j k : Nat} {rest : List Answer} {s : State}
    (hj : j ≤ s.retries.toNat) (hk : k ≤ s.retries.toNat)
    (h : s.script = okAnswers j old ++ okAnswers k x ++ rest) :
    readModifyWrite reg f s = .ok true
      { s with script := rest, history := s.history ++ (readOk s.addr reg j old ++ writeOk s.addr reg (f old) k),
               err := cleared (cleared s.err .readFail) .writeFail } := by
  rw [List.append_assoc] at h
  rw [readModifyWrite, bind_ok (readReg_ok hj h)]
  simp only
  refine (writeReg_ok (rest := rest) (x := x) (k := k) ?_ ?_).trans ?_
  · exact hk
  · rfl
  · simp

theorem readModifyWrite_readFail {reg : Byte} {f : Byte → Byte} {rest : List Answer} {s : State}
    (h : s.script = failAnswers s.retries.toNat ++ rest) :
    readModifyWrite reg f s = .ok false
      { s with script := rest, history := s.history ++ readFailed s.addr reg s.retries.toNat,
               err := raised s.err .readFail } := by
  rw [readModifyWrite, bind_ok (readReg_fail h)]
  rfl

theorem readModifyWrite_writeFail {reg old : Byte} {f : Byte → Byte} {j : Nat} {rest : List Answer} {s : State}
    (hj : j ≤ s.retries.toNat)
    (h : s.script = okAnswers j old ++ failAnswers s.retries.toNat ++ rest) :
    readModifyWrite reg f s = .ok false
      { s with script := rest, history := s.history ++ (readOk s.addr reg j old ++ writeFailed s.addr reg (f old) s.retries.toNat),
               err := raised (cleared s.err .readFail) .writeFail } := by
  rw [List.append_assoc] at h
  rw [readModifyWrite, bind_ok (readReg_ok hj h)]
  simp only
  refine (writeReg_fail (rest := rest) rfl).trans ?_
  simp

/-! Both registers of a pair (20_memory R68, R69). -/

theorem dualRead_ok {pair : RegPair} {b0 b1 : Byte} {j0 j1 : Nat} {rest : List Answer} {s : State}
    (h0 : j0 ≤ s.retries.toNat) (h1 : j1 ≤ s.retries.toNat)
    (h : s.script = okAnswers j0 b0 ++ okAnswers j1 b1 ++ rest) :
    dualRead pair s = .ok (some (b1 ++ b0))
      { s with script := rest,
               history := s.history ++ (readOk s.addr pair.port0 j0 b0 ++ readOk s.addr pair.port1 j1 b1),
               err := cleared (cleared s.err .readFail) .readFail } := by
  rw [List.append_assoc] at h
  rw [dualRead, bind_ok (readReg_ok h0 h)]
  simp only
  refine (bind_ok (readReg_ok (rest := rest) (b := b1) (j := j1) ?_ ?_)).trans ?_
  · exact h1
  · rfl
  · simp [joinPorts]

theorem dualRead_fail0 {pair : RegPair} {rest : List Answer} {s : State}
    (h : s.script = failAnswers s.retries.toNat ++ rest) :
    dualRead pair s = .ok none
      { s with script := rest, history := s.history ++ readFailed s.addr pair.port0 s.retries.toNat,
               err := raised s.err .readFail } := by
  rw [dualRead, bind_ok (readReg_fail h)]
  rfl

theorem dualRead_fail1 {pair : RegPair} {b0 : Byte} {j0 : Nat} {rest : List Answer} {s : State}
    (h0 : j0 ≤ s.retries.toNat)
    (h : s.script = okAnswers j0 b0 ++ failAnswers s.retries.toNat ++ rest) :
    dualRead pair s = .ok none
      { s with script := rest,
               history := s.history ++ (readOk s.addr pair.port0 j0 b0 ++ readFailed s.addr pair.port1 s.retries.toNat),
               err := raised (cleared s.err .readFail) .readFail } := by
  rw [List.append_assoc] at h
  rw [dualRead, bind_ok (readReg_ok h0 h)]
  simp only
  refine (bind_ok (readReg_fail (rest := rest) ?_)).trans ?_
  · rfl
  · simp

theorem dualWrite_ok {pair : RegPair} {v : Half} {x0 x1 : Byte} {k0 k1 : Nat} {rest : List Answer} {s : State}
    (h0 : k0 ≤ s.retries.toNat) (h1 : k1 ≤ s.retries.toNat)
    (h : s.script = okAnswers k0 x0 ++ okAnswers k1 x1 ++ rest) :
    dualWrite pair v s = .ok true
      { s with script := rest,
               history := s.history ++ (writeOk s.addr pair.port0 (v.extractLsb' 0 8) k0 ++ writeOk s.addr pair.port1 (v.extractLsb' 8 8) k1),
               err := cleared (cleared s.err .writeFail) .writeFail } := by
  rw [List.append_assoc] at h
  rw [dualWrite, bind_ok (writeReg_ok h0 h)]
  simp only [if_true]
  refine (writeReg_ok (rest := rest) (x := x1) (k := k1) ?_ ?_).trans ?_
  · exact h1
  · rfl
  · simp [port0Byte, port1Byte]

theorem dualWrite_fail0 {pair : RegPair} {v : Half} {rest : List Answer} {s : State}
    (h : s.script = failAnswers s.retries.toNat ++ rest) :
    dualWrite pair v s = .ok false
      { s with script := rest, history := s.history ++ writeFailed s.addr pair.port0 (v.extractLsb' 0 8) s.retries.toNat,
               err := raised s.err .writeFail } := by
  rw [dualWrite, bind_ok (writeReg_fail h)]
  rfl

theorem dualWrite_fail1 {pair : RegPair} {v : Half} {x0 : Byte} {k0 : Nat} {rest : List Answer} {s : State}
    (h0 : k0 ≤ s.retries.toNat)
    (h : s.script = okAnswers k0 x0 ++ failAnswers s.retries.toNat ++ rest) :
    dualWrite pair v s = .ok false
      { s with script := rest,
               history := s.history ++ (writeOk s.addr pair.port0 (v.extractLsb' 0 8) k0 ++ writeFailed s.addr pair.port1 (v.extractLsb' 8 8) s.retries.toNat),
               err := raised (cleared s.err .writeFail) .writeFail } := by
  rw [List.append_assoc] at h
  rw [dualWrite, bind_ok (writeReg_ok h0 h)]
  simp only [if_true]
  refine (writeReg_fail (rest := rest) ?_).trans ?_
  · rfl
  · simp [port0Byte, port1Byte]

/-! Sequences of writes and of reads (41_standard_bank R200, 42_extended_bank R251). -/

theorem okRun_cons (m : Nat × Byte) (ms) (rest) : okRun (m :: ms) ++ rest = okAnswers m.1 m.2 ++ (okRun ms ++ rest) := by
  simp [okRun]

theorem writeSeq_ok (ws : List (Byte × Byte)) (ms : List (Nat × Byte)) (rest : List Answer) (s : State)
    (hl : ms.length = ws.length) (hm : RunWithin s.retries.toNat ms) (h : s.script = okRun ms ++ rest)
    (he : cleared s.err .writeFail = s.err) :
    writeSeq ws s = .ok true { s with script := rest, history := s.history ++ writeRun s.addr ws ms } := by
  induction ws generalizing ms s with
  | nil =>
    obtain rfl : ms = [] := by simpa using hl
    simp [okRun] at h
    simp [writeSeq, writeRun, ← h]
  | cons w ws ih =>
    obtain ⟨m, ms, rfl⟩ : ∃ m ms', ms = m :: ms' := by cases ms <;> simp at hl ⊢
    rw [okRun_cons] at h
    rw [writeSeq, bind_ok (writeReg_ok (hm m (by simp)) h)]
    simp only [if_true]
    refine (ih ms _ ?_ ?_ ?_ ?_).trans ?_
    · simpa using hl
    · exact fun m' h' => hm m' (by simp [h'])
    · rfl
    · exact cleared_cleared _ _
    · simp [writeRun, he]

theorem writeSeq_fail (before after : List (Byte × Byte)) (r b : Byte) (ms : List (Nat × Byte)) (rest : List Answer) (s : State)
    (hl : ms.length = before.length) (hm : RunWithin s.retries.toNat ms) (h : s.script = okRun ms ++ failAnswers s.retries.toNat ++ rest)
    (he : cleared s.err .writeFail = s.err) :
    writeSeq (before ++ (r, b) :: after) s = .ok false
      { s with
        script := rest
        err := raised s.err .writeFail
        history := s.history ++ (writeRun s.addr before ms ++ writeFailed s.addr r b s.retries.toNat) } := by
  induction before generalizing ms s with
  | nil =>
    obtain rfl : ms = [] := by simpa using hl
    simp [okRun] at h
    rw [List.nil_append, writeSeq, bind_ok (writeReg_fail h)]
    simp [writeRun]
  | cons w ws ih =>
    obtain ⟨m, ms, rfl⟩ : ∃ m ms', ms = m :: ms' := by cases ms <;> simp at hl ⊢
    rw [List.append_assoc, okRun_cons] at h
    rw [List.cons_append, writeSeq, bind_ok (writeReg_ok (hm m (by simp)) h)]
    simp only [if_true]
    refine (ih ms _ ?_ ?_ ?_ ?_).trans ?_
    · simpa using hl
    · exact fun m' h' => hm m' (by simp [h'])
    · simp
    · exact cleared_cleared _ _
    · simp [writeRun, he]

theorem readDrives_ok (m : RegMap) (qs : List Nat) (ms : List (Nat × Byte)) (rest : List Answer) (s : State)
    (hl : ms.length = qs.length) (hm : RunWithin s.retries.toNat ms) (h : s.script = okRun ms ++ rest)
    (he : cleared s.err .readFail = s.err) :
    readDrives m qs s = .ok (some (List.zipWith (fun q x => (q, x.2)) qs ms))
      { s with script := rest, history := s.history ++ readRun s.addr (qs.map fun q => driveAt m q) ms } := by
  induction qs generalizing ms s with
  | nil =>
    obtain rfl : ms = [] := by simpa using hl
    simp [okRun] at h
    simp [readDrives, readRun, ← h]
  | cons w ws ih =>
    obtain ⟨x, ms, rfl⟩ : ∃ m ms', ms = m :: ms' := by cases ms <;> simp at hl ⊢
    rw [okRun_cons] at h
    rw [readDrives, bind_ok (readReg_ok (hm x (by simp)) h)]
    simp only
    refine (bind_ok (ih ms _ ?_ ?_ ?_ ?_)).trans ?_
    · simpa using hl
    · exact fun m' h' => hm m' (by simp [h'])
    · rfl
    · exact cleared_cleared _ _
    · simp [readRun, he]

theorem readDrives_fail (m : RegMap) (qs : List Nat) (before after : List Byte) (r : Byte) (ms : List (Nat × Byte)) (rest : List Answer) (s : State)
    (hq : (qs.map fun q => driveAt m q) = before ++ r :: after)
    (hl : ms.length = before.length) (hm : RunWithin s.retries.toNat ms) (h : s.script = okRun ms ++ failAnswers s.retries.toNat ++ rest)
    (he : cleared s.err .readFail = s.err) :
    readDrives m qs s = .ok none
      { s with
        script := rest
        err := raised s.err .readFail
        history := s.history ++ (readRun s.addr before ms ++ readFailed s.addr r s.retries.toNat) } := by
  induction before generalizing qs ms s with
  | nil =>
    obtain rfl : ms = [] := by simpa using hl
    obtain ⟨q, qs, rfl⟩ : ∃ q qs', qs = q :: qs' := by cases qs <;> simp at hq ⊢
    simp [okRun] at h hq
    rw [readDrives, bind_ok (readReg_fail h)]
    simp [readRun, hq]
  | cons w ws ih =>
    obtain ⟨x, ms, rfl⟩ : ∃ m ms', ms = m :: ms' := by cases ms <;> simp at hl ⊢
    obtain ⟨q, qs, rfl⟩ : ∃ q qs', qs = q :: qs' := by cases qs <;> simp at hq ⊢
    simp at hq
    rw [List.append_assoc, okRun_cons] at h
    rw [readDrives, bind_ok (readReg_ok (hm x (by simp)) h)]
    simp only
    refine (bind_ok (ih qs ms _ hq.2 ?_ ?_ ?_ ?_)).trans ?_
    · simpa using hl
    · exact fun m' h' => hm m' (by simp [h'])
    · simp
    · exact cleared_cleared _ _
    · simp [readRun, he, hq.1]

/-! Single-shot reads, detection and initialisation (40_control R131, R140, R141). -/

theorem readReg_once {reg : Byte} {r : Option Byte} {rest : List Answer} {s : State} (h0 : s.retries = 0#8)
    (h : s.script = answerOf r :: rest) :
    readReg reg s = .ok r
      { s with script := rest, history := s.history ++ [readEvent s.addr reg r],
               err := if r.isSome then cleared s.err .readFail else raised s.err .readFail } := by
  cases r with
  | none =>
    rw [readReg_fail (rest := rest) (by simpa [h0, failAnswers, answerOf] using h)]
    simp [h0, readFailed, readEvent, readMiss]
  | some b =>
    rw [readReg_ok (j := 0) (b := b) (rest := rest) (by omega) (by simpa [okAnswers, answerOf] using h)]
    simp [readOk, readEvent]

theorem probe_some {s t1 t2 t3 : State} {b : Byte} {r2 r3 : Option Byte} (h1 : readReg s.probeStd s = .ok (some b) t1)
    (h2 : readReg s.probeExt t1 = .ok r2 t2) (h3 : readReg s.probeStd t2 = .ok r3 t3) :
    probe s = .ok (detectOutcome r2.isSome r3.isSome) t3 := by
  rw [probe, get_bind, get_bind]
  refine (bind_ok h1).trans ?_
  refine (bind_ok h2).trans ?_
  refine (bind_ok h3).trans ?_
  rfl

theorem probe_none {s t1 : State} (h1 : readReg s.probeStd s = .ok none t1) : probe s = .ok .unknown t1 := by
  rw [probe, get_bind, get_bind]
  exact (bind_ok h1)

theorem detect_some {s : State} {b : Byte} {r2 r3 : Option Byte} {rest : List Answer}
    (h : s.script = probeAnswers (some b) r2 r3 ++ rest) :
    detect s = .ok () (s.detected (some b) r2 r3 rest) := by
  have h1 := readReg_once (reg := s.probeStd) (r := some b) (rest := answerOf r2 :: answerOf r3 :: rest) (s := s.forceSingleShot) rfl (by simpa [probeAnswers, answerOf, State.forceSingleShot] using h)
  have hp := probe_some (s := s.forceSingleShot) h1 (readReg_once (rest := answerOf r3 :: rest) rfl rfl) (readReg_once (rest := rest) rfl rfl)
  rw [detect, modify_bind, bind_ok hp]
  show EStateM.Result.ok () _ = _
  congr 1
  simp only [State.detected, State.restoreRetries, State.forceSingleShot, State.mk.injEq, true_and, and_true]
  refine ⟨?_, ?_, ?_⟩
  · have e1 : s.err ||| 4#16 = raised s.err .readFail := rfl
    have e2 : s.err &&& ~~~4#16 = cleared s.err .readFail := rfl
    cases r2 <;> cases r3 <;> simp only [probeErr, e1, e2, Option.isSome, raised_raised, raised_cleared, cleared_raised, cleared_cleared, if_true, if_false, Bool.false_eq_true, Bool.and_false, Bool.and_self]
  · cases r2 <;> cases r3 <;> simp [probeVariant, detectOutcome]
  · simp [probeEvents]

theorem detect_none {s : State} {r2 r3 : Option Byte} {rest : List Answer}
    (h : s.script = probeAnswers none r2 r3 ++ rest) :
    detect s = .ok () (s.detected none r2 r3 rest) := by
  have h1 := readReg_once (reg := s.probeStd) (r := none) (rest := rest) (s := s.forceSingleShot) rfl (by simpa [probeAnswers, answerOf, State.forceSingleShot] using h)
  have hp := probe_none (s := s.forceSingleShot) h1
  rw [detect, modify_bind, bind_ok hp]
  rfl

theorem detect_ok {s : State} {r1 r2 r3 : Option Byte} {rest : List Answer}
    (h : s.script = probeAnswers r1 r2 r3 ++ rest) :
    detect s = .ok () (s.detected r1 r2 r3 rest) := by
  cases r1 with
  | none => exact detect_none h
  | some b => exact detect_some h

theorem detectOrForce_none {s : State} {r1 r2 r3 : Option Byte} {rest : List Answer} (hf : s.forced = .none)
    (h : s.script = probeAnswers r1 r2 r3 ++ rest) :
    detectOrForce s = .ok () (s.detected r1 r2 r3 rest) := by
  rw [detectOrForce, get_bind, hf]
  exact detect_ok h

theorem detectOrForce_forced {s : State} (hf : s.forced ≠ .none) :
    detectOrForce s = .ok () { s with variant := forcedVariant s.forced } := by
  rw [detectOrForce, get_bind]
  cases h : s.forced
  · exact absurd h hf
  · simp [forcedVariant, setVariant, modify_run, ← h]
  · simp [forcedVariant, setVariant, modify_run, ← h]

theorem pinHook_ok {s : State} {x : Option Byte} {rest : List Answer} (h : s.script = hookAnswers s x ++ rest) :
    pinHook s = .ok () { s with history := s.history ++ hookEvents s x, script := rest } := by
  cases hh : s.hasPinHook
  · simp [hookAnswers, hh] at h
    simp [pinHook, hh, hookEvents, ← h]
    rw [← hh]
  · simp [hookAnswers, hh] at h
    cases x with
    | none => simp [pinHook, hh, hookEvents, busCall_fail (rest := rest) h]
    | some b => simp [pinHook, hh, hookEvents, busCall_ok (rest := rest) (b := b) h, BusCall.isRead]

theorem ensureInit_fail {s : State} {x : Option Byte} {rest : List Answer} (hi : s.init = false)
    (h : s.script = hookAnswers s x ++ .fail :: rest) :
    ensureInit s = .ok false (s.hooked x false rest) := by
  rw [ensureInit, get_bind]
  simp only [hi, Bool.false_eq_true, if_false]
  rw [bind_ok (pinHook_ok h)]
  refine (bind_ok (busCall_fail (rest := rest) rfl)).trans ?_
  rfl

theorem ensureInit_ready {s : State} {x : Option Byte} {b : Byte} {rest : List Answer} (hi : s.init = false)
    (h : s.script = hookAnswers s x ++ .ok b :: rest) :
    ensureInit s = (do detectOrForce; modify (fun s => { s with init := true }); pure true : Eff Bool) (s.hooked x true rest) := by
  rw [ensureInit, get_bind]
  simp only [hi, Bool.false_eq_true, if_false]
  rw [bind_ok (pinHook_ok h)]
  refine (bind_ok (busCall_ok (b := b) (rest := rest) rfl)).trans ?_
  rfl

theorem ensureInit_detect {s : State} {x : Option Byte} {b : Byte} {r1 r2 r3 : Option Byte} {rest : List Answer} (hi : s.init = false)
    (hf : s.forced = .none) (h : s.script = hookAnswers s x ++ .ok b :: (probeAnswers r1 r2 r3 ++ rest)) :
    ensureInit s = .ok true (s.initialised x r1 r2 r3 rest) := by
  rw [ensureInit_ready hi h]
  refine (bind_ok (detectOrForce_none (s := s.hooked x true _) (r1 := r1) (r2 := r2) (r3 := r3) (rest := rest) hf rfl)).trans ?_
  rfl

theorem ensureInit_forced {s : State} {x : Option Byte} {b : Byte} {rest : List Answer} (hi : s.init = false)
    (hf : s.forced ≠ .none) (h : s.script = hookAnswers s x ++ .ok b :: rest) :
    ensureInit s = .ok true (s.initialisedForced x rest) := by
  rw [ensureInit_ready hi h]
  refine (bind_ok (detectOrForce_forced (s := s.hooked x true rest) hf)).trans ?_
  rfl

theorem ensureInit_done {s : State} (hi : s.init = true) : ensureInit s = .ok true s := by
  rw [ensureInit, get_bind, hi]
  rfl

end Sys2Proof.Laws
end

