-- ==== Sys2Proof/Laws/Talk.lean ====
section
/-! SUPPORT. Everything an operation that talks to the transport can do, whatever the oracle answers: `Talked` is what
it leaves unchanged and what it adds to the history, `Talks` says it of both outcomes of an operation, and one lemma
for each shared operation says that it talks. -/

namespace Sys2Proof.Laws

open Sys2Proof.Machine

/-- Bit k of the flag word is newly set. -/
def Newly (s t : State) (k : Nat) : Prop := s.err.getLsbD k = false ∧ t.err.getLsbD k = true

/-- What a talk leaves: only the two transport flags, the script, the history and the hang record may change; every
call added satisfies P; and a transport flag newly set stands for a failed call of its direction. -/
structure Talked (P : BusCall → Prop) (s t : State) : Prop where
  frame : t = { s with err := t.err, script := t.script, calls := t.calls, history := t.history, stuck := t.stuck }
  err : t.err &&& ~~~0x000C#16 = s.err &&& ~~~0x000C#16
  history : ∃ evs, t.history = s.history ++ evs ∧ (∀ e ∈ evs, P e.call) ∧
    (Newly s t 2 → ∃ e ∈ evs, ∃ d r, e = readMiss d r) ∧
    (Newly s t 3 → ∃ e ∈ evs, ∃ d r b, e = writeMiss d r b)
  script : t.script <:+ s.script

theorem Talked.refl (P : BusCall → Prop) (s : State) : Talked P s s :=
  ⟨rfl, rfl, ⟨[], by simp, by simp, by simp [Newly], by simp [Newly]⟩, List.suffix_rfl⟩

theorem Talked.trans {P : BusCall → Prop} {s t u : State} (h : Talked P s t) (g : Talked P t u) : Talked P s u := by
  obtain ⟨e1, h1, h2, h3, h4⟩ := h.history
  obtain ⟨e2, g1, g2, g3, g4⟩ := g.history
  refine ⟨?_, g.err.trans h.err, ⟨e1 ++ e2, by rw [g1, h1, List.append_assoc], ?_, ?_, ?_⟩, g.script.trans h.script⟩
  · have a := h.frame
    have b := g.frame
    rw [b, a]
  · intro e he
    rcases List.mem_append.1 he with he | he
    · exact h2 e he
    · exact g2 e he
  · rintro ⟨n1, n2⟩
    cases hb : t.err.getLsbD 2
    · obtain ⟨e, he, h⟩ := g3 ⟨hb, n2⟩; exact ⟨e, List.mem_append_right _ he, h⟩
    · obtain ⟨e, he, h⟩ := h3 ⟨n1, hb⟩; exact ⟨e, List.mem_append_left _ he, h⟩
  · rintro ⟨n1, n2⟩
    cases hb : t.err.getLsbD 3
    · obtain ⟨e, he, h⟩ := g4 ⟨hb, n2⟩; exact ⟨e, List.mem_append_right _ he, h⟩
    · obtain ⟨e, he, h⟩ := h4 ⟨n1, hb⟩; exact ⟨e, List.mem_append_left _ he, h⟩

/-- Answers taken from a script, none of which is one that never comes. -/
def Taken (l l' : List Answer) : Prop := ∃ used, l = used ++ l' ∧ Answer.never ∉ used

theorem Taken.refl (l : List Answer) : Taken l l := ⟨[], rfl, by simp⟩

theorem Taken.suffix {l l' : List Answer} (h : Taken l l') : l' <:+ l := by
  obtain ⟨used, rfl, -⟩ := h
  exact List.suffix_append _ _

theorem Taken.trans {l m n : List Answer} (h : Taken l m) (g : Taken m n) : Taken l n := by
  obtain ⟨u, rfl, hu⟩ := h
  obtain ⟨v, rfl, hv⟩ := g
  exact ⟨u ++ v, by simp, by simp [hu, hv]⟩

/-- What an operation that completes leaves of the hang record and of the script. -/
structure Returned (s t : State) : Prop where
  stuck : t.stuck = s.stuck
  taken : Taken s.script t.script

theorem Returned.refl (s : State) : Returned s s := ⟨rfl, Taken.refl _⟩

theorem Returned.trans {s t u : State} (h : Returned s t) (g : Returned t u) : Returned s u :=
  ⟨g.stuck.trans h.stuck, h.taken.trans g.taken⟩

/-- What an operation that hangs leaves: the call that never returned, and the script after the answer that never
comes. -/
structure Hangs (P : BusCall → Prop) (s t : State) : Prop where
  stuck : ∃ c, t.stuck = some c ∧ P c
  taken : Taken s.script (.never :: t.script)

theorem Hangs.after {P : BusCall → Prop} {s t u : State} (h : Taken s.script t.script) (g : Hangs P t u) : Hangs P s u :=
  ⟨g.stuck, h.trans g.taken⟩

theorem Hangs.mono {P Q : BusCall → Prop} {s t : State} (h : Hangs P s t) (hPQ : ∀ c, P c → Q c) : Hangs Q s t := by
  obtain ⟨⟨c, h1, h2⟩, h3⟩ := h
  exact ⟨⟨c, h1, hPQ c h2⟩, h3⟩

/-- An operation at a state talks, with both outcomes. -/
def Talks {α : Type} (P : BusCall → Prop) (m : Eff α) (s : State) : Prop :=
  (∀ a t, m s = .ok a t → Talked P s t ∧ Returned s t) ∧
  (∀ e t, m s = .error e t → Talked P s t ∧ Hangs P s t)

theorem Talks.bind {α β : Type} {P : BusCall → Prop} {m : Eff α} {f : α → Eff β} {s : State} (h : Talks P m s)
    (g : ∀ a t, m s = .ok a t → Talks P (f a) t) : Talks P (m >>= f) s := by
  cases hm : m s with
  | ok a t =>
    obtain ⟨h1, h2⟩ := h.1 a t hm
    obtain ⟨g1, g2⟩ := g a t hm
    rw [Talks, bind_ok hm]
    refine ⟨fun b u hu => ?_, fun e u hu => ?_⟩
    · obtain ⟨k1, k2⟩ := g1 b u hu; exact ⟨h1.trans k1, h2.trans k2⟩
    · obtain ⟨k1, k2⟩ := g2 e u hu; exact ⟨h1.trans k1, k2.after h2.taken⟩
  | error e t =>
    rw [Talks, bind_error hm]
    refine ⟨by simp, fun e' u hu => ?_⟩
    cases hu
    exact h.2 e t hm

theorem Talks.pure {α : Type} (P : BusCall → Prop) (a : α) (s : State) : Talks P (pure a : Eff α) s := by
  refine ⟨fun b t h => ?_, fun e t h => by simp at h⟩
  rw [pure_run] at h; cases h
  exact ⟨Talked.refl P s, Returned.refl s⟩

theorem Talked.mono {P Q : BusCall → Prop} {s t : State} (h : Talked P s t) (hPQ : ∀ c, P c → Q c) : Talked Q s t := by
  obtain ⟨h1, h2, ⟨evs, h3, h4, h5⟩, h6⟩ := h
  exact ⟨h1, h2, ⟨evs, h3, fun e he => hPQ _ (h4 e he), h5⟩, h6⟩

theorem Talks.mono {α : Type} {P Q : BusCall → Prop} {m : Eff α} {s : State} (h : Talks P m s)
    (hPQ : ∀ c, P c → Q c) : Talks Q m s :=
  ⟨fun a t ht => ⟨(h.1 a t ht).1.mono hPQ, (h.1 a t ht).2⟩,
   fun e t ht => ⟨(h.2 e t ht).1.mono hPQ, (h.2 e t ht).2.mono hPQ⟩⟩

theorem Talks.get_bind {α : Type} {P} {f : State → Eff α} {s : State} (h : Talks P (f s) s) : Talks P (get >>= f) s := h

theorem Talked.addr {P} {s t : State} (h : Talked P s t) : t.addr = s.addr := by rw [h.frame]

theorem Talked.regMap {P} {s t : State} (h : Talked P s t) : t.regMap = s.regMap := by rw [h.frame]

theorem Talked.variant {P} {s t : State} (h : Talked P s t) : t.variant = s.variant := by rw [h.frame]

/-! One call. -/

/-- Everything one call can do. -/
theorem busCall_cases (c : BusCall) (s : State) :
    (∃ scr n, busCall c s = .ok none { s with script := scr, calls := n, history := s.history ++ [⟨c, false, none⟩] } ∧
      Taken s.script scr) ∨
    (∃ scr n b, busCall c s = .ok (some b) { s with script := scr, calls := n, history := s.history ++ [⟨c, true, if c.isRead then some b else none⟩] } ∧
      Taken s.script scr) ∨
    (∃ scr, busCall c s = .error () { s with script := scr, stuck := some c } ∧ s.script = .never :: scr) := by
  cases h : s.script with
  | nil =>
    cases hb : Config.busReply s.calls with
    | none =>
      left
      exact ⟨[], s.calls + 1, by simp [busCall, takeAnswer, h, freeAnswer, hb, State.record], Taken.refl _⟩
    | some b =>
      right; left
      exact ⟨[], s.calls + 1, b, by simp [busCall, takeAnswer, h, freeAnswer, hb, State.record], Taken.refl _⟩
  | cons a as =>
    cases a with
    | fail => left; exact ⟨as, s.calls, by simp [busCall, takeAnswer, h, State.record], [.fail], rfl, by simp⟩
    | ok b => right; left; exact ⟨as, s.calls, b, by simp [busCall, takeAnswer, h, State.record], [.ok b], rfl, by simp⟩
    | never => right; right; exact ⟨as, by simp [busCall, takeAnswer, h], rfl⟩

theorem talked_call {P : BusCall → Prop} {s : State} {scr : List Answer} {n : Nat} {ev : BusEvent} (h : P ev.call)
    (hs : Taken s.script scr) : Talked P s { s with script := scr, calls := n, history := s.history ++ [ev] } :=
  ⟨rfl, rfl, ⟨[ev], rfl, by simpa using h, by simp [Newly], by simp [Newly]⟩, hs.suffix⟩

theorem talks_busCall {P : BusCall → Prop} {c : BusCall} {s : State} (h : P c) : Talks P (busCall c) s := by
  rcases busCall_cases c s with ⟨scr, n, hc, hs⟩ | ⟨scr, n, b, hc, hs⟩ | ⟨scr, hc, hs⟩ <;> rw [Talks, hc]
  · refine ⟨fun a t ht => ?_, by simp⟩
    cases ht; exact ⟨talked_call h hs, rfl, hs⟩
  · refine ⟨fun a t ht => ?_, by simp⟩
    cases ht; exact ⟨talked_call h hs, rfl, hs⟩
  · refine ⟨by simp, fun a t ht => ?_⟩
    cases ht
    have hx : scr <:+ s.script := by rw [hs]; exact List.suffix_cons _ _
    exact ⟨⟨rfl, rfl, ⟨[], by simp, by simp, by simp [Newly], by simp [Newly]⟩, hx⟩, ⟨_, rfl, h⟩, [], by simpa using hs, by simp⟩

theorem talks_busRead {P : BusCall → Prop} {r : Byte} {s : State} (h : P (.read s.addr r)) : Talks P (busRead r) s := talks_busCall h

theorem talks_busWrite {P : BusCall → Prop} {r b : Byte} {s : State} (h : P (.write s.addr r b)) : Talks P (busWrite r b) s := by
  have := talks_busCall (s := s) h
  unfold Talks busWrite at *
  cases hc : busCall (.write s.addr r b) s with
  | ok a t => rw [hc] at this; refine ⟨fun a' t' ht => ?_, by simp⟩; cases ht; exact this.1 _ _ rfl
  | error e t => rw [hc] at this; refine ⟨by simp, fun a' t' ht => ?_⟩; cases ht; exact this.2 _ _ rfl

/-! The attempts of a transaction. -/

theorem talks_readAttempts {P : BusCall → Prop} {r : Byte} (n : Nat) {s : State} (h : P (.read s.addr r)) : Talks P (readAttempts r n) s := by
  induction n generalizing s with
  | zero => exact Talks.pure _ _ _
  | succ n ih =>
    rw [readAttempts]
    refine (talks_busRead h).bind fun a t ht => ?_
    cases a with
    | some b => exact Talks.pure _ _ _
    | none => exact ih (by rw [((talks_busRead h).1 _ _ ht).1.addr]; exact h)

theorem talks_writeAttempts {P : BusCall → Prop} {r b : Byte} (n : Nat) {s : State} (h : P (.write s.addr r b)) : Talks P (writeAttempts r b n) s := by
  induction n generalizing s with
  | zero => exact Talks.pure _ _ _
  | succ n ih =>
    rw [writeAttempts]
    refine (talks_busWrite h).bind fun a t ht => ?_
    cases a with
    | true => exact Talks.pure _ _ _
    | false => exact ih (by rw [((talks_busWrite h).1 _ _ ht).1.addr]; exact h)

/-- Everything the read attempts can do when they return. -/
theorem readAttempts_ok_inv {r : Byte} (n : Nat) {s t : State} {a : Option Byte} (h : readAttempts r n s = .ok a t) :
    t = { s with script := t.script, calls := t.calls, history := t.history } ∧
    match a with
    | none => t.history = s.history ++ List.replicate n (readMiss s.addr r)
    | some b => ∃ j, j < n ∧ t.history = s.history ++ readOk s.addr r j b := by
  induction n generalizing s with
  | zero => rw [readAttempts, pure_run] at h; cases h; simp
  | succ n ih =>
    rw [readAttempts] at h
    rcases busCall_cases (.read s.addr r) s with ⟨scr, k, hc, hs⟩ | ⟨scr, k, b, hc, hs⟩ | ⟨scr, hc, hs⟩
    · rw [bind_ok (show busRead r s = _ from hc)] at h
      obtain ⟨h1, h2⟩ := ih h
      refine ⟨by rw [h1], ?_⟩
      cases a with
      | none => simpa [List.replicate_succ, readMiss] using h2
      | some b => obtain ⟨j, hj, h3⟩ := h2; exact ⟨j + 1, by omega, by simpa [readOk, List.replicate_succ, readMiss] using h3⟩
    · rw [bind_ok (show busRead r s = _ from hc)] at h
      cases h
      exact ⟨rfl, 0, by omega, by simp [readOk, BusCall.isRead]⟩
    · rw [bind_error (show busRead r s = _ from hc)] at h; cases h

/-- Everything the write attempts can do when they return. -/
theorem writeAttempts_ok_inv {r b : Byte} (n : Nat) {s t : State} {a : Bool} (h : writeAttempts r b n s = .ok a t) :
    t = { s with script := t.script, calls := t.calls, history := t.history } ∧
    if a then ∃ j, j < n ∧ t.history = s.history ++ writeOk s.addr r b j
    else t.history = s.history ++ List.replicate n (writeMiss s.addr r b) := by
  induction n generalizing s with
  | zero => rw [writeAttempts, pure_run] at h; cases h; simp
  | succ n ih =>
    rw [writeAttempts] at h
    rcases busCall_cases (.write s.addr r b) s with ⟨scr, k, hc, hs⟩ | ⟨scr, k, x, hc, hs⟩ | ⟨scr, hc, hs⟩
    · rw [bind_ok (show busWrite r b s = .ok false _ by simp [busWrite, hc]; rfl)] at h
      obtain ⟨h1, h2⟩ := ih h
      refine ⟨by rw [h1], ?_⟩
      cases a with
      | false => simpa [List.replicate_succ, writeMiss] using h2
      | true => obtain ⟨j, hj, h3⟩ := h2; exact ⟨j + 1, by omega, by simpa [writeOk, List.replicate_succ, writeMiss] using h3⟩
    · rw [bind_ok (show busWrite r b s = .ok true _ by simp [busWrite, hc]; rfl)] at h
      cases h
      exact ⟨rfl, 0, by omega, by simp [writeOk, BusCall.isRead]⟩
    · rw [bind_error (show busWrite r b s = .error () _ by simp [busWrite, hc]; rfl)] at h; cases h

theorem readOk_call {d : BitVec 7} {r b : Byte} {j : Nat} {e : BusEvent} (h : e ∈ readOk d r j b) : e.call = .read d r := by
  simp [readOk, readMiss] at h
  rcases h with ⟨-, rfl⟩ | rfl <;> rfl

theorem readFailed_call {d : BitVec 7} {r : Byte} {j : Nat} {e : BusEvent} (h : e ∈ readFailed d r j) : e.call = .read d r := by
  simp [readFailed, readMiss] at h
  rw [h]

theorem writeOk_call {d : BitVec 7} {r b : Byte} {j : Nat} {e : BusEvent} (h : e ∈ writeOk d r b j) : e.call = .write d r b := by
  simp [writeOk, writeMiss] at h
  rcases h with ⟨-, rfl⟩ | rfl <;> rfl

theorem writeFailed_call {d : BitVec 7} {r b : Byte} {j : Nat} {e : BusEvent} (h : e ∈ writeFailed d r b j) : e.call = .write d r b := by
  simp [writeFailed, writeMiss] at h
  rw [h]

/-! The transactions and the composite accesses. -/

theorem talks_readReg {P : BusCall → Prop} {r : Byte} {s : State} (h : P (.read s.addr r)) : Talks P (readReg r) s := by
  have ha := talks_readAttempts (P := P) (s.retries.toNat + 1) h
  rw [Talks, readReg, get_bind]
  cases hr : readAttempts r (s.retries.toNat + 1) s with
  | error e u =>
    rw [bind_error hr]
    refine ⟨by simp, fun e' t ht => ?_⟩
    cases ht
    exact ha.2 _ _ hr
  | ok a u =>
    rw [bind_ok hr]
    obtain ⟨h1, h2⟩ := readAttempts_ok_inv _ hr
    have hs : u.script <:+ s.script ∧ Returned s u := ⟨(ha.1 _ _ hr).1.script, (ha.1 _ _ hr).2⟩
    cases a with
    | none =>
      refine ⟨fun b t ht => ?_, by simp [bind_ok (raise_run _ _)]⟩
      have ht : EStateM.Result.ok none (u.raiseFlag .readFail) = EStateM.Result.ok b t := ht
      cases ht
      have he : (u.raiseFlag .readFail).err = raised s.err .readFail := by rw [h1]; rfl
      refine ⟨⟨by rw [h1]; rfl, by rw [he]; exact raised_outside _ _ _ (by decide), ⟨_, h2, ?_, ?_, ?_⟩, hs.1⟩, hs.2.stuck, hs.2.taken⟩
      · intro e hx
        rw [readFailed_call (j := s.retries.toNat) hx]
        exact h
      · exact fun _ => ⟨readMiss s.addr r, by simp, _, _, rfl⟩
      · intro hn
        rw [Newly, he] at hn
        simp [raised, flagMask] at hn
    | some b =>
      refine ⟨fun b' t ht => ?_, by simp [bind_ok (clear_run _ _)]⟩
      have ht : EStateM.Result.ok (some b) (u.clearFlag .readFail) = EStateM.Result.ok b' t := ht
      cases ht
      obtain ⟨j, -, h3⟩ := h2
      have he : (u.clearFlag .readFail).err = cleared s.err .readFail := by rw [h1]; rfl
      refine ⟨⟨by rw [h1]; rfl, by rw [he]; exact cleared_outside _ _ _ (by decide), ⟨_, h3, ?_, ?_, ?_⟩, hs.1⟩, hs.2.stuck, hs.2.taken⟩
      · intro e hx
        rw [readOk_call hx]
        exact h
      · intro hn
        rw [Newly, he] at hn
        simp [cleared, flagMask] at hn
      · intro hn
        rw [Newly, he] at hn
        simp [cleared, flagMask] at hn

theorem talks_writeReg {P : BusCall → Prop} {r b : Byte} {s : State} (h : P (.write s.addr r b)) : Talks P (writeReg r b) s := by
  have ha := talks_writeAttempts (P := P) (s.retries.toNat + 1) h
  rw [Talks, writeReg, get_bind]
  cases hr : writeAttempts r b (s.retries.toNat + 1) s with
  | error e u =>
    rw [bind_error hr]
    refine ⟨by simp, fun e' t ht => ?_⟩
    cases ht
    exact ha.2 _ _ hr
  | ok a u =>
    rw [bind_ok hr]
    obtain ⟨h1, h2⟩ := writeAttempts_ok_inv _ hr
    have hs : u.script <:+ s.script ∧ Returned s u := ⟨(ha.1 _ _ hr).1.script, (ha.1 _ _ hr).2⟩
    cases a with
    | false =>
      refine ⟨fun c t ht => ?_, by simp [bind_ok (raise_run _ _)]⟩
      have ht : EStateM.Result.ok false (u.raiseFlag .writeFail) = EStateM.Result.ok c t := ht
      cases ht
      have he : (u.raiseFlag .writeFail).err = raised s.err .writeFail := by rw [h1]; rfl
      refine ⟨⟨by rw [h1]; rfl, by rw [he]; exact raised_outside _ _ _ (by decide), ⟨_, h2, ?_, ?_, ?_⟩, hs.1⟩, hs.2.stuck, hs.2.taken⟩
      · intro e hx
        rw [writeFailed_call (j := s.retries.toNat) hx]
        exact h
      · intro hn
        rw [Newly, he] at hn
        simp [raised, flagMask] at hn
      · exact fun _ => ⟨writeMiss s.addr r b, by simp, _, _, _, rfl⟩
    | true =>
      refine ⟨fun b' t ht => ?_, by simp [bind_ok (clear_run _ _)]⟩
      have ht : EStateM.Result.ok true (u.clearFlag .writeFail) = EStateM.Result.ok b' t := ht
      cases ht
      obtain ⟨j, -, h3⟩ := h2
      have he : (u.clearFlag .writeFail).err = cleared s.err .writeFail := by rw [h1]; rfl
      refine ⟨⟨by rw [h1]; rfl, by rw [he]; exact cleared_outside _ _ _ (by decide), ⟨_, h3, ?_, ?_, ?_⟩, hs.1⟩, hs.2.stuck, hs.2.taken⟩
      · intro e hx
        rw [writeOk_call hx]
        exact h
      · intro hn
        rw [Newly, he] at hn
        simp [cleared, flagMask] at hn
      · intro hn
        rw [Newly, he] at hn
        simp [cleared, flagMask] at hn

/-- Reads of the listed registers of a device. -/
def Reads (d : BitVec 7) (regs : List Byte) (c : BusCall) : Prop := ∃ r ∈ regs, c = .read d r

/-- Writes of the listed registers of a device. -/
def Writes (d : BitVec 7) (regs : List Byte) (c : BusCall) : Prop := ∃ r ∈ regs, ∃ b, c = .write d r b

/-- Reads of the first list and writes of the second. -/
def Data (d : BitVec 7) (rs ws : List Byte) (c : BusCall) : Prop := Reads d rs c ∨ Writes d ws c

theorem talks_readModifyWrite {r : Byte} {f} {s : State} : Talks (Data s.addr [r] [r]) (readModifyWrite r f) s := by
  rw [readModifyWrite]
  have h := talks_readReg (s := s) (r := r) (P := Data s.addr [r] [r]) (.inl ⟨r, by simp, rfl⟩)
  refine h.bind fun a t ht => ?_
  cases a with
  | none => exact Talks.pure _ _ _
  | some o => exact talks_writeReg (.inr ⟨r, by simp, _, by rw [(h.1 _ _ ht).1.addr]⟩)

theorem talks_dualRead {p : RegPair} {P} {s : State} (h0 : P (.read s.addr p.port0)) (h1 : P (.read s.addr p.port1)) : Talks P (dualRead p) s := by
  rw [dualRead]
  have h := talks_readReg (s := s) (r := p.port0) (P := P) h0
  refine h.bind fun a t ht => ?_
  cases a with
  | none => exact Talks.pure _ _ _
  | some o =>
    refine (talks_readReg (by rw [(h.1 _ _ ht).1.addr]; exact h1)).bind fun a u hu => ?_
    cases a <;> exact Talks.pure _ _ _

theorem talks_dualWrite {p : RegPair} {v : Half} {P} {s : State} (h0 : ∀ b, P (.write s.addr p.port0 b)) (h1 : ∀ b, P (.write s.addr p.port1 b)) : Talks P (dualWrite p v) s := by
  rw [dualWrite]
  have h := talks_writeReg (s := s) (r := p.port0) (P := P) (h0 (port0Byte v))
  refine h.bind fun a t ht => ?_
  cases a with
  | false => exact Talks.pure _ _ _
  | true => exact talks_writeReg (by rw [(h.1 _ _ ht).1.addr]; exact h1 _)

theorem talks_pairModify {p : RegPair} {f} {s : State} : Talks (Data s.addr [p.port0, p.port1] [p.port0, p.port1]) (pairModify p f) s := by
  rw [pairModify]
  have h := talks_dualRead (s := s) (p := p) (P := Data s.addr [p.port0, p.port1] [p.port0, p.port1]) (.inl ⟨_, by simp, rfl⟩) (.inl ⟨_, by simp, rfl⟩)
  refine h.bind fun a t ht => ?_
  have ha := (h.1 _ _ ht).1.addr
  cases a with
  | none => exact Talks.pure _ _ _
  | some o => exact talks_dualWrite (fun b => .inr ⟨p.port0, by simp, b, by rw [ha]⟩) (fun b => .inr ⟨p.port1, by simp, b, by rw [ha]⟩)

theorem talks_writeSeq (ws : List (Byte × Byte)) {P} {s : State} (hP : ∀ w ∈ ws, P (.write s.addr w.1 w.2)) : Talks P (writeSeq ws) s := by
  induction ws generalizing s with
  | nil => exact Talks.pure _ _ _
  | cons w ws ih =>
    rw [writeSeq]
    have h := talks_writeReg (s := s) (r := w.1) (b := w.2) (P := P) (hP w (by simp))
    refine h.bind fun a t ht => ?_
    have ha := (h.1 _ _ ht).1.addr
    cases a with
    | false => exact Talks.pure _ _ _
    | true => exact ih fun w hw => by rw [ha]; exact hP w (by simp [hw])

theorem talks_readDrives (m : RegMap) (qs : List Nat) {P} {s : State} (hP : ∀ q, P (.read s.addr (driveAt m q))) : Talks P (readDrives m qs) s := by
  induction qs generalizing s with
  | nil => exact Talks.pure _ _ _
  | cons q qs ih =>
    rw [readDrives]
    have h := talks_readReg (s := s) (r := driveAt m q) (P := P) (hP q)
    refine h.bind fun a t ht => ?_
    have ha := (h.1 _ _ ht).1.addr
    cases a with
    | none => exact Talks.pure _ _ _
    | some b =>
      refine (ih fun q => by rw [ha]; exact hP q).bind fun a u hu => ?_
      cases a <;> exact Talks.pure _ _ _

theorem talks_reportOk {P} {m : Eff Bool} {s : State} (h : Talks P m s) : Talks P (reportOk m) s := by
  rw [reportOk]
  exact h.bind fun a t ht => Talks.pure _ _ _

end Sys2Proof.Laws
end

