-- ==== Sys2Proof/Laws/Init.lean ====
section
/-! SUPPORT. Everything a detection and a lazy initialisation can do, whatever the oracle answers
(40_control R131, R140, R141). -/

namespace Sys2Proof.Laws

open Sys2Proof.Machine

/-- The calls an initialisation can make: reads of the probe registers and the hooks. -/
def InitCall (s : State) (c : BusCall) : Prop :=
  c = .read s.addr s.probeStd ∨ c = .read s.addr s.probeExt ∨ c = .hookInit ∨ ∃ x y z, c = .hookPins x y z

/-- What an initialisation, completed or not, leaves. -/
structure Inited (s t : State) : Prop where
  frame : t = { s with err := t.err, script := t.script, calls := t.calls, history := t.history, stuck := t.stuck, retries := t.retries, savedRetries := t.savedRetries, variant := t.variant, init := t.init }
  err : t.err &&& ~~~0x0004#16 = s.err &&& ~~~0x0004#16
  history : ∃ evs, t.history = s.history ++ evs ∧ (∀ e ∈ evs, InitCall s e.call) ∧
    (Newly s t 2 → ∃ e ∈ evs, ∃ d r, e = readMiss d r)
  script : t.script <:+ s.script

theorem Inited.trans {s t u : State} (h : Inited s t) (g : Inited t u) : Inited s u := by
  obtain ⟨e1, h1, h2, h3⟩ := h.history
  obtain ⟨e2, g1, g2, g3⟩ := g.history
  have a := h.frame
  have b := g.frame
  refine ⟨by rw [b, a], g.err.trans h.err, ⟨e1 ++ e2, by rw [g1, h1, List.append_assoc], fun e he => ?_, ?_⟩, g.script.trans h.script⟩
  · rcases List.mem_append.1 he with he | he
    · exact h2 e he
    · have := g2 e he
      rw [a] at this; exact this
  · rintro ⟨n1, n2⟩
    cases hb : t.err.getLsbD 2
    · obtain ⟨e, he, h⟩ := g3 ⟨hb, n2⟩; exact ⟨e, List.mem_append_right _ he, h⟩
    · obtain ⟨e, he, h⟩ := h3 ⟨n1, hb⟩; exact ⟨e, List.mem_append_left _ he, h⟩

theorem Inited.quiet {s : State} {scr n evs} (hs : Taken s.script scr) (he : ∀ e ∈ evs, InitCall s e.call) :
    Inited s { s with script := scr, calls := n, history := s.history ++ evs } :=
  ⟨rfl, rfl, ⟨evs, rfl, he, by simp [Newly]⟩, hs.suffix⟩

/-- A call of an initialisation hung at once. -/
theorem Inited.hung {s : State} {scr : List Answer} {c : BusCall} (h : s.script = .never :: scr) :
    Inited s { s with script := scr, stuck := some c } :=
  ⟨rfl, rfl, ⟨[], by simp, by simp, by simp [Newly]⟩, by rw [h]; exact List.suffix_cons _ _⟩

theorem hangs_of_never {P : BusCall → Prop} {s : State} {scr : List Answer} {c : BusCall}
    (h : s.script = .never :: scr) (hc : P c) : Hangs P s { s with script := scr, stuck := some c } :=
  ⟨⟨c, rfl, hc⟩, [], by simpa using h, by simp⟩

theorem inited_of_talked {s0 s t : State} (h : Talked (InitCall s0) s t)
    (he : t.err &&& ~~~0x0004#16 = s.err &&& ~~~0x0004#16) (ha : s0.addr = s.addr)
    (hs : s0.probeStd = s.probeStd) (hx : s0.probeExt = s.probeExt) : Inited s t := by
  obtain ⟨h1, -, ⟨evs, h2, h3, h4, -⟩, h5⟩ := h
  refine ⟨by rw [h1], he, ⟨evs, h2, fun e hx' => ?_, h4⟩, h5⟩
  simpa only [InitCall, ha, hs, hx] using h3 e hx'

/-- A talk that touches no flag but I2CReadFail. -/
def Probes {α : Type} (s0 : State) (m : Eff α) (s : State) : Prop :=
  Talks (InitCall s0) m s ∧ (∀ a t, m s = .ok a t → t.err &&& ~~~0x0004#16 = s.err &&& ~~~0x0004#16) ∧
   (∀ a t, m s = .error a t → t.err &&& ~~~0x0004#16 = s.err &&& ~~~0x0004#16)

theorem Probes.bind {α β : Type} {s0 : State} {m : Eff α} {f : α → Eff β} {s : State} (h : Probes s0 m s)
    (g : ∀ a t, m s = .ok a t → Probes s0 (f a) t) : Probes s0 (m >>= f) s := by
  refine ⟨h.1.bind fun a t ht => (g a t ht).1, fun b u hu => ?_, fun b u hu => ?_⟩
  · cases hm : m s with
    | ok a t => rw [bind_ok hm] at hu; exact ((g a t hm).2.1 b u hu).trans (h.2.1 a t hm)
    | error e t => rw [bind_error hm] at hu; cases hu
  · cases hm : m s with
    | ok a t => rw [bind_ok hm] at hu; exact ((g a t hm).2.2 b u hu).trans (h.2.1 a t hm)
    | error e t => rw [bind_error hm] at hu; cases hu; exact h.2.2 _ _ hm

theorem Probes.pure {α : Type} {s0 : State} (a : α) (s : State) : Probes s0 (pure a : Eff α) s := by
  refine ⟨Talks.pure _ _ _, fun b t h => ?_, fun b t h => ?_⟩ <;> (rw [pure_run] at h; cases h; try rfl)

theorem readAttempts_err {r : Byte} (n : Nat) {s t : State} {e} (h : readAttempts r n s = .error e t) : t.err = s.err := by
  induction n generalizing s with
  | zero => rw [readAttempts, pure_run] at h; cases h
  | succ n ih =>
    rw [readAttempts] at h
    rcases busCall_cases (.read s.addr r) s with ⟨scr, k, hc, hs⟩ | ⟨scr, k, b, hc, hs⟩ | ⟨scr, hc, hs⟩
    · rw [bind_ok (show busRead r s = _ from hc)] at h
      rw [ih h]
    · rw [bind_ok (show busRead r s = _ from hc)] at h
      cases h
    · rw [bind_error (show busRead r s = _ from hc)] at h; cases h; rfl

theorem probes_readReg {s0 s : State} {r : Byte} (h : InitCall s0 (.read s.addr r)) : Probes s0 (readReg r) s := by
  have main : ∀ t : State, (∀ a, readReg r s = .ok a t → t.err &&& ~~~0x0004#16 = s.err &&& ~~~0x0004#16) ∧
      (∀ e, readReg r s = .error e t → t.err &&& ~~~0x0004#16 = s.err &&& ~~~0x0004#16) := by
    intro t
    rw [readReg, get_bind]
    cases hr : readAttempts r (s.retries.toNat + 1) s with
    | error e u =>
      rw [bind_error hr]
      refine ⟨by simp, fun e' ht => ?_⟩
      cases ht
      rw [readAttempts_err _ hr]
    | ok a u =>
      rw [bind_ok hr]
      have h1 := (readAttempts_ok_inv _ hr).1
      have he : u.err = s.err := by rw [h1]
      cases a with
      | none =>
        refine ⟨fun b ht => ?_, by simp [bind_ok (raise_run _ _)]⟩
        have ht : EStateM.Result.ok none (u.raiseFlag .readFail) = EStateM.Result.ok b t := ht
        cases ht
        rw [← he]
        exact raised_outside _ _ .readFail (by decide)
      | some b =>
        refine ⟨fun b' ht => ?_, by simp [bind_ok (clear_run _ _)]⟩
        have ht : EStateM.Result.ok (some b) (u.clearFlag .readFail) = EStateM.Result.ok b' t := ht
        cases ht
        rw [← he]
        exact cleared_outside _ _ .readFail (by decide)
  exact ⟨talks_readReg h, fun a t => (main t).1 a, fun e t => (main t).2 e⟩

theorem probes_probe {s0 s : State} (h1 : s0.addr = s.addr) (h2 : s0.probeStd = s.probeStd) (h3 : s0.probeExt = s.probeExt) : Probes s0 probe s := by
  have hs : ∀ t : State, t.addr = s.addr → InitCall s0 (.read t.addr s.probeStd) := fun t ht => .inl (by rw [ht, h1, h2])
  have hx : ∀ t : State, t.addr = s.addr → InitCall s0 (.read t.addr s.probeExt) := fun t ht => .inr (.inl (by rw [ht, h1, h3]))
  show Probes s0 (readReg s.probeStd >>= _) s
  have p1 := probes_readReg (hs s rfl)
  refine p1.bind fun a t ht => ?_
  have ha := (p1.1.1 _ _ ht).1.addr
  cases a with
  | none => exact Probes.pure _ _
  | some b =>
    have p2 := probes_readReg (hx t ha)
    refine p2.bind fun a u hu => ?_
    have hb := (p2.1.1 _ _ hu).1.addr
    have p3 := probes_readReg (hs u (hb.trans ha))
    exact p3.bind fun a v hv => Probes.pure _ _

/-- Everything `Detect()` can do. -/
theorem detect_cases (s : State) :
    (∃ t v, detect s = .ok () t ∧ Inited s t ∧ t.retries = s.retries ∧ Returned s t ∧ t.init = s.init ∧ t.variant = v) ∨
    (∃ t, detect s = .error () t ∧ Inited s t ∧ Hangs (InitCall s) s t ∧ t.init = s.init ∧ t.variant = s.variant) := by
  have hp := probes_probe (s0 := s) (s := s.forceSingleShot) rfl rfl rfl
  have hi : ∀ t, Talked (InitCall s) s.forceSingleShot t → t.err &&& ~~~0x0004#16 = s.err &&& ~~~0x0004#16 → Inited s.forceSingleShot t := 
    fun t h1 h2 => inited_of_talked h1 h2 rfl rfl rfl
  rw [detect, modify_bind]
  cases h : probe s.forceSingleShot with
  | ok v t =>
    obtain ⟨h1, h2⟩ := hp.1.1 _ _ h
    have h3 := hi t h1 (hp.2.1 _ _ h)
    rw [bind_ok h]
    left
    have hf := h1.frame
    refine ⟨_, v, rfl, ⟨?_, h3.err, h3.history, h3.script⟩, ?_, ?_, ?_, rfl⟩
    · rw [hf]; rfl
    · rw [hf]; rfl
    · exact ⟨h2.stuck, h2.taken⟩
    · rw [hf]; rfl
  | error e t =>
    obtain ⟨h1, h2⟩ := hp.1.2 _ _ h
    have h3 := hi t h1 (hp.2.2 _ _ h)
    rw [bind_error h]
    right
    have hf := h1.frame
    refine ⟨_, rfl, ⟨?_, h3.err, h3.history, h3.script⟩, ⟨h2.stuck, h2.taken⟩, ?_, ?_⟩
    · rw [hf]; rfl
    · rw [hf]; rfl
    · rw [hf]; rfl

/-- Everything `DetectOrForce()` can do. -/
theorem detectOrForce_cases (s : State) :
    (∃ t, detectOrForce s = .ok () t ∧ Inited s t ∧ t.retries = s.retries ∧ Returned s t ∧ t.init = s.init ∧ (s.forced ≠ .none → t.variant = forcedVariant s.forced)) ∨
    (∃ t, detectOrForce s = .error () t ∧ Inited s t ∧ Hangs (InitCall s) s t ∧ t.init = s.init ∧ t.variant = s.variant) := by
  by_cases hf : s.forced = .none
  · have he : detectOrForce s = detect s := by rw [detectOrForce, get_bind, hf]
    rw [he]
    rcases detect_cases s with ⟨t, v, h1, h2, h3, h4, h5, h6⟩ | h
    · exact .inl ⟨t, h1, h2, h3, h4, h5, fun h => absurd hf h⟩
    · exact .inr h
  · left
    exact ⟨_, detectOrForce_forced hf, ⟨rfl, rfl, ⟨[], by simp, by simp, by simp [Newly]⟩, List.suffix_rfl⟩, rfl, ⟨rfl, Taken.refl _⟩, rfl, fun _ => rfl⟩

/-- Everything the address-pin hook can do. -/
theorem pinHook_cases (s : State) :
    (∃ scr n evs, pinHook s = .ok () { s with script := scr, calls := n, history := s.history ++ evs } ∧ Taken s.script scr ∧ ∀ e ∈ evs, InitCall s e.call) ∨
    (∃ scr c, pinHook s = .error () { s with script := scr, stuck := some c } ∧ s.script = .never :: scr ∧ InitCall s c) := by
  unfold pinHook
  split
  · rcases busCall_cases (.hookPins (s.abits.getLsbD 0) (s.abits.getLsbD 1) (s.abits.getLsbD 2)) s with ⟨scr, n, hc, hs⟩ | ⟨scr, n, b, hc, hs⟩ | ⟨scr, hc, hs⟩ <;> rw [hc]
    · refine .inl ⟨scr, n, _, rfl, hs, fun e he => ?_⟩
      rw [List.mem_singleton] at he; subst he; exact .inr (.inr (.inr ⟨_, _, _, rfl⟩))
    · refine .inl ⟨scr, n, _, rfl, hs, fun e he => ?_⟩
      rw [List.mem_singleton] at he; subst he; exact .inr (.inr (.inr ⟨_, _, _, rfl⟩))
    · exact .inr ⟨scr, _, rfl, hs, .inr (.inr (.inr ⟨_, _, _, rfl⟩))⟩
  · exact .inl ⟨s.script, s.calls, [], by simp, Taken.refl _, by simp⟩

/-- Everything `EnsureInit()` can do. -/
theorem ensureInit_cases (s : State) :
    (s.init = true ∧ ensureInit s = .ok true s) ∨
    (s.init = false ∧ ∃ t, Inited s t ∧
      ((ensureInit s = .ok true t ∧ t.init = true ∧ t.retries = s.retries ∧ Returned s t ∧ (s.forced ≠ .none → t.variant = forcedVariant s.forced)) ∨
       (ensureInit s = .ok false t ∧ t = { s with script := t.script, calls := t.calls, history := t.history } ∧ Returned s t) ∨
       (ensureInit s = .error () t ∧ t.init = false ∧ t.variant = s.variant ∧ Hangs (InitCall s) s t))) := by
  rcases (Bool.eq_false_or_eq_true s.init).symm with hi | hi
  · right
    refine ⟨hi, ?_⟩
    rw [ensureInit, get_bind, if_neg (by rw [hi]; decide)]
    rcases pinHook_cases s with ⟨scr, n, evs, h1, h2, h3⟩ | ⟨scr, c, h1, h2, h3⟩
    · rw [bind_ok h1]
      have q1 := Inited.quiet (n := n) h2 h3
      generalize hs1 : ({ s with script := scr, calls := n, history := s.history ++ evs } : State) = s1
      have hfr : s1 = { s with script := s1.script, calls := s1.calls, history := s1.history } := by rw [← hs1]
      have r1 : Returned s s1 := ⟨by rw [hfr], by rw [← hs1]; exact h2⟩
      have hI : ∀ c, InitCall s1 c → InitCall s c := fun c h => by rw [hfr] at h; exact h
      rw [hs1] at q1
      rcases busCall_cases .hookInit s1 with ⟨scr', n', hc, hs⟩ | ⟨scr', n', b, hc, hs⟩ | ⟨scr', hc, hs⟩
      · rw [bind_ok hc]
        have q2 : Inited s1 _ := Inited.quiet (n := n') (evs := [⟨.hookInit, false, none⟩]) hs (by simp [InitCall])
        refine ⟨_, q1.trans q2, .inr (.inl ⟨rfl, ?_, r1.trans ⟨rfl, hs⟩⟩)⟩
        subst hs1; rfl
      · rw [bind_ok hc]
        have q2 : Inited s1 _ := Inited.quiet (n := n') (evs := [⟨.hookInit, true, none⟩]) hs (by simp [InitCall])
        simp only [BusCall.isRead, Bool.false_eq_true, if_false]
        generalize hs2 : ({ s1 with script := scr', calls := n', history := s1.history ++ [⟨.hookInit, true, none⟩] } : State) = s2
        have hf2 : s2 = { s1 with script := s2.script, calls := s2.calls, history := s2.history } := by rw [← hs2]
        have r2 : Returned s s2 := r1.trans ⟨by rw [hf2], by rw [← hs2]; exact hs⟩
        rw [hs2] at q2
        rcases detectOrForce_cases s2 with ⟨t, g1, g2, g3, g4, g5, g6⟩ | ⟨t, g1, g2, g3, g4, g5⟩
        · rw [bind_ok g1]
          have hq := (q1.trans q2).trans g2
          have r3 := r2.trans g4
          refine ⟨{ t with init := true }, ⟨?_, hq.err, hq.history, hq.script⟩, .inl ⟨rfl, rfl, ?_, ⟨r3.stuck, r3.taken⟩, ?_⟩⟩
          · rw [hq.frame]
          · exact g3.trans (by rw [hf2, hfr])
          · intro hf
            have e : s2.forced = s.forced := by rw [hf2, hfr]
            rw [← e]
            exact g6 (by rw [← e] at hf; exact hf)
        · rw [bind_error g1]
          have hq := (q1.trans q2).trans g2
          have hI2 : ∀ c, InitCall s2 c → InitCall s c := fun c h => hI c (by rw [hf2] at h; exact h)
          refine ⟨t, hq, .inr (.inr ⟨rfl, ?_, ?_, (g3.mono hI2).after r2.taken⟩)⟩
          · rw [g4, hf2, hfr]; exact hi
          · rw [g5, hf2, hfr]
      · rw [bind_error hc]
        have q2 := Inited.hung (c := .hookInit) hs
        refine ⟨_, q1.trans q2, .inr (.inr ⟨rfl, ?_, ?_, Hangs.after r1.taken (hangs_of_never hs (.inr (.inr (.inl rfl))))⟩)⟩
        · show s1.init = false; rw [hfr]; exact hi
        · show s1.variant = _; rw [hfr]
    · rw [bind_error h1]
      exact ⟨_, Inited.hung h2, .inr (.inr ⟨rfl, hi, rfl, hangs_of_never h2 h3⟩)⟩
  · left
    exact ⟨hi, by rw [ensureInit, get_bind, hi]; rfl⟩

/-- With a forced variant a lazy initialisation leaves the retry counts alone (40_control R140). -/
theorem ensureInit_forced_keeps {s : State} (hf : s.forced ≠ .none) :
    (∀ b t, ensureInit s = .ok b t → t.retries = s.retries ∧ t.savedRetries = s.savedRetries) ∧
    (∀ e t, ensureInit s = .error e t → t.retries = s.retries ∧ t.savedRetries = s.savedRetries) := by
  rcases (Bool.eq_false_or_eq_true s.init).symm with hi | hi
  · rw [ensureInit, get_bind, if_neg (by rw [hi]; decide)]
    rcases pinHook_cases s with ⟨scr, n, evs, h1, -, -⟩ | ⟨scr, c, h1, -, -⟩
    · rw [bind_ok h1]
      rcases busCall_cases .hookInit { s with script := scr, calls := n, history := s.history ++ evs } with
        ⟨scr', n', hc, -⟩ | ⟨scr', n', b, hc, -⟩ | ⟨scr', hc, -⟩
      · rw [bind_ok hc]
        refine ⟨fun b t ht => ?_, fun e t ht => by cases ht⟩
        cases ht
        exact ⟨rfl, rfl⟩
      · rw [bind_ok hc]
        simp only []
        rw [bind_ok (detectOrForce_forced (by exact hf))]
        refine ⟨fun b t ht => ?_, fun e t ht => by cases ht⟩
        cases ht
        exact ⟨rfl, rfl⟩
      · rw [bind_error hc]
        refine ⟨fun b t ht => (by cases ht), fun e t ht => ?_⟩
        cases ht
        exact ⟨rfl, rfl⟩
    · rw [bind_error h1]
      refine ⟨fun b t ht => (by cases ht), fun e t ht => ?_⟩
      cases ht
      exact ⟨rfl, rfl⟩
  · have he : ensureInit s = .ok true s := by rw [ensureInit, get_bind, hi]; rfl
    rw [he]
    refine ⟨fun b t ht => ?_, fun e t ht => by cases ht⟩
    cases ht
    exact ⟨rfl, rfl⟩

end Sys2Proof.Laws
end

