-- ==== Sys2Proof/Laws/Frame.lean ====
section
/-! SUPPORT. Everything the execution frame can do around a body (40_control R130), and the tables of the frame in the
terms the statements use. -/

namespace Sys2Proof.Laws

open Sys2Proof.Machine

theorem namedPins_eq (i : Instr) : namedPins i = pinOperands i := by cases i <;> rfl

theorem lazyCommand_eq (i : Instr) : lazyCommand i = (attr i).init := by cases i <;> rfl

theorem extendedCommand_eq (i : Instr) : extendedCommand i = (attr i).gated := by cases i <;> rfl

theorem any_pinInvalid_eq_false {ps : List Byte} (h : PinsValid ps) : ps.any pinInvalid = false := by
  simp [pinInvalid]
  exact h

theorem pinOperands_ok {i : Instr} (h : PinsValid (namedPins i)) :
    ((attr i).pins && (pinOperands i).any pinInvalid) = false := by
  rw [namedPins_eq] at h
  rw [any_pinInvalid_eq_false h]
  simp

theorem pinsValid_of_frame {i : Instr} (h : ((attr i).pins && (pinOperands i).any pinInvalid) = false) :
    PinsValid (namedPins i) := by
  rw [namedPins_eq]
  have h1 : pinOperands i = [] ∨ (attr i).pins = true := by cases i <;> simp [pinOperands, attr]
  rcases h1 with h1 | h1
  · rw [h1]
    exact fun p hp => absurd hp (by simp)
  · simpa [h1, pinInvalid] using h

theorem badAddress_of_lazy {i : Instr} (h : lazyCommand i = true) : badAddress i = false := by
  cases i <;> first | rfl | simp [lazyCommand] at h

theorem clearFlags_nil (s : State) : s.clearFlags [] = s := by
  show { s with err := s.err &&& BitVec.allOnes 16 } = s
  rw [BitVec.and_allOnes]

theorem settle_ok {m : Eff Response} {s t : State} {r : Response} (h : m s = .ok r t) :
    settle (m s) = { t with response := some r } := by
  rw [h]
  rfl

theorem settle_error {m : Eff Response} {s t : State} {e : Unit} (h : m s = .error e t) :
    settle (m s) = { t with response := none } := by
  rw [h]
  rfl

/-- The state in which the gate is checked: after the lazy initialisation, where the command has it. -/
def Prepared (i : Instr) (s u : State) : Prop :=
  (lazyCommand i = false ∧ u = s) ∨ (lazyCommand i = true ∧ ensureInit s = .ok true u)

/-- Everything a command can do: an illegal term answered, an invalid pin, an address out of range, an initialisation
that hangs or is not ready, the gate, or its body after the entry clear. -/
theorem frame_cases (i : Instr) (body : Eff Response) (s : State) :
    (i.wf = false ∧ frame i body s = .ok Response.failed s) ∨
    (frame i body s = .ok Response.failed (s.raiseFlag .invalidPin) ∧ ∃ p ∈ namedPins i, 16 ≤ p.toNat) ∨
    (frame i body s = .ok Response.failed (s.raiseFlag .invalidAddress) ∧
      ∃ a, i = .chaddr a ∧ (a.toNat < 0x20 ∨ 0x27 < a.toNat)) ∨
    (lazyCommand i = true ∧ ∃ e u, ensureInit s = .error e u ∧ frame i body s = .error e u) ∨
    (lazyCommand i = true ∧ ∃ u, ensureInit s = .ok false u ∧ frame i body s = .ok Response.failed u) ∨
    (∃ u, Prepared i s u ∧ extendedCommand i = true ∧ u.variant ≠ .extendedCapable ∧
      frame i body s = .ok Response.failed (u.raiseFlag .unsupportedFeature)) ∨
    (∃ u, Prepared i s u ∧ i.wf = true ∧ badAddress i = false ∧ PinsValid (namedPins i) ∧
      (extendedCommand i = true → u.variant = .extendedCapable) ∧
      frame i body s = body (u.clearFlags (attr i).clear)) := by
  rw [frame]
  by_cases hw : i.wf = false
  · left
    rw [if_pos hw]
    exact ⟨hw, rfl⟩
  right
  rw [if_neg hw]
  by_cases hp : ((attr i).pins && (pinOperands i).any pinInvalid) = true
  · left
    rw [if_pos hp]
    refine ⟨rfl, ?_⟩
    simp [pinInvalid] at hp
    rw [namedPins_eq]
    exact hp.2
  right
  rw [if_neg hp]
  by_cases ha : badAddress i = true
  · left
    rw [if_pos ha]
    refine ⟨rfl, ?_⟩
    cases i <;> simp [badAddress] at ha
    rename_i a
    refine ⟨a, rfl, ?_⟩
    simpa [BitVec.lt_def] using ha
  right
  rw [if_neg ha]
  have fin : ∀ u, Prepared i s u →
      (∃ u', Prepared i s u' ∧ extendedCommand i = true ∧ u'.variant ≠ .extendedCapable ∧
        gateAndRun (attr i) body u = .ok Response.failed (u'.raiseFlag .unsupportedFeature)) ∨
      (∃ u', Prepared i s u' ∧ i.wf = true ∧ badAddress i = false ∧ PinsValid (namedPins i) ∧
        (extendedCommand i = true → u'.variant = .extendedCapable) ∧
        gateAndRun (attr i) body u = body (u'.clearFlags (attr i).clear)) := by
    intro u hu
    by_cases hg : extendedCommand i = true ∧ u.variant ≠ .extendedCapable
    · left
      refine ⟨u, hu, hg.1, hg.2, ?_⟩
      rw [gateAndRun, if_pos (by rw [← extendedCommand_eq, hg.1]; simpa using hg.2)]
      rfl
    · right
      refine ⟨u, hu, by simpa using hw, by simpa using ha, pinsValid_of_frame (by simpa using hp),
        fun h => by_contra fun hc => hg ⟨h, hc⟩, ?_⟩
      rw [gateAndRun, if_neg (by rw [← extendedCommand_eq]; simpa using hg)]
  cases hl : lazyCommand i
  · right; right
    have : lazyInit (attr i) s = .ok true s := by
      rw [lazyInit, ← lazyCommand_eq, hl]
      rfl
    rw [initAndRun, bind_ok this, if_pos rfl]
    exact fin s (.inl ⟨hl, rfl⟩)
  · have hL : lazyInit (attr i) = ensureInit := by
      rw [lazyInit, ← lazyCommand_eq, hl]
      rfl
    rw [initAndRun, hL]
    cases he : ensureInit s with
    | error e u =>
      left
      rw [bind_error he]
      exact ⟨rfl, e, u, rfl, rfl⟩
    | ok b u =>
      rw [bind_ok he]
      cases b with
      | false => right; left; exact ⟨rfl, u, rfl, rfl⟩
      | true => rw [if_pos rfl]; right; right; exact fin u (.inr ⟨hl, he⟩)

/-- What is known of the state in which the gate is checked. -/
theorem Prepared.inited {i : Instr} {s u : State} (h : Prepared i s u) :
    Inited s u ∧ u.retries = s.retries ∧ Returned s u ∧ (lazyCommand i = true → u.init = true) ∧
    (s.init = true → u = s) ∧ (lazyCommand i = false → u = s) := by
  have hr : Inited s s := ⟨rfl, rfl, ⟨[], by simp, by simp, by simp [Newly]⟩, List.suffix_rfl⟩
  rcases h with ⟨h1, rfl⟩ | ⟨h1, h2⟩
  · exact ⟨hr, rfl, Returned.refl _, by simp [h1], fun _ => rfl, fun _ => rfl⟩
  · rcases ensureInit_cases s with ⟨h3, h4⟩ | ⟨h3, t, h4, ⟨h5, h6, h7, h8, h9⟩ | ⟨h5, h6⟩ | ⟨h5, -⟩⟩
    · rw [h4] at h2
      cases h2
      exact ⟨hr, rfl, Returned.refl _, fun _ => h3, fun _ => rfl, fun _ => rfl⟩
    · rw [h5] at h2
      cases h2
      exact ⟨h4, h7, h8, fun _ => h6, by simp [h3], by simp [h1]⟩
    · rw [h5] at h2
      cases h2
    · rw [h5] at h2
      cases h2

end Sys2Proof.Laws
end

