-- ==== Sys2Proof/Laws/Issued.lean ====
section
/-! SUPPORT. The calls an operation makes, in issue order, the one that never returns included (20_memory R51, R54):
of any operation that talks, and of the detection and the lazy initialisation one by one (40_control R131, R141,
R145); and which commands run a detection. -/

namespace Sys2Proof.Laws

open Sys2Proof.Machine

theorem Issued.completed {s t : State} {evs : List BusEvent} (h : t.history = s.history ++ evs)
    (hs : t.stuck = s.stuck) : Issued s t (evs.map fun e => e.call) :=
  ⟨evs, none, h, by simpa using hs, by simp⟩

theorem Issued.hung {s t : State} {evs : List BusEvent} {c : BusCall} (h : t.history = s.history ++ evs)
    (hs : t.stuck = some c) : Issued s t ((evs.map fun e => e.call) ++ [c]) :=
  ⟨evs, some c, h, by simpa using hs, by simp⟩

/-- Calls after completed ones. -/
theorem Issued.after {s t u : State} {evs : List BusEvent} {cs : List BusCall} (h : t.history = s.history ++ evs)
    (hs : t.stuck = s.stuck) (g : Issued t u cs) : Issued s u ((evs.map fun e => e.call) ++ cs) := by
  obtain ⟨evs', hung, g1, g2, rfl⟩ := g
  exact ⟨evs ++ evs', hung, by rw [g1, h, List.append_assoc], by rw [g2, hs], by simp⟩

theorem Talks.issued_ok {α : Type} {P : BusCall → Prop} {m : Eff α} {s t : State} {a : α} (h : Talks P m s)
    (hm : m s = .ok a t) : ∃ cs, Issued s t cs ∧ ∀ c ∈ cs, P c := by
  obtain ⟨h1, h2⟩ := h.1 a t hm
  obtain ⟨evs, h3, h4, -⟩ := h1.history
  exact ⟨_, Issued.completed h3 h2.stuck, by simpa using h4⟩

theorem Talks.issued_error {α : Type} {P : BusCall → Prop} {m : Eff α} {s t : State} {e : Unit} (h : Talks P m s)
    (hm : m s = .error e t) : ∃ cs, Issued s t cs ∧ ∀ c ∈ cs, P c := by
  obtain ⟨h1, ⟨c, h2, hc⟩, -⟩ := h.2 e t hm
  obtain ⟨evs, h3, h4, -⟩ := h1.history
  refine ⟨_, Issued.hung h3 h2, fun x hx => ?_⟩
  rcases List.mem_append.1 hx with hx | hx
  · obtain ⟨e, he, rfl⟩ := List.mem_map.1 hx
    exact h4 e he
  · rw [List.mem_singleton.1 hx]
    exact hc

/-- The three probe reads of a detection, in order. -/
def probeReads (s : State) : List BusCall :=
  [.read s.addr s.probeStd, .read s.addr s.probeExt, .read s.addr s.probeStd]

/-- What an operation makes: `ok` of its result and its completed calls, or `hung` of its calls with the hung one last. -/
def Makes {α : Type} (m : Eff α) (s : State) (ok : α → List BusCall → Prop) (hung : List BusCall → Prop) : Prop :=
  (∀ a t, m s = .ok a t → ∃ evs : List BusEvent, t.history = s.history ++ evs ∧ ok a (evs.map fun e => e.call)) ∧
  (∀ e t, m s = .error e t →
    ∃ (evs : List BusEvent) (c : BusCall), t.history = s.history ++ evs ∧ t.stuck = some c ∧
      hung ((evs.map fun e => e.call) ++ [c]))

theorem Makes.congr {α : Type} {m m' : Eff α} {s : State} {ok : α → List BusCall → Prop}
    {hung : List BusCall → Prop} (h : m s = m' s) (g : Makes m' s ok hung) : Makes m s ok hung := by
  rw [Makes, h]
  exact g

theorem Makes.pure {α : Type} {a : α} {s : State} {ok : α → List BusCall → Prop} {hung : List BusCall → Prop}
    (h : ok a []) : Makes (pure a : Eff α) s ok hung := by
  refine ⟨fun b t hb => ?_, fun e t hb => ?_⟩ <;> (rw [pure_run] at hb; cases hb)
  exact ⟨[], by simp, h⟩

/-- One read and what follows it. -/
theorem Makes.bind {α β : Type} {m : Eff α} {f : α → Eff β} {s : State} {ok' : α → List BusCall → Prop}
    {hung' : List BusCall → Prop} {ok : β → List BusCall → Prop} {hung : List BusCall → Prop}
    (h : Makes m s ok' hung') (hh : ∀ cs, hung' cs → hung cs)
    (g : ∀ a t cs, m s = .ok a t → ok' a cs →
      Makes (f a) t (fun b ds => ok b (cs ++ ds)) (fun ds => hung (cs ++ ds))) :
    Makes (m >>= f) s ok hung := by
  cases hm : m s with
  | ok a t =>
    obtain ⟨evs, h1, h2⟩ := h.1 a t hm
    obtain ⟨g1, g2⟩ := g a t _ hm h2
    rw [Makes, bind_ok hm]
    refine ⟨fun b u hu => ?_, fun e u hu => ?_⟩
    · obtain ⟨evs', k1, k2⟩ := g1 b u hu
      exact ⟨evs ++ evs', by rw [k1, h1, List.append_assoc], by simpa using k2⟩
    · obtain ⟨evs', c, k1, k2, k3⟩ := g2 e u hu
      exact ⟨evs ++ evs', c, by rw [k1, h1, List.append_assoc], k2, by simpa using k3⟩
  | error e t =>
    obtain ⟨evs, c, h1, h2, h3⟩ := h.2 e t hm
    rw [Makes, bind_error hm]
    refine ⟨by simp, fun e' u hu => ?_⟩
    cases hu
    exact ⟨evs, c, h1, h2, hh _ h3⟩

theorem readAttempts_one (r : Byte) (s : State) : readAttempts r 1 s = busRead r s := by
  rw [readAttempts]
  cases h : busRead r s with
  | ok a t => rw [bind_ok h]; cases a <;> rfl
  | error e t => rw [bind_error h]

/-- A single-shot read makes exactly one call (40_control R145). -/
theorem makes_readReg {r : Byte} {s : State} (h : s.retries = 0#8) :
    Makes (readReg r) s (fun _ cs => cs = [.read s.addr r]) (fun cs => cs = [.read s.addr r]) := by
  rw [Makes, readReg, get_bind, h]
  rw [show (0#8 : Byte).toNat + 1 = 1 from rfl]
  rcases busCall_cases (.read s.addr r) s with ⟨scr, k, hc, -⟩ | ⟨scr, k, b, hc, -⟩ | ⟨scr, hc, -⟩
  · rw [bind_ok ((readAttempts_one r s).trans hc)]
    refine ⟨fun a t ht => ?_, fun e t ht => by cases ht⟩
    cases ht
    exact ⟨[⟨.read s.addr r, false, none⟩], rfl, rfl⟩
  · rw [bind_ok ((readAttempts_one r s).trans hc)]
    refine ⟨fun a t ht => ?_, fun e t ht => by cases ht⟩
    cases ht
    exact ⟨[⟨.read s.addr r, true, some b⟩], rfl, rfl⟩
  · rw [bind_error ((readAttempts_one r s).trans hc)]
    refine ⟨fun a t ht => (by cases ht), fun e t ht => ?_⟩
    cases ht
    exact ⟨[], _, by simp, rfl, rfl⟩

/-- Everything the probe calls: a start of the three reads, all of them when it finds an extended bank. -/
theorem makes_probe {s : State} (h : s.retries = 0#8) :
    Makes probe s (fun v cs => cs <+: probeReads s ∧ (v = .extendedCapable → cs = probeReads s))
      (fun cs => cs <+: probeReads s) := by
  refine Makes.congr (m' := readReg s.probeStd >>= fun a => match a with
    | none => pure .unknown
    | some _ => do
      let r2 ← readReg s.probeExt
      let r3 ← readReg s.probeStd
      pure (detectOutcome r2.isSome r3.isSome)) rfl ?_
  refine (makes_readReg h).bind (by rintro cs rfl; exact ⟨_, rfl⟩) fun a t cs ht hcs => ?_
  subst hcs
  have f1 := ((talks_readReg (P := fun _ => True) trivial).1 _ _ ht).1.frame
  have a1 : t.addr = s.addr := by rw [f1]
  have r1 : t.retries = 0#8 := by rw [f1]; exact h
  cases a with
  | none => exact Makes.pure ⟨⟨_, rfl⟩, by simp⟩
  | some b =>
    refine (makes_readReg r1).bind (by rintro cs rfl; rw [a1]; exact ⟨_, rfl⟩) fun a u cs hu hcs => ?_
    subst hcs
    have f2 := ((talks_readReg (P := fun _ => True) trivial).1 _ _ hu).1.frame
    have a2 : u.addr = s.addr := by rw [f2]; exact a1
    have r2 : u.retries = 0#8 := by rw [f2]; exact r1
    refine (makes_readReg r2).bind (by rintro cs rfl; rw [a1, a2]; exact ⟨_, rfl⟩) fun a v cs hv hcs => ?_
    subst hcs
    refine Makes.pure ?_
    rw [a1, a2]
    exact ⟨⟨_, rfl⟩, fun _ => rfl⟩

/-- The calls of a detection (40_control R145), and that one which finds an extended bank made all three. -/
theorem detect_calls (s : State) :
    (∀ t, detect s = .ok () t → ∃ evs : List BusEvent, t.history = s.history ++ evs ∧
      (evs.map fun e => e.call) <+: probeReads s ∧
      (t.variant = .extendedCapable → (evs.map fun e => e.call) = probeReads s)) ∧
    (∀ t, detect s = .error () t → ∃ (evs : List BusEvent) (c : BusCall), t.history = s.history ++ evs ∧
      t.stuck = some c ∧ ((evs.map fun e => e.call) ++ [c]) <+: probeReads s) := by
  have h := makes_probe (s := s.forceSingleShot) rfl
  rw [detect, modify_bind]
  cases hp : probe s.forceSingleShot with
  | ok v t =>
    rw [bind_ok hp]
    refine ⟨fun u hu => ?_, fun u hu => by cases hu⟩
    cases hu
    exact h.1 v t hp
  | error e t =>
    rw [bind_error hp]
    refine ⟨fun u hu => (by cases hu), fun u hu => ?_⟩
    cases hu
    exact h.2 _ t hp

/-- The calls of a detection or of a forced variant: none when a variant is forced (40_control R140, R145). -/
theorem detectOrForce_calls (s : State) :
    (∀ t, detectOrForce s = .ok () t → ∃ evs : List BusEvent, t.history = s.history ++ evs ∧
      (evs.map fun e => e.call) <+: probeReads s ∧ (s.forced ≠ .none → evs = []) ∧
      (s.forced = .none → t.variant = .extendedCapable → (evs.map fun e => e.call) = probeReads s)) ∧
    (∀ t, detectOrForce s = .error () t → s.forced = .none ∧
      ∃ (evs : List BusEvent) (c : BusCall), t.history = s.history ++ evs ∧
        t.stuck = some c ∧ ((evs.map fun e => e.call) ++ [c]) <+: probeReads s) := by
  by_cases hf : s.forced = .none
  · have he : detectOrForce s = detect s := by rw [detectOrForce, get_bind, hf]
    rw [he]
    obtain ⟨h1, h2⟩ := detect_calls s
    refine ⟨fun t ht => ?_, fun t ht => ⟨hf, h2 t ht⟩⟩
    obtain ⟨evs, k1, k2, k3⟩ := h1 t ht
    exact ⟨evs, k1, k2, fun h => absurd hf h, fun _ => k3⟩
  · rw [detectOrForce_forced hf]
    refine ⟨fun t ht => ?_, fun t ht => by cases ht⟩
    cases ht
    exact ⟨[], by simp, List.nil_prefix, fun _ => rfl, fun h => absurd h hf⟩

/-- The calls of a lazy initialisation: the hooks, then those of the detection (40_control R131, 70_reset R353). -/
theorem ensureInit_calls (s : State) :
    (∀ b t, ensureInit s = .ok b t → ∃ hooks probes : List BusEvent, t.history = s.history ++ (hooks ++ probes) ∧
      (∀ e ∈ hooks, callReg e.call = none) ∧ (probes.map fun e => e.call) <+: probeReads s ∧
      (probes ≠ [] → s.init = false ∧ s.forced = .none) ∧
      (b = true → s.init = false → s.forced = .none → t.variant = .extendedCapable →
        (probes.map fun e => e.call) = probeReads s)) ∧
    (∀ t, ensureInit s = .error () t → ∃ hooks probes : List BusCall, Issued s t (hooks ++ probes) ∧
      (∀ c ∈ hooks, callReg c = none) ∧ probes <+: probeReads s ∧
      (probes ≠ [] → s.init = false ∧ s.forced = .none)) := by
  rcases (Bool.eq_false_or_eq_true s.init).symm with hi | hi
  · rw [ensureInit, get_bind, if_neg (by rw [hi]; decide)]
    have hook : (∀ u t, pinHook s = .ok u t → ∃ evs : List BusEvent, (∀ e ∈ evs, callReg e.call = none) ∧
          ∃ scr n, t = { s with script := scr, calls := n, history := s.history ++ evs }) ∧
        (∀ u t, pinHook s = .error u t → ∃ c, callReg c = none ∧ t.history = s.history ∧ t.stuck = some c) := by
      unfold pinHook
      split
      · rcases busCall_cases (.hookPins (s.abits.getLsbD 0) (s.abits.getLsbD 1) (s.abits.getLsbD 2)) s with
          ⟨scr, n, hc, -⟩ | ⟨scr, n, b, hc, -⟩ | ⟨scr, hc, -⟩ <;> rw [hc]
        · refine ⟨fun u t ht => ?_, fun u t ht => by cases ht⟩
          cases ht
          exact ⟨[_], by rw [List.forall_mem_singleton]; rfl, scr, n, rfl⟩
        · refine ⟨fun u t ht => ?_, fun u t ht => by cases ht⟩
          cases ht
          exact ⟨[_], by rw [List.forall_mem_singleton]; rfl, scr, n, rfl⟩
        · refine ⟨fun u t ht => (by cases ht), fun u t ht => ?_⟩
          cases ht
          exact ⟨_, rfl, rfl, rfl⟩
      · refine ⟨fun u t ht => ?_, fun u t ht => by cases ht⟩
        cases ht
        exact ⟨[], by simp, s.script, s.calls, by simp⟩
    cases hp : pinHook s with
    | error e u =>
      obtain ⟨c, h1, h2, h3⟩ := hook.2 _ _ hp
      rw [bind_error hp]
      refine ⟨fun b t ht => (by cases ht), fun t ht => ?_⟩
      cases ht
      exact ⟨[c], [], by simpa using Issued.hung (evs := []) (by simpa using h2) h3, by simpa using h1,
        List.nil_prefix, by simp⟩
    | ok x s1 =>
      obtain ⟨evs, h1, scr, n, rfl⟩ := hook.1 _ _ hp
      rw [bind_ok hp]
      rcases busCall_cases .hookInit { s with script := scr, calls := n, history := s.history ++ evs } with
        ⟨scr', n', hc, -⟩ | ⟨scr', n', b, hc, -⟩ | ⟨scr', hc, -⟩
      · rw [bind_ok hc]
        refine ⟨fun b t ht => ?_, fun t ht => by cases ht⟩
        cases ht
        refine ⟨evs ++ [⟨.hookInit, false, none⟩], [], by simp, ?_, List.nil_prefix, by simp, by simp⟩
        intro e he
        rcases List.mem_append.1 he with he | he
        · exact h1 e he
        · rw [List.mem_singleton.1 he]; rfl
      · rw [bind_ok hc]
        simp only [BusCall.isRead, Bool.false_eq_true, if_false]
        generalize hs2 : ({ s with script := scr', calls := n', history := s.history ++ evs ++ [⟨.hookInit, true, none⟩] } : State) = s2
        have hh : s2.history = s.history ++ (evs ++ [⟨.hookInit, true, none⟩]) := by rw [← hs2]; simp
        have hk : s2.stuck = s.stuck := by rw [← hs2]
        have hf : s2.forced = s.forced := by rw [← hs2]
        have hr : probeReads s2 = probeReads s := by rw [← hs2]; rfl
        have hooks : ∀ e ∈ evs ++ [⟨.hookInit, true, none⟩], callReg e.call = none := by
          intro e he
          rcases List.mem_append.1 he with he | he
          · exact h1 e he
          · rw [List.mem_singleton.1 he]; rfl
        obtain ⟨d1, d2⟩ := detectOrForce_calls s2
        rw [hr, hf] at d1
        rw [hr, hf] at d2
        cases hd : detectOrForce s2 with
        | ok y t =>
          obtain ⟨ps, k1, k2, k3, k4⟩ := d1 t hd
          rw [bind_ok hd]
          refine ⟨fun b u hu => ?_, fun u hu => by cases hu⟩
          cases hu
          refine ⟨_, ps, by rw [← List.append_assoc, ← hh]; exact k1, hooks, k2, fun hne => ⟨hi, ?_⟩,
            fun _ _ h => k4 h⟩
          exact by_contra fun h => hne (k3 h)
        | error y t =>
          obtain ⟨hn, ps, c, k1, k2, k3⟩ := d2 t hd
          rw [bind_error hd]
          refine ⟨fun b u hu => (by cases hu), fun u hu => ?_⟩
          cases hu
          exact ⟨_, _, Issued.after hh hk (Issued.hung k1 k2), List.forall_mem_map.2 hooks, k3, fun _ => ⟨hi, hn⟩⟩
      · rw [bind_error hc]
        refine ⟨fun b t ht => (by cases ht), fun t ht => ?_⟩
        cases ht
        refine ⟨(evs.map fun e => e.call) ++ [.hookInit], [], ?_, ?_, List.nil_prefix, by simp⟩
        · rw [List.append_nil]
          exact Issued.hung rfl rfl
        · intro c hx
          rcases List.mem_append.1 hx with hx | hx
          · obtain ⟨e, he, rfl⟩ := List.mem_map.1 hx
            exact h1 e he
          · rw [List.mem_singleton.1 hx]; rfl
  · have he : ensureInit s = .ok true s := by rw [ensureInit, get_bind, hi]; rfl
    rw [he]
    refine ⟨fun b t ht => ?_, fun t ht => by cases ht⟩
    cases ht
    exact ⟨[], [], by simp, by simp, List.nil_prefix, by simp, fun _ h => by rw [hi] at h; cases h⟩

/-! Which commands run a detection (40_control R131, R140, R161, R166). -/

theorem runsDetection_detect {s : State} : RunsDetection .detect s ↔ s.forced = .none := by
  simp [RunsDetection]

theorem runsDetection_chaddr {a : Byte} {s : State} :
    RunsDetection (.chaddr a) s ↔ s.forced = .none ∧ 0x20 ≤ a.toNat ∧ a.toNat ≤ 0x27 := by
  simp [RunsDetection, lazyCommand]

theorem runsDetection_lazy {i : Instr} {s : State} (hl : lazyCommand i = true) :
    RunsDetection i s ↔ s.forced = .none ∧ s.init = false := by
  have h1 : i ≠ .detect := by
    rintro rfl
    simp [lazyCommand] at hl
  have h2 : ∀ a, i ≠ .chaddr a := by
    rintro a rfl
    simp [lazyCommand] at hl
  simp [RunsDetection, h1, h2, hl]

/-- The management and callback commands without the init attribute, DETECT and CHADDR apart, run none. -/
theorem not_runsDetection {i : Instr} {s : State} (hl : lazyCommand i = false) (h1 : i ≠ .detect)
    (h2 : ∀ a, i ≠ .chaddr a) : ¬ RunsDetection i s := by
  simp [RunsDetection, h1, h2, hl]

end Sys2Proof.Laws
end

