-- ==== Sys2Proof/Laws/PerInstr.lean ====
section
/-! SUPPORT. The family EncodedLength: the words of a well-formed command are as many as its opcode word says
(30_encoding R106), one lemma a constructor of Instr. -/

namespace Sys2Proof.Laws

/-- The command's words are one word that gives their number, and the words it counts (30_encoding R106). -/
def EncodedLength.Statement (i : Instr) : Prop :=
  i.wf = true → ∃ w ws, encode i = w :: ws ∧ commandLength w = 1 + ws.length

/-- A command of one word whose opcode is not a list's. -/
theorem encodedLength_one {w : Word} {op : Byte} (h : opcodeOf w = op) (hl : isListOpcode op = false) :
    commandLength w = 1 + ([] : List Word).length := by
  rw [commandLength, h, hl]
  rfl

/-- A list command whose header counts its elements. -/
theorem encodedLength_list {α : Type} {op : Byte} {as : List α} {f : α → Word} (hl : isListOpcode op = true)
    (h : decide (as.length ≤ maxList) = true) :
    commandLength (wordL op as.length) = 1 + (as.map f).length := by
  rw [commandLength, opcodeOf_L, hl, countOf_L _ _ (by simpa using h), List.length_map]
  rfl

theorem EncodedLength.init :
    EncodedLength.Statement .init :=
  fun _ => ⟨_, _, rfl, encodedLength_one (opcodeOf_N ..) rfl⟩

theorem EncodedLength.detect :
    EncodedLength.Statement .detect :=
  fun _ => ⟨_, _, rfl, encodedLength_one (opcodeOf_N ..) rfl⟩

theorem EncodedLength.setretry (n : Byte) :
    EncodedLength.Statement (.setretry n) :=
  fun _ => ⟨_, _, rfl, encodedLength_one (opcodeOf_N ..) rfl⟩

theorem EncodedLength.geterr :
    EncodedLength.Statement .geterr :=
  fun _ => ⟨_, _, rfl, encodedLength_one (opcodeOf_N ..) rfl⟩

theorem EncodedLength.clrerr (m : Half) :
    EncodedLength.Statement (.clrerr m) :=
  fun _ => ⟨_, _, rfl, encodedLength_one (opcodeOf_N ..) rfl⟩

theorem EncodedLength.getvar :
    EncodedLength.Statement .getvar :=
  fun _ => ⟨_, _, rfl, encodedLength_one (opcodeOf_N ..) rfl⟩

theorem EncodedLength.hasext :
    EncodedLength.Statement .hasext :=
  fun _ => ⟨_, _, rfl, encodedLength_one (opcodeOf_N ..) rfl⟩

theorem EncodedLength.getaddr :
    EncodedLength.Statement .getaddr :=
  fun _ => ⟨_, _, rfl, encodedLength_one (opcodeOf_N ..) rfl⟩

theorem EncodedLength.chaddr (a : Byte) :
    EncodedLength.Statement (.chaddr a) :=
  fun _ => ⟨_, _, rfl, encodedLength_one (opcodeOf_N ..) rfl⟩

theorem EncodedLength.dir (pin : Byte) (v : Bool) :
    EncodedLength.Statement (.dir pin v) :=
  fun _ => ⟨_, _, rfl, encodedLength_one (opcodeOf_P ..) rfl⟩

theorem EncodedLength.dirm (mask : Half) (v : Bool) :
    EncodedLength.Statement (.dirm mask v) :=
  fun _ => ⟨_, _, rfl, encodedLength_one (opcodeOf_M ..) rfl⟩

theorem EncodedLength.dirl (es : List PinBit) :
    EncodedLength.Statement (.dirl es) :=
  fun h => ⟨_, _, rfl, encodedLength_list rfl h⟩

theorem EncodedLength.rdpin (pin : Byte) :
    EncodedLength.Statement (.rdpin pin) :=
  fun _ => ⟨_, _, rfl, encodedLength_one (opcodeOf_P ..) rfl⟩

theorem EncodedLength.rdpinl (pins : List Byte) :
    EncodedLength.Statement (.rdpinl pins) :=
  fun h => ⟨_, _, rfl, encodedLength_list rfl h⟩

theorem EncodedLength.wrpin (pin : Byte) (v : Bool) :
    EncodedLength.Statement (.wrpin pin v) :=
  fun _ => ⟨_, _, rfl, encodedLength_one (opcodeOf_P ..) rfl⟩

theorem EncodedLength.wrpinl (es : List PinBit) :
    EncodedLength.Statement (.wrpinl es) :=
  fun h => ⟨_, _, rfl, encodedLength_list rfl h⟩

theorem EncodedLength.tglpin (pin : Byte) :
    EncodedLength.Statement (.tglpin pin) :=
  fun _ => ⟨_, _, rfl, encodedLength_one (opcodeOf_P ..) rfl⟩

theorem EncodedLength.pol (pin : Byte) (v : Bool) :
    EncodedLength.Statement (.pol pin v) :=
  fun _ => ⟨_, _, rfl, encodedLength_one (opcodeOf_P ..) rfl⟩

theorem EncodedLength.polm (mask : Half) (v : Bool) :
    EncodedLength.Statement (.polm mask v) :=
  fun _ => ⟨_, _, rfl, encodedLength_one (opcodeOf_M ..) rfl⟩

theorem EncodedLength.poll (es : List PinBit) :
    EncodedLength.Statement (.poll es) :=
  fun h => ⟨_, _, rfl, encodedLength_list rfl h⟩

theorem EncodedLength.rstdef :
    EncodedLength.Statement .rstdef :=
  fun _ => ⟨_, _, rfl, encodedLength_one (opcodeOf_N ..) rfl⟩

theorem EncodedLength.puen (pin : Byte) (v : Bool) :
    EncodedLength.Statement (.puen pin v) :=
  fun _ => ⟨_, _, rfl, encodedLength_one (opcodeOf_P ..) rfl⟩

theorem EncodedLength.puenm (mask : Half) (v : Bool) :
    EncodedLength.Statement (.puenm mask v) :=
  fun _ => ⟨_, _, rfl, encodedLength_one (opcodeOf_M ..) rfl⟩

theorem EncodedLength.puenl (es : List PinBit) :
    EncodedLength.Statement (.puenl es) :=
  fun h => ⟨_, _, rfl, encodedLength_list rfl h⟩

theorem EncodedLength.pusel (pin : Byte) (v : Bool) :
    EncodedLength.Statement (.pusel pin v) :=
  fun _ => ⟨_, _, rfl, encodedLength_one (opcodeOf_P ..) rfl⟩

theorem EncodedLength.puselm (mask : Half) (v : Bool) :
    EncodedLength.Statement (.puselm mask v) :=
  fun _ => ⟨_, _, rfl, encodedLength_one (opcodeOf_M ..) rfl⟩

theorem EncodedLength.pusell (es : List PinBit) :
    EncodedLength.Statement (.pusell es) :=
  fun h => ⟨_, _, rfl, encodedLength_list rfl h⟩

theorem EncodedLength.drv (pin : Byte) (v : BitVec 2) :
    EncodedLength.Statement (.drv pin v) :=
  fun _ => ⟨_, _, rfl, encodedLength_one (opcodeOf_P ..) rfl⟩

theorem EncodedLength.drvl (es : List PinLevel) :
    EncodedLength.Statement (.drvl es) :=
  fun h => ⟨_, _, rfl, encodedLength_list rfl h⟩

theorem EncodedLength.drvget (pin : Byte) :
    EncodedLength.Statement (.drvget pin) :=
  fun _ => ⟨_, _, rfl, encodedLength_one (opcodeOf_P ..) rfl⟩

theorem EncodedLength.latch (pin : Byte) (v : Bool) :
    EncodedLength.Statement (.latch pin v) :=
  fun _ => ⟨_, _, rfl, encodedLength_one (opcodeOf_P ..) rfl⟩

theorem EncodedLength.latchm (mask : Half) (v : Bool) :
    EncodedLength.Statement (.latchm mask v) :=
  fun _ => ⟨_, _, rfl, encodedLength_one (opcodeOf_M ..) rfl⟩

theorem EncodedLength.latchl (es : List PinBit) :
    EncodedLength.Statement (.latchl es) :=
  fun h => ⟨_, _, rfl, encodedLength_list rfl h⟩

theorem EncodedLength.intcfg (pin : Byte) (v : Bool) :
    EncodedLength.Statement (.intcfg pin v) :=
  fun _ => ⟨_, _, rfl, encodedLength_one (opcodeOf_P ..) rfl⟩

theorem EncodedLength.intcfgl (es : List PinBit) :
    EncodedLength.Statement (.intcfgl es) :=
  fun h => ⟨_, _, rfl, encodedLength_list rfl h⟩

theorem EncodedLength.intmask (m : Half) :
    EncodedLength.Statement (.intmask m) :=
  fun _ => ⟨_, _, rfl, encodedLength_one (opcodeOf_N ..) rfl⟩

theorem EncodedLength.intstat :
    EncodedLength.Statement .intstat :=
  fun _ => ⟨_, _, rfl, encodedLength_one (opcodeOf_N ..) rfl⟩

theorem EncodedLength.omode (od0 od1 : Bool) :
    EncodedLength.Statement (.omode od0 od1) :=
  fun _ => ⟨_, _, rfl, encodedLength_one (opcodeOf_N ..) rfl⟩

theorem EncodedLength.cbreg (pin id : Byte) (edge : Edge) :
    EncodedLength.Statement (.cbreg pin id edge) :=
  fun _ => ⟨_, _, rfl, encodedLength_one (opcodeOf_C ..) rfl⟩

theorem EncodedLength.cbunreg (pin : Byte) :
    EncodedLength.Statement (.cbunreg pin) :=
  fun _ => ⟨_, _, rfl, encodedLength_one (opcodeOf_P ..) rfl⟩

theorem EncodedLength.cbglobal (id : Byte) :
    EncodedLength.Statement (.cbglobal id) :=
  fun _ => ⟨_, _, rfl, encodedLength_one (opcodeOf_N ..) rfl⟩

theorem EncodedLength.handle :
    EncodedLength.Statement .handle :=
  fun _ => ⟨_, _, rfl, encodedLength_one (opcodeOf_N ..) rfl⟩

end Sys2Proof.Laws
end

