-- ==== Sys2Proof/Tests/Slice0.lean ====
section
/-! SUPPORT. Tests: ill-formed terms refused, words decoded, one step an instruction, and for each statement with
hypotheses a state that meets them. The expected words, calls and values are those of spec/95_test_vectors.md (its
id stands in each docstring). -/

namespace Sys2Proof.Tests

set_option Elab.async false

open Sys2Proof.Machine

/-! Start states and calls, in the notation of 95_test_vectors. -/

def sFresh : State := State.reset
def sStd : State := { State.reset with init := true, variant := .standardOnly }
def sExt : State := { State.reset with init := true, variant := .extendedCapable }
def withEntry (s : State) (p : Byte) (e : CbEntry) : State := s.setCallback p e
def rd (r b : Byte) : BusEvent := ⟨.read 0x20#7 r, true, some b⟩
def rdX (r : Byte) : BusEvent := ⟨.read 0x20#7 r, false, none⟩
def wr (r b : Byte) : BusEvent := ⟨.write 0x20#7 r b, true, none⟩
def wrX (r b : Byte) : BusEvent := ⟨.write 0x20#7 r b, false, none⟩
def hi : BusEvent := ⟨.hookInit, true, none⟩
def hiX : BusEvent := ⟨.hookInit, false, none⟩

/-- `s` with the answers the oracle gives next. -/
def given (s : State) (script : List Answer) : State := { s with script := script }

/-- One step on a command's words with the given answers. -/
def after (s : State) (ws : List Word) (script : List Answer) : State :=
  match step ({ s with port := ws, script := script }) with
  | .next t => t
  | .fault _ => s
  | .refused _ => s

/-- One step makes exactly these calls, takes all the answers, and gives this response and flag word. -/
def ran (s : State) (ws : List Word) (script : List Answer) (calls : List BusEvent) (ok : Bool) (value err : Half) :
    Bool :=
  match step ({ s with port := ws, script := script }) with
  | .next t => t.history == calls && t.response == some ⟨ok, value⟩ && t.err == err && t.stuck.isNone
  | .fault _ => false
  | .refused _ => false

/-! Well-formedness: each check refuses an ill-formed term. -/

theorem test_wf_refuses_long_dirl : (Instr.dirl (List.replicate 256 ⟨0#8, false⟩)).wf = false := by decide +kernel

theorem test_wf_refuses_long_rdpinl : (Instr.rdpinl (List.replicate 256 0#8)).wf = false := by decide +kernel

theorem test_wf_refuses_long_wrpinl : (Instr.wrpinl (List.replicate 256 ⟨0#8, false⟩)).wf = false := by decide +kernel

theorem test_wf_refuses_long_poll : (Instr.poll (List.replicate 256 ⟨0#8, false⟩)).wf = false := by decide +kernel

theorem test_wf_refuses_long_puenl : (Instr.puenl (List.replicate 256 ⟨0#8, false⟩)).wf = false := by decide +kernel

theorem test_wf_refuses_long_pusell : (Instr.pusell (List.replicate 256 ⟨0#8, false⟩)).wf = false := by decide +kernel

theorem test_wf_refuses_long_drvl : (Instr.drvl (List.replicate 256 ⟨0#8, 0#2⟩)).wf = false := by decide +kernel

theorem test_wf_refuses_long_latchl : (Instr.latchl (List.replicate 256 ⟨0#8, false⟩)).wf = false := by decide +kernel

theorem test_wf_refuses_long_intcfgl : (Instr.intcfgl (List.replicate 256 ⟨0#8, false⟩)).wf = false := by decide +kernel

theorem test_wf_refuses_handle_zero : (Instr.cbreg 0#8 0#8 .rising).wf = false := by decide

theorem test_wf_accepts_longest_list : (Instr.drvl (List.replicate 255 ⟨0#8, 3#2⟩)).wf = true := by decide +kernel

/-! Decoding. -/

/-- Words of 95_test_vectors and 30_encoding R113 of the management family, laid out by R102 and R105. -/
theorem test_decode_management :
    decode [0x01000000#32] = .ok (.init, []) ∧
    decode [0x02000000#32] = .ok (.detect, []) ∧
    decode [0x030000FF#32] = .ok (.setretry 0xFF#8, []) ∧
    decode [0x04000000#32] = .ok (.geterr, []) ∧
    decode [0x0500FFFF#32] = .ok (.clrerr 0xFFFF#16, []) ∧
    decode [0x06000000#32] = .ok (.getvar, []) ∧
    decode [0x07000000#32] = .ok (.hasext, []) ∧
    decode [0x08000000#32] = .ok (.getaddr, []) ∧
    decode [0x09000021#32] = .ok (.chaddr 0x21#8, []) := by
  and_intros <;> decide +kernel

/-- Words of 95_test_vectors and 30_encoding R113 of the standard family, laid out by R102 and R105. -/
theorem test_decode_standard :
    decode [0x10030000#32] = .ok (.dir 3#8 false, []) ∧
    decode [0x110100FF#32] = .ok (.dirm 0x00FF#16 true, []) ∧
    decode [0x12000002#32, 0x00000000#32, 0x00000901#32] = .ok (.dirl [⟨0#8, false⟩, ⟨9#8, true⟩], []) ∧
    decode [0x13080000#32] = .ok (.rdpin 8#8, []) ∧
    decode [0x14000002#32, 0x00000000#32, 0x00000F00#32] = .ok (.rdpinl [0#8, 15#8], []) ∧
    decode [0x15FF0001#32] = .ok (.wrpin 255#8 true, []) ∧
    decode [0x16000001#32, 0x00000E00#32] = .ok (.wrpinl [⟨14#8, false⟩], []) ∧
    decode [0x17090000#32] = .ok (.tglpin 9#8, []) ∧
    decode [0x18020001#32] = .ok (.pol 2#8 true, []) ∧
    decode [0x19018000#32] = .ok (.polm 0x8000#16 true, []) ∧
    decode [0x1A000000#32] = .ok (.poll [], []) ∧
    decode [0x1B000000#32] = .ok (.rstdef, []) := by
  and_intros <;> decide +kernel

/-- Words of 95_test_vectors and 30_encoding R113 of the extended family, laid out by R102 and R105. -/
theorem test_decode_extended :
    decode [0x200C0001#32] = .ok (.puen 12#8 true, []) ∧
    decode [0x2101FFFF#32] = .ok (.puenm 0xFFFF#16 true, []) ∧
    decode [0x22000001#32, 0x00000F01#32] = .ok (.puenl [⟨15#8, true⟩], []) ∧
    decode [0x23070000#32] = .ok (.pusel 7#8 false, []) ∧
    decode [0x24000100#32] = .ok (.puselm 0x0100#16 false, []) ∧
    decode [0x25000001#32, 0x00000300#32] = .ok (.pusell [⟨3#8, false⟩], []) ∧
    decode [0x26050001#32] = .ok (.drv 5#8 1#2, []) ∧
    decode [0x27000003#32, 0x00000000#32, 0x00000102#32, 0x00000C01#32] = .ok (.drvl [⟨0#8, 0#2⟩, ⟨1#8, 2#2⟩, ⟨12#8, 1#2⟩], []) ∧
    decode [0x28050000#32] = .ok (.drvget 5#8, []) ∧
    decode [0x29000001#32] = .ok (.latch 0#8 true, []) ∧
    decode [0x2A0100F0#32] = .ok (.latchm 0x00F0#16 true, []) ∧
    decode [0x2B000001#32, 0x00000901#32] = .ok (.latchl [⟨9#8, true⟩], []) ∧
    decode [0x2C000001#32] = .ok (.intcfg 0#8 true, []) ∧
    decode [0x2D000001#32, 0x00000801#32] = .ok (.intcfgl [⟨8#8, true⟩], []) ∧
    decode [0x2E00FFFE#32] = .ok (.intmask 0xFFFE#16, []) ∧
    decode [0x2F000000#32] = .ok (.intstat, []) ∧
    decode [0x30000001#32] = .ok (.omode true false, []) ∧
    decode [0x30000002#32] = .ok (.omode false true, []) := by
  and_intros <;> decide +kernel

/-- Words of 95_test_vectors and 30_encoding R113 of the dispatch family, laid out by R102 and R105. -/
theorem test_decode_dispatch :
    decode [0x40040301#32] = .ok (.cbreg 4#8 3#8 .falling, []) ∧
    decode [0x40010202#32] = .ok (.cbreg 1#8 2#8 .both, []) ∧
    decode [0x41030000#32] = .ok (.cbunreg 3#8, []) ∧
    decode [0x42000007#32] = .ok (.cbglobal 7#8, []) ∧
    decode [0x43000000#32] = .ok (.handle, []) := by
  and_intros <;> decide +kernel

/-- One word a family, field by field as R102 lays it out: N `op 0 imm`; M `op 0 v mask`; P `op pin 0 v`;
C `op pin id 0 edge`. -/
theorem test_decode_bits :
    decode [0b00000011_00000000_0000000000000010#32] = .ok (.setretry 2#8, []) ∧
    decode [0b00011001_0000000_1_1000000000000000#32] = .ok (.polm 0x8000#16 true, []) ∧
    decode [0b00100110_00001111_00000000000000_11#32] = .ok (.drv 15#8 3#2, []) ∧
    decode [0b01000000_00000100_00000011_000000_01#32] = .ok (.cbreg 4#8 3#8 .falling, []) := by
  and_intros <;> decide +kernel

/-- The illegal words of 95_test_vectors L2.2, each refused by its name (R107). -/
theorem test_decode_illegal :
    decode [0x00000000#32] = .error .unassignedOpcode ∧
    decode [0xFF000000#32] = .error .unassignedOpcode ∧
    decode [0x0A000000#32] = .error .unassignedOpcode ∧
    decode [0x10030002#32] = .error .operandRange ∧
    decode [0x13000001#32] = .error .operandRange ∧
    decode [0x10030100#32] = .error .reservedField ∧
    decode [0x43000001#32] = .error .operandRange ∧
    decode [0x03000100#32] = .error .operandRange ∧
    decode [0x30000004#32] = .error .operandRange ∧
    decode [0x40000000#32] = .error .operandRange ∧
    decode [0x40000103#32] = .error .operandRange ∧
    decode [0x11020000#32] = .error .reservedField ∧
    decode [0x01010000#32] = .error .reservedField ∧
    decode [0x12000001#32, 0x00010000#32] = .error .reservedField ∧
    decode [0x27000001#32, 0x00000004#32] = .error .reservedField := by
  and_intros <;> decide +kernel

/-- An illegal word on a fresh block returns (0, 0) with no call and no initialisation (R108, L2.2). -/
theorem test_illegal_word_changes_nothing :
    ran { sFresh with err := 0x0010#16 } [0x10030002#32] [.ok 0#8] [] false 0x0000#16 0x0010#16 = true ∧
    (after sFresh [0x10030002#32] [.ok 0#8]).init = false := by decide +kernel

/-- A table word of one instruction, and one longer than its 32 given bits: the rest are 0 (log 26). -/
theorem test_table_words :
    decodeTableWord 32 0x10030000 = some (.dir 3#8 false) ∧
    decodeTableWord 32 0x12000002 = some (.dirl [⟨0#8, false⟩, ⟨0#8, false⟩]) ∧
    decodeTableWord 64 0x0000090112000001 = some (.dirl [⟨9#8, true⟩]) ∧
    decodeTableWord 32 0x40000000 = none := by
  and_intros <;> decide +kernel

/-! One step an instruction. -/

/-- C1 (R141, R160). -/
theorem test_init_standard :
    ran sFresh [0x01000000#32] [.ok 0#8, .ok 0x00#8, .fail, .ok 0x00#8] [hi, rd 0x00#8 0x00#8, rdX 0x40#8,
      rd 0x00#8 0x00#8] true 0x0000#16 0x0000#16 = true ∧
    (after sFresh [0x01000000#32] [.ok 0#8, .ok 0#8, .fail, .ok 0#8]).variant = .standardOnly := by decide +kernel

/-- C4 (R160). -/
theorem test_init_not_ready :
    ran sFresh [0x01000000#32] [.fail] [hiX] false 0x0000#16 0x0000#16 = true ∧
    (after sFresh [0x01000000#32] [.fail]).init = false := by decide +kernel

/-- L1.11 (R143, R161). -/
theorem test_detect_extended :
    ran sStd [0x02000000#32] [.ok 0x00#8, .ok 0xFF#8, .ok 0x00#8] [rd 0x00#8 0x00#8, rd 0x40#8 0xFF#8,
      rd 0x00#8 0x00#8] true 0x0002#16 0x0000#16 = true := by decide +kernel

/-- L1.11 (R143, R144). -/
theorem test_detect_first_read_fails :
    ran sExt [0x02000000#32] [.fail] [rdX 0x00#8] false 0x0000#16 0x0004#16 = true ∧
    (after sExt [0x02000000#32] [.fail]).retries = 1#8 := by decide +kernel

/-- C9 (R162). -/
theorem test_setretry :
    ran sStd [0x03000002#32] [] [] true 0x0000#16 0x0000#16 = true ∧
    (after sStd [0x03000002#32] []).retries = 2#8 := by decide +kernel

/-- C11 (R163). -/
theorem test_geterr :
    ran ({ sStd with err := 1#16 }) [0x04000000#32] [] [] true 0x0001#16 0x0001#16 = true := by decide +kernel

/-- C12 (R164). -/
theorem test_clrerr :
    ran ({ sStd with err := 0x000C#16 }) [0x05000004#32] [] [] true 0x0000#16 0x0008#16 = true := by decide +kernel

/-- C14 (R165). -/
theorem test_getvar :
    ran sFresh [0x06000000#32] [] [] true 0x0000#16 0x0000#16 = true := by decide +kernel

/-- R165. -/
theorem test_getvar_extended :
    ran sExt [0x06000000#32] [] [] true 0x0002#16 0x0000#16 = true := by decide +kernel

/-- C15 (R167). -/
theorem test_hasext :
    ran sExt [0x07000000#32] [] [] true 0x0001#16 0x0000#16 = true := by decide +kernel

/-- C16 (R167). -/
theorem test_hasext_standard :
    ran sStd [0x07000000#32] [] [] true 0x0000#16 0x0000#16 = true := by decide +kernel

/-- C17 (R168, 10_state R39). -/
theorem test_getaddr :

          ran (State.construct { defaultParams with addrSpec := .pins true false true }) [0x08000000#32] [] [] true 0x0025#16 0x0000#16 = true := by decide +kernel

/-- C19 (R168, 10_state R39). -/
theorem test_getaddr_clamped :

          ran (State.construct { defaultParams with addrSpec := .direct 0x7F#8 }) [0x08000000#32] [] [] true 0x0027#16 0x0000#16 = true := by decide +kernel

/-- L1.10 (R166). -/
theorem test_chaddr_out_of_range :
    ran sExt [0x09000019#32] [] [] false 0x0000#16 0x0020#16 = true := by decide +kernel

/-- C22 (R166). -/
theorem test_chaddr_not_ready :
    ran ({ sExt with err := 0x20#16 }) [0x09000027#32] [.fail] [hiX] false 0x0000#16 0x0000#16 = true ∧
    (after sExt [0x09000027#32] [.fail]).addr = 0x27#7 ∧ (after sExt [0x09000027#32] [.fail]).variant = .unknown := by decide +kernel

/-- S3 (R180). -/
theorem test_dir_port1 :
    ran sStd [0x10080000#32] [.ok 0xFF#8, .ok 0#8] [rd 0x07#8 0xFF#8,
      wr 0x07#8 0xFE#8] true 0x0000#16 0x0000#16 = true := by decide +kernel

/-- P1 step 1 (R131, R180). -/
theorem test_dir_lazy :
    ran sFresh [0x10030000#32] [.ok 0#8, .ok 0x00#8, .fail, .ok 0x00#8, .ok 0xFF#8, .ok 0#8] [hi, rd 0x00#8 0x00#8,
      rdX 0x40#8, rd 0x00#8 0x00#8, rd 0x06#8 0xFF#8, wr 0x06#8 0xF7#8] true 0x0000#16 0x0000#16 = true := by decide +kernel

/-- S5 (R181). -/
theorem test_dirm :
    ran sStd [0x11000F0F#32] [.ok 0xFF#8, .ok 0xFF#8, .ok 0#8, .ok 0#8] [rd 0x06#8 0xFF#8, rd 0x07#8 0xFF#8,
      wr 0x06#8 0xF0#8, wr 0x07#8 0xF0#8] true 0x0000#16 0x0000#16 = true := by decide +kernel

/-- L1.12 (20_memory R69, R70). -/
theorem test_dirm_partial :
    ran sStd [0x11000101#32] [.ok 0xFF#8, .ok 0xFF#8, .ok 0#8, .fail, .fail] [rd 0x06#8 0xFF#8, rd 0x07#8 0xFF#8,
      wr 0x06#8 0xFE#8, wrX 0x07#8 0xFE#8, wrX 0x07#8 0xFE#8] false 0x0000#16 0x0008#16 = true := by decide +kernel

/-- L1.4 (R182). -/
theorem test_dirl :
    ran sStd [0x12000003#32, 0x00000000#32, 0x00000901#32, 0x00000300#32] [.ok 0xFF#8, .ok 0xFF#8, .ok 0#8,
      .ok 0#8] [rd 0x06#8 0xFF#8, rd 0x07#8 0xFF#8, wr 0x06#8 0xF6#8,
      wr 0x07#8 0xFF#8] true 0x0000#16 0x0000#16 = true := by decide +kernel

/-- S8 (R183). -/
theorem test_dirl_last_wins :
    ran sStd [0x12000002#32, 0x00000001#32, 0x00000000#32] [.ok 0xFF#8, .ok 0xFF#8, .ok 0#8,
      .ok 0#8] [rd 0x06#8 0xFF#8, rd 0x07#8 0xFF#8, wr 0x06#8 0xFE#8,
      wr 0x07#8 0xFF#8] true 0x0000#16 0x0000#16 = true := by decide +kernel

/-- S10 (R185). -/
theorem test_rdpin :
    ran sStd [0x13080000#32] [.ok 0x01#8] [rd 0x01#8 0x01#8] true 0x0001#16 0x0000#16 = true := by decide +kernel

/-- T1 (20_memory R60). -/
theorem test_rdpin_retries :
    ran sStd [0x13000000#32] [.fail, .ok 0x01#8] [rdX 0x00#8, rd 0x00#8 0x01#8] true 0x0001#16 0x0000#16 = true := by decide +kernel

/-- S11 (R186). -/
theorem test_rdpinl :
    ran sStd [0x14000003#32, 0x00000000#32, 0x00000F00#32, 0x00000300#32] [.ok 0x01#8, .ok 0x80#8] [rd 0x00#8 0x01#8,
      rd 0x01#8 0x80#8] true 0x8001#16 0x0000#16 = true := by decide +kernel

/-- S13 (R186). -/
theorem test_rdpinl_fails :
    ran sStd [0x14000001#32, 0x00000000#32] [.fail, .fail] [rdX 0x00#8, rdX 0x00#8] false 0x0000#16 0x0004#16 = true := by decide +kernel

/-- S14 (R187). -/
theorem test_wrpin :
    ran sStd [0x15000000#32] [.ok 0xFF#8, .ok 0#8] [rd 0x02#8 0xFF#8,
      wr 0x02#8 0xFE#8] true 0x0000#16 0x0000#16 = true := by decide +kernel

/-- T3 (20_memory R61). -/
theorem test_wrpin_fails :
    ran ({ sStd with retries := 0#8 }) [0x15000001#32] [.ok 0xFE#8, .fail] [rd 0x02#8 0xFE#8,
      wrX 0x02#8 0xFF#8] false 0x0000#16 0x0008#16 = true := by decide +kernel

/-- S15 (R188). -/
theorem test_wrpinl :
    ran sStd [0x16000002#32, 0x00000100#32, 0x00000E00#32] [.ok 0xFF#8, .ok 0xFF#8, .ok 0#8,
      .ok 0#8] [rd 0x02#8 0xFF#8, rd 0x03#8 0xFF#8, wr 0x02#8 0xFD#8,
      wr 0x03#8 0xBF#8] true 0x0000#16 0x0000#16 = true := by decide +kernel

/-- S16 (R189). -/
theorem test_tglpin :
    ran sStd [0x170F0000#32] [.ok 0x00#8, .ok 0#8] [rd 0x03#8 0x00#8,
      wr 0x03#8 0x80#8] true 0x0000#16 0x0000#16 = true := by decide +kernel

/-- L1.3 (R189). -/
theorem test_tglpin_back :
    ran sStd [0x17090000#32] [.ok 0x5A#8, .ok 0#8] [rd 0x03#8 0x5A#8,
      wr 0x03#8 0x58#8] true 0x0000#16 0x0000#16 = true := by decide +kernel

/-- S17 (R192). -/
theorem test_pol :
    ran sStd [0x18020001#32] [.ok 0x00#8, .ok 0#8] [rd 0x04#8 0x00#8,
      wr 0x04#8 0x04#8] true 0x0000#16 0x0000#16 = true := by decide +kernel

/-- S18 (R193). -/
theorem test_polm :
    ran sStd [0x19018000#32] [.ok 0x00#8, .ok 0x00#8, .ok 0#8, .ok 0#8] [rd 0x04#8 0x00#8, rd 0x05#8 0x00#8,
      wr 0x04#8 0x00#8, wr 0x05#8 0x80#8] true 0x0000#16 0x0000#16 = true := by decide +kernel

/-- S19 (R194). -/
theorem test_poll :
    ran sStd [0x1A000002#32, 0x00000000#32, 0x00000801#32] [.ok 0xFF#8, .ok 0x00#8, .ok 0#8,
      .ok 0#8] [rd 0x04#8 0xFF#8, rd 0x05#8 0x00#8, wr 0x04#8 0xFE#8,
      wr 0x05#8 0x01#8] true 0x0000#16 0x0000#16 = true := by decide +kernel

/-- S20 (R200). -/
theorem test_rstdef_standard :
    ran sStd [0x1B000000#32] [.ok 0#8, .ok 0#8, .ok 0#8, .ok 0#8, .ok 0#8, .ok 0#8] [wr 0x02#8 0xFF#8,
      wr 0x03#8 0xFF#8, wr 0x04#8 0x00#8, wr 0x05#8 0x00#8, wr 0x06#8 0xFF#8,
      wr 0x07#8 0xFF#8] true 0x0000#16 0x0000#16 = true := by decide +kernel

/-- S21 (R200). -/
theorem test_rstdef_extended :
    ran sExt [0x1B000000#32] [.ok 0#8, .ok 0#8, .ok 0#8, .ok 0#8, .ok 0#8, .ok 0#8, .ok 0#8, .ok 0#8, .ok 0#8,
      .ok 0#8, .ok 0#8, .ok 0#8, .ok 0#8, .ok 0#8, .ok 0#8, .ok 0#8, .ok 0#8, .ok 0#8, .ok 0#8] [wr 0x02#8 0xFF#8,
      wr 0x03#8 0xFF#8, wr 0x04#8 0x00#8, wr 0x05#8 0x00#8, wr 0x06#8 0xFF#8, wr 0x07#8 0xFF#8, wr 0x40#8 0xFF#8,
      wr 0x41#8 0xFF#8, wr 0x42#8 0xFF#8, wr 0x43#8 0xFF#8, wr 0x44#8 0x00#8, wr 0x45#8 0x00#8, wr 0x46#8 0xFF#8,
      wr 0x47#8 0xFF#8, wr 0x48#8 0xFF#8, wr 0x49#8 0xFF#8, wr 0x4A#8 0xFF#8, wr 0x4B#8 0xFF#8,
      wr 0x4F#8 0x00#8] true 0x0000#16 0x0000#16 = true := by decide +kernel

/-- E1 (R240). -/
theorem test_puen :
    ran sExt [0x200C0001#32] [.ok 0x00#8, .ok 0#8] [rd 0x47#8 0x00#8,
      wr 0x47#8 0x10#8] true 0x0000#16 0x0000#16 = true := by decide +kernel

/-- 60_exceptions R325. -/
theorem test_puen_dead_bus :
    ran sFresh [0x20000001#32] [.ok 0#8, .fail] [hi, rdX 0x00#8] false 0x0000#16 0x0014#16 = true := by decide +kernel

/-- E2 (R241). -/
theorem test_puenm :
    ran sExt [0x2101FFFF#32] [.ok 0x00#8, .ok 0x00#8, .ok 0#8, .ok 0#8] [rd 0x46#8 0x00#8, rd 0x47#8 0x00#8,
      wr 0x46#8 0xFF#8, wr 0x47#8 0xFF#8] true 0x0000#16 0x0000#16 = true := by decide +kernel

/-- E3 (R242). -/
theorem test_puenl :
    ran sExt [0x22000002#32, 0x00000001#32, 0x00000F01#32] [.ok 0x00#8, .ok 0x00#8, .ok 0#8,
      .ok 0#8] [rd 0x46#8 0x00#8, rd 0x47#8 0x00#8, wr 0x46#8 0x01#8,
      wr 0x47#8 0x80#8] true 0x0000#16 0x0000#16 = true := by decide +kernel

/-- E4 (R244). -/
theorem test_pusel :
    ran sExt [0x23070000#32] [.ok 0xFF#8, .ok 0#8] [rd 0x48#8 0xFF#8,
      wr 0x48#8 0x7F#8] true 0x0000#16 0x0000#16 = true := by decide +kernel

/-- E5 (R245). -/
theorem test_puselm :
    ran sExt [0x24000100#32] [.ok 0xFF#8, .ok 0xFF#8, .ok 0#8, .ok 0#8] [rd 0x48#8 0xFF#8, rd 0x49#8 0xFF#8,
      wr 0x48#8 0xFF#8, wr 0x49#8 0xFE#8] true 0x0000#16 0x0000#16 = true := by decide +kernel

/-- E6 (R246). -/
theorem test_pusell :
    ran sExt [0x25000001#32, 0x00000300#32] [.ok 0xFF#8, .ok 0xFF#8, .ok 0#8, .ok 0#8] [rd 0x48#8 0xFF#8,
      rd 0x49#8 0xFF#8, wr 0x48#8 0xF7#8, wr 0x49#8 0xFF#8] true 0x0000#16 0x0000#16 = true := by decide +kernel

/-- E8 (R250). -/
theorem test_drv :
    ran sExt [0x260F0000#32] [.ok 0xFF#8, .ok 0#8] [rd 0x43#8 0xFF#8,
      wr 0x43#8 0x3F#8] true 0x0000#16 0x0000#16 = true := by decide +kernel

/-- L1.7 (R230). -/
theorem test_drv_gated :
    ran sStd [0x26000003#32] [] [] false 0x0000#16 0x0010#16 = true := by decide +kernel

/-- E9 (R251). -/
theorem test_drvl :
    ran sExt [0x27000003#32, 0x00000000#32, 0x00000102#32, 0x00000C01#32] [.ok 0xFF#8, .ok 0xFF#8, .ok 0#8,
      .ok 0#8] [rd 0x40#8 0xFF#8, rd 0x43#8 0xFF#8, wr 0x40#8 0xF8#8,
      wr 0x43#8 0xFD#8] true 0x0000#16 0x0000#16 = true := by decide +kernel

/-- E12 (R251). -/
theorem test_drvl_read_fails :
    ran sExt [0x27000002#32, 0x00000000#32, 0x00000C00#32] [.ok 0xFF#8, .fail, .fail] [rd 0x40#8 0xFF#8, rdX 0x43#8,
      rdX 0x43#8] false 0x0000#16 0x0004#16 = true := by decide +kernel

/-- E13 (R252). -/
theorem test_drvget :
    ran sExt [0x28050000#32] [.ok 0xF7#8] [rd 0x41#8 0xF7#8] true 0x0001#16 0x0000#16 = true := by decide +kernel

/-- E14 (R255). -/
theorem test_latch :
    ran sExt [0x29000001#32] [.ok 0x00#8, .ok 0#8] [rd 0x44#8 0x00#8,
      wr 0x44#8 0x01#8] true 0x0000#16 0x0000#16 = true := by decide +kernel

/-- E15 (R256). -/
theorem test_latchm :
    ran sExt [0x2A0100F0#32] [.ok 0x00#8, .ok 0x00#8, .ok 0#8, .ok 0#8] [rd 0x44#8 0x00#8, rd 0x45#8 0x00#8,
      wr 0x44#8 0xF0#8, wr 0x45#8 0x00#8] true 0x0000#16 0x0000#16 = true := by decide +kernel

/-- E16 (R257). -/
theorem test_latchl :
    ran sExt [0x2B000001#32, 0x00000901#32] [.ok 0x00#8, .ok 0x00#8, .ok 0#8, .ok 0#8] [rd 0x44#8 0x00#8,
      rd 0x45#8 0x00#8, wr 0x44#8 0x00#8, wr 0x45#8 0x02#8] true 0x0000#16 0x0000#16 = true := by decide +kernel

/-- E17 (R260). -/
theorem test_intcfg_enable :
    ran sExt [0x2C000001#32] [.ok 0xFF#8, .ok 0#8] [rd 0x4A#8 0xFF#8,
      wr 0x4A#8 0xFE#8] true 0x0000#16 0x0000#16 = true := by decide +kernel

/-- E18 (R260). -/
theorem test_intcfg_disable :
    ran sExt [0x2C000000#32] [.ok 0xFE#8, .ok 0#8] [rd 0x4A#8 0xFE#8,
      wr 0x4A#8 0xFF#8] true 0x0000#16 0x0000#16 = true := by decide +kernel

/-- E19 (R261). -/
theorem test_intcfgl :
    ran sExt [0x2D000002#32, 0x00000001#32, 0x00000801#32] [.ok 0xFF#8, .ok 0xFF#8, .ok 0#8,
      .ok 0#8] [rd 0x4A#8 0xFF#8, rd 0x4B#8 0xFF#8, wr 0x4A#8 0xFE#8,
      wr 0x4B#8 0xFE#8] true 0x0000#16 0x0000#16 = true := by decide +kernel

/-- E20 (R262). -/
theorem test_intmask :
    ran sExt [0x2E00FFFE#32] [.ok 0#8, .ok 0#8] [wr 0x4A#8 0xFE#8, wr 0x4B#8 0xFF#8] true 0x0000#16 0x0000#16 = true := by decide +kernel

/-- E21 (R262). -/
theorem test_intmask_fails :
    ran sExt [0x2E000000#32] [.fail, .fail] [wrX 0x4A#8 0x00#8, wrX 0x4A#8 0x00#8] false 0x0000#16 0x0008#16 = true := by decide +kernel

/-- E22 (R265). -/
theorem test_intstat :
    ran sExt [0x2F000000#32] [.ok 0x01#8, .ok 0x00#8] [rd 0x4C#8 0x01#8,
      rd 0x4D#8 0x00#8] true 0x0001#16 0x0000#16 = true := by decide +kernel

/-- E24 (R270). -/
theorem test_omode_port0 :
    ran sExt [0x30000001#32] [.ok 0#8] [wr 0x4F#8 0x01#8] true 0x0000#16 0x0000#16 = true := by decide +kernel

/-- E25 (R270). -/
theorem test_omode_port1 :
    ran sExt [0x30000002#32] [.ok 0#8] [wr 0x4F#8 0x02#8] true 0x0000#16 0x0000#16 = true := by decide +kernel

/-- I1 (R290). -/
theorem test_cbreg :
    ran sStd [0x40000100#32] [.ok 0x01#8, .ok 0x00#8] [rd 0x00#8 0x01#8,
      rd 0x01#8 0x00#8] true 0x0000#16 0x0000#16 = true ∧
    (after sStd [0x40000100#32] [.ok 1#8, .ok 0#8]).cbt[0] = ⟨true, 1#8, .rising⟩ ∧
    (after sStd [0x40000100#32] [.ok 1#8, .ok 0#8]).snap = 0x0001#16 := by decide +kernel

/-- I2 (R290). -/
theorem test_cbreg_read_fails :
    ran sStd [0x40020500#32] [.fail, .fail] [rdX 0x00#8, rdX 0x00#8] false 0x0000#16 0x0004#16 = true ∧
    (after sStd [0x40020500#32] [.fail, .fail]).cbt[2] = ⟨true, 5#8, .rising⟩ := by decide +kernel

/-- I4 (R292). -/
theorem test_cbunreg :
    ran (withEntry sFresh 3 ⟨true, 4#8, .both⟩) [0x41030000#32] [] [] true 0x0000#16 0x0000#16 = true ∧
    (after (withEntry sFresh 3 ⟨true, 4#8, .both⟩) [0x41030000#32] []).cbt[3] = ⟨false, 0#8, .rising⟩ := by decide +kernel

/-- I5 (R294). -/
theorem test_cbglobal :
    ran sStd [0x42000007#32] [] [] true 0x0000#16 0x0000#16 = true ∧
    (after sStd [0x42000007#32] []).gcb = 7#8 := by decide +kernel

/-- I10 (R300 to R303). -/
theorem test_handle_software :
    ran (withEntry (withEntry { sStd with gcb := 9#8 } 0 ⟨true, 1#8, .rising⟩) 1 ⟨true, 2#8,
      .rising⟩) [0x43000000#32] [.ok 0x03#8, .ok 0x00#8] [rd 0x00#8 0x03#8,
      rd 0x01#8 0x00#8] true 0x0003#16 0x0000#16 = true ∧
    (after (withEntry (withEntry { sStd with gcb := 9#8 } 0 ⟨true, 1#8, .rising⟩) 1 ⟨true, 2#8, .rising⟩)
      [0x43000000#32] [.ok 3#8, .ok 0#8]).events =
      [.globalCB 9#8 0x0003#16, .pinCB 1#8 0#4 true, .pinCB 2#8 1#4 true] := by decide +kernel

/-- P3 step 7 (R300 to R303). -/
theorem test_handle_status :
    ran (withEntry { sExt with snap := 0x0211#16 } 4 ⟨true, 3#8, .falling⟩) [0x43000000#32] [.ok 0x10#8, .ok 0x00#8,
      .ok 0x01#8, .ok 0x02#8] [rd 0x4C#8 0x10#8, rd 0x4D#8 0x00#8, rd 0x00#8 0x01#8,
      rd 0x01#8 0x02#8] true 0x0010#16 0x0000#16 = true ∧
    (after (withEntry { sExt with snap := 0x0211#16 } 4 ⟨true, 3#8, .falling⟩)
      [0x43000000#32] [.ok 0x10#8, .ok 0#8, .ok 1#8, .ok 2#8]).events = [.pinCB 3#8 4#4 false] := by decide +kernel


/-! Witnesses: for each statement with hypotheses, states and operands that meet them all, at the ends of their ranges.
The answer scripts are the shapes the statements name; `P` is what the statement assumes of the state besides. -/

/-- The hypotheses of a `ReadCommand` statement, both clauses, at the last permitted attempt. -/
def meetsRead (s : State) (P : State → Prop) [DecidablePred P] : Bool :=
  let n := s.retries.toNat
  let s1 := given s (okAnswers n 0xA5#8 ++ [Answer.fail])
  let s2 := given s (failAnswers n ++ [Answer.never])
  (decide (P s1) && decide (n ≤ s1.retries.toNat) && s1.script == okAnswers n 0xA5#8 ++ [Answer.fail]) &&
  (decide (P s2) && s2.script == failAnswers s2.retries.toNat ++ [Answer.never])

/-- The hypotheses of a statement on one read and one write, or on two reads or two writes, all three clauses. -/
def meetsTwo (s : State) (P : State → Prop) [DecidablePred P] : Bool :=
  let n := s.retries.toNat
  let s1 := given s (okAnswers 0 0xA5#8 ++ okAnswers n 0x5A#8 ++ [Answer.fail])
  let s2 := given s (failAnswers n ++ [Answer.never])
  let s3 := given s (okAnswers n 0xFF#8 ++ failAnswers n ++ ([] : List Answer))
  (decide (P s1) && decide (n ≤ s1.retries.toNat) &&
    s1.script == okAnswers 0 0xA5#8 ++ okAnswers n 0x5A#8 ++ [Answer.fail]) &&
  (decide (P s2) && s2.script == failAnswers s2.retries.toNat ++ [Answer.never]) &&
  (decide (P s3) && decide (n ≤ s3.retries.toNat) &&
    s3.script == okAnswers n 0xFF#8 ++ failAnswers s3.retries.toNat ++ ([] : List Answer))

/-- The hypotheses of a `PairModifyCommand` statement or of four reads, all five clauses. -/
def meetsFour (s : State) (P : State → Prop) [DecidablePred P] : Bool :=
  let n := s.retries.toNat
  let a := okAnswers 0 0xA5#8
  let b := okAnswers n 0x5A#8
  let s1 := given s (a ++ b ++ b ++ a ++ [Answer.fail])
  let s2 := given s (failAnswers n ++ [Answer.never])
  let s3 := given s (b ++ failAnswers n ++ ([] : List Answer))
  let s4 := given s (a ++ b ++ failAnswers n ++ ([] : List Answer))
  let s5 := given s (b ++ b ++ a ++ failAnswers n ++ [Answer.ok 0#8])
  (decide (P s1) && decide (n ≤ s1.retries.toNat) && s1.script == a ++ b ++ b ++ a ++ [Answer.fail]) &&
  (decide (P s2) && s2.script == failAnswers s2.retries.toNat ++ [Answer.never]) &&
  (decide (P s3) && decide (n ≤ s3.retries.toNat) && s3.script == b ++ failAnswers s3.retries.toNat ++ ([] : List Answer)) &&
  (decide (P s4) && decide (n ≤ s4.retries.toNat) && s4.script == a ++ b ++ failAnswers s4.retries.toNat ++ ([] : List Answer)) &&
  (decide (P s5) && decide (n ≤ s5.retries.toNat) &&
    s5.script == b ++ b ++ a ++ failAnswers s5.retries.toNat ++ [Answer.ok 0#8])

/-- An initialised ExtendedCapable block with the given retry count. -/
def extWith (n : Byte) : State := { sExt with retries := n }

/-- A fresh block with the address-pin hook and a forced variant or none. -/
def freshHook (f : Forced) : State := { sFresh with hasPinHook := true, forced := f }

theorem witness_EveryStepKeepsTheInvariant :
    (sStd.addr = 0x20#7 ||| sStd.abits.setWidth 7 ∧ sStd.err &&& 0xFFC2#16 = 0#16 ∧
      (∀ p : Fin 16, sStd.cbt[p].reg = true ↔ sStd.cbt[p].id ≠ 0#8) ∧
      (sStd.init = false → sStd.variant = .unknown) ∧
      (sStd.init = true → sStd.forced ≠ .none → sStd.variant = forcedVariant sStd.forced)) ∧
    (match step ({ sStd with port := [0x06000000#32] }) with
      | .next t => t.response == some ⟨true, 1#16⟩
      | .fault _ => false
      | .refused _ => false) = true := by decide +kernel

theorem witness_DecodingAnEncodedCommandGivesItBack :
    (Instr.cbreg 255#8 255#8 .both).wf = true ∧ (Instr.rdpinl []).wf = true := by decide

theorem witness_DecodedWordsAreTheEncoding :
    decode [0x26FF0003#32, 0xFFFFFFFF#32] = .ok (.drv 255#8 3#2, [0xFFFFFFFF#32]) := by decide +kernel

theorem witness_StepRunsTheDecodedCommand :
    let s : State := { sFresh with port := [0x14000001#32, 0x0000FF00#32, 0x01000000#32] }
    s.stuck = none ∧ decode s.port = .ok (.rdpinl [255#8], [0x01000000#32]) := by decide +kernel

/-- Clause 1 on an unassigned word and on a list with an illegal element; clause 2 on opcodes 0x00, 0x0A and 0xFF. -/
theorem witness_IllegalCommandChangesNothing :
    (let s : State := { sStd with port := [0xFF000000#32] }
     s.stuck = none ∧ s.port = 0xFF000000#32 :: [] ∧ commandLength 0xFF000000#32 ≤ 0 + 1 ∧
       decode (0xFF000000#32 :: []) = .error .unassignedOpcode) ∧
    (let s : State := { sStd with port := [0x12000001#32, 0x00010000#32] }
     s.stuck = none ∧ s.port = 0x12000001#32 :: [0x00010000#32] ∧ commandLength 0x12000001#32 ≤ 1 + 1 ∧
       decode (0x12000001#32 :: [0x00010000#32]) = .error .reservedField) ∧
    (0xFF000000#32 : Word).extractLsb' 24 8 = 0xFF#8 ∧ (0x00000000#32 : Word).extractLsb' 24 8 = 0x00#8 ∧
    (0x0A000000#32 : Word).extractLsb' 24 8 = 0x0A#8 := by decide +kernel

theorem witness_EngineIdlesOrStaysHung :
    (sStd.stuck = none ∧ sStd.port = []) ∧
    (let s : State := { sStd with port := [0x120000FF#32] }
     s.stuck = none ∧ s.port = 0x120000FF#32 :: [] ∧ 0 + 1 < commandLength 0x120000FF#32) ∧
    (let s : State := { sStd with stuck := some .hookInit }
     s.stuck = some .hookInit) := by decide +kernel

/-- DIRM takes an answer that never comes and hangs; RDPIN leaves one for the next command and completes. -/
theorem witness_HungCommandGivesNoResponse :
    let t := after sStd [0x11000101#32] [.ok 0#8, .never, .fail]
    let u := after sStd [0x13080000#32] [.fail, .ok 1#8, .never]
    sStd.stuck = none ∧ t.stuck = some (.read 0x20#7 0x07#8) ∧ t.script = [.fail] ∧ t.response = none ∧
    u.stuck = none ∧ u.script = [.never] ∧ u.response = some ⟨true, 1#16⟩ := by
  decide +kernel

theorem witness_CommandsCompleteWhenTheTransportAnswers :
    sFresh.stuck = none ∧ sFresh.NoHang ∧ (given sExt [.fail, .ok 0#8, .fail]).NoHang := by decide +kernel

/-- A success at the last attempt and a failure of all, with RETRIES 0 and 1. -/
theorem witness_ReadTransactionStopsAtItsFirstSuccess :
    (match readReg 0#8 (given sStd [.fail, .ok 7#8]) with
      | .ok r _ => r == some 7#8
      | .error _ _ => false) = true ∧
    (match readReg 0#8 (given (extWith 0#8) [.fail]) with
      | .ok r _ => r == none
      | .error _ _ => false) = true := by decide +kernel

theorem witness_WriteTransactionStopsAtItsFirstSuccess :
    (match writeReg 2#8 9#8 (given sStd [.fail, .ok 0#8]) with
      | .ok r _ => r == true
      | .error _ _ => false) = true ∧
    (match writeReg 2#8 9#8 (given (extWith 0#8) [.fail]) with
      | .ok r _ => r == false
      | .error _ _ => false) = true := by decide +kernel

/-- The pin of a command word and the pin of an element, at 16 and at 255. -/
theorem witness_InvalidPinTurnsTheCommandAway :
    ((Instr.dir 16#8 true).wf = true ∧ 16#8 ∈ namedPins (.dir 16#8 true) ∧ 16 ≤ (16#8 : Byte).toNat) ∧
    ((Instr.drvl [⟨3#8, 1#2⟩, ⟨255#8, 0#2⟩]).wf = true ∧
      255#8 ∈ namedPins (.drvl [⟨3#8, 1#2⟩, ⟨255#8, 0#2⟩]) ∧ 16 ≤ (255#8 : Byte).toNat) := by decide

/-- The three clauses: a detection of three reads, a forced variant, a transport that is not ready; with the hook. -/
theorem witness_LazyInitialisationRunsFirst :
    (Instr.puen 15#8 true).wf = true ∧ lazyCommand (.puen 15#8 true) = true ∧
    PinsValid (namedPins (.puen 15#8 true)) ∧
    (let s := given (freshHook .none) [.fail, .ok 0#8, .ok 0#8, .fail, .ok 0#8]
     s.init = false ∧ s.forced = .none ∧
     s.script = hookAnswers s none ++ Answer.ok 0#8 :: (probeAnswers (some 0#8) none (some 0#8) ++ ([] : List Answer))) ∧
    (let s := given (freshHook .extendedCapable) [.ok 1#8, .ok 0#8]
     s.init = false ∧ s.forced ≠ .none ∧ s.script = hookAnswers s (some 1#8) ++ Answer.ok 0#8 :: []) ∧
    (let s := given sFresh [.fail]
     s.init = false ∧ s.script = hookAnswers s none ++ Answer.fail :: []) := by decide +kernel

theorem witness_FeatureGateTurnsTheCommandAway :
    (Instr.latchl [⟨15#8, true⟩, ⟨0#8, false⟩]).wf = true ∧
    extendedCommand (.latchl [⟨15#8, true⟩, ⟨0#8, false⟩]) = true ∧
    PinsValid (namedPins (.latchl [⟨15#8, true⟩, ⟨0#8, false⟩])) ∧ sStd.init = true ∧
    sStd.variant ≠ .extendedCapable ∧ ({ sStd with variant := .unknown } : State).variant ≠ .extendedCapable := by
  decide +kernel

/-- All four clauses, with a dead device and a present one. -/
theorem witness_InitOutcomes :
    sStd.init = true ∧
    (let s := given sFresh [.ok 0#8, .fail]
     s.init = false ∧ s.forced = .none ∧
     s.script = hookAnswers s none ++ Answer.ok 0#8 :: (probeAnswers none none none ++ ([] : List Answer))) ∧
    (let s := given (freshHook .standardOnly) [.fail, .ok 0#8]
     s.init = false ∧ s.forced ≠ .none ∧ s.script = hookAnswers s none ++ Answer.ok 0#8 :: []) ∧
    (let s := given (freshHook .none) [.ok 1#8, .fail]
     s.init = false ∧ s.script = hookAnswers s (some 1#8) ++ Answer.fail :: []) := by decide +kernel

/-- All five clauses. -/
theorem witness_DetectOutcomes :
    (let s := given sStd [.ok 0#8, .ok 0xFF#8, .ok 0#8]
     s.init = true ∧ s.forced = .none ∧ s.script = probeAnswers (some 0#8) (some 0xFF#8) (some 0#8) ++ ([] : List Answer)) ∧
    (let s : State := { sStd with forced := .standardOnly }
     s.init = true ∧ s.forced ≠ .none) ∧
    (let s := given sFresh [.ok 0#8, .ok 0#8, .fail, .fail]
     s.init = false ∧ s.forced = .none ∧
     s.script = hookAnswers s none ++ Answer.ok 0#8 :: (probeAnswers (some 0#8) none none ++ ([] : List Answer))) ∧
    (let s := given (freshHook .extendedCapable) [.fail, .ok 0#8]
     s.init = false ∧ s.forced ≠ .none ∧ s.script = hookAnswers s none ++ Answer.ok 0#8 :: []) ∧
    (let s := given sFresh [.fail]
     s.init = false ∧ s.script = hookAnswers s none ++ Answer.fail :: []) := by decide +kernel

/-- Addresses just outside and at the ends of 0x20..0x27, and the three outcomes of the re-initialisation. -/
theorem witness_ChangeAddressOutcomes :
    (0x1F#8 : Byte).toNat < 0x20 ∧ 0x27 < (0x28#8 : Byte).toNat ∧
    (0x20 ≤ (0x20#8 : Byte).toNat ∧ (0x20#8 : Byte).toNat ≤ 0x27) ∧
    (0x20 ≤ (0x27#8 : Byte).toNat ∧ (0x27#8 : Byte).toNat ≤ 0x27) ∧
    (let s := given sExt [.ok 0#8, .ok 0#8, .fail, .ok 0#8]
     s.forced = .none ∧ s.script = hookAnswers s none ++ Answer.ok 0#8 :: (probeAnswers (some 0#8) none (some 0#8) ++ ([] : List Answer))) ∧
    (let s := given (freshHook .standardOnly) [.ok 0#8, .ok 0#8]
     s.forced ≠ .none ∧ s.script = hookAnswers s (some 0#8) ++ Answer.ok 0#8 :: []) ∧
    (let s := given sExt [.fail]
     s.script = hookAnswers s none ++ Answer.fail :: []) := by decide +kernel

/-- Pins 7, 8 and 15: the last of port 0, the first and the last of port 1. -/
theorem witness_StandardPinCommands :
    meetsTwo sStd (fun s => s.init = true ∧ (7#8 : Byte).toNat < 16 ∧ (8#8 : Byte).toNat < 16 ∧
      (15#8 : Byte).toNat < 16) = true := by decide +kernel

theorem witness_TogglePinCommand :
    meetsTwo sStd (fun s => s.init = true ∧ (15#8 : Byte).toNat < 16) = true := by decide +kernel

/-- Pin 15, the transactions succeeding at the last and at the first attempt. -/
theorem witness_ToggleTwiceRestoresTheOutput :
    let new := 0x5A#8 ^^^ (1#8 <<< ((15#8 : Byte).toNat % 8))
    let script := okAnswers 1 0x5A#8 ++ okAnswers 0 0#8 ++ okAnswers 0 new ++ okAnswers 1 0#8 ++ [Answer.fail]
    let s := given sStd script
    s.init = true ∧ (15#8 : Byte).toNat < 16 ∧ 1 ≤ s.retries.toNat ∧ 0 ≤ s.retries.toNat ∧ s.script = script := by
  decide +kernel

theorem witness_StandardMaskCommands : meetsFour sStd (fun s => s.init = true) = true := by decide +kernel

/-- A list that names pin 0 twice and pin 15, and the empty list. -/
theorem witness_StandardListCommands :
    meetsFour sStd (fun s => s.init = true) = true ∧
    ([⟨0#8, true⟩, ⟨0#8, false⟩, ⟨15#8, true⟩] : List PinBit).length ≤ 255 ∧
    PinsValid (([⟨0#8, true⟩, ⟨0#8, false⟩, ⟨15#8, true⟩] : List PinBit).map fun e => e.pin) ∧
    PinsValid (([] : List PinBit).map fun e => e.pin) := by decide +kernel

theorem witness_ReadPinCommand :
    meetsRead sStd (fun s => s.init = true ∧ (7#8 : Byte).toNat < 16 ∧ (15#8 : Byte).toNat < 16) = true := by decide +kernel

theorem witness_ReadPinListCommand :
    meetsTwo sStd (fun s => s.init = true) = true ∧ ([0#8, 15#8] : List Byte).length ≤ 255 ∧
    PinsValid [0#8, 15#8] := by decide +kernel

/-- Success on StandardOnly; a failure at the first write, and at the last of ExtendedCapable. -/
theorem witness_ResetToDefaultWrites :
    (let ms : List (Nat × Byte) := List.replicate 6 (1, 0#8)
     let s := given sStd (okRun ms ++ [Answer.fail])
     s.init = true ∧ ms.length = 6 ∧ RunWithin s.retries.toNat ms ∧ s.script = okRun ms ++ [Answer.fail]) ∧
    (let s := given sStd (okRun [] ++ failAnswers 1 ++ ([] : List Answer))
     s.init = true ∧ RunWithin s.retries.toNat [] ∧ s.script = okRun [] ++ failAnswers s.retries.toNat ++ ([] : List Answer)) ∧
    (let ms : List (Nat × Byte) := List.replicate 18 (0, 0#8)
     let s := given sExt (okRun ms ++ failAnswers 1 ++ ([] : List Answer))
     s.init = true ∧ RunWithin s.retries.toNat ms ∧
     (resetWrites s.regMap s.variant) = (resetWrites s.regMap s.variant).take 18 ++ (0x4F#8, 0x00#8) :: [] ∧
     ms.length = ((resetWrites s.regMap s.variant).take 18).length ∧
     s.script = okRun ms ++ failAnswers s.retries.toNat ++ ([] : List Answer)) := by decide +kernel

theorem witness_ResetToDefaultKeepsEngineState :
    sStd.init = true ∧
    (match exec .rstdef (given sStd (List.replicate 6 (.ok 0#8))) with
      | .next t => t.response == some ⟨true, 0#16⟩
      | .fault _ => false
      | .refused _ => false) = true := by decide +kernel

theorem witness_ExtendedPinCommands :
    meetsTwo sExt (fun s => s.init = true ∧ s.variant = .extendedCapable ∧ (15#8 : Byte).toNat < 16) = true := by
  decide +kernel

theorem witness_ExtendedMaskCommands :
    meetsFour sExt (fun s => s.init = true ∧ s.variant = .extendedCapable) = true := by decide +kernel

theorem witness_ExtendedListCommands :
    meetsFour sExt (fun s => s.init = true ∧ s.variant = .extendedCapable) = true ∧
    ([⟨15#8, true⟩, ⟨0#8, false⟩] : List PinBit).length ≤ 255 ∧
    PinsValid (([⟨15#8, true⟩, ⟨0#8, false⟩] : List PinBit).map fun e => e.pin) := by decide +kernel

theorem witness_DriveStrengthCommands :
    meetsTwo sExt (fun s => s.init = true ∧ s.variant = .extendedCapable ∧ (15#8 : Byte).toNat < 16) = true ∧
    meetsRead sExt (fun s => s.init = true ∧ s.variant = .extendedCapable ∧ (0#8 : Byte).toNat < 16) = true := by
  decide +kernel

/-- L1.5: pin 1 at level 1 over the byte 0x90, the last transaction succeeding at its last attempt. -/
theorem witness_DriveStrengthRoundTrip :
    let sh := 2 * ((1#8 : Byte).toNat % 4)
    let new := (0x90#8 &&& ~~~(0b11#8 <<< sh)) ||| ((1#2 : BitVec 2).setWidth 8 <<< sh)
    let script := okAnswers 0 0x90#8 ++ okAnswers 0 0#8 ++ okAnswers 1 new ++ ([] : List Answer)
    let s := given sExt script
    new = 0x94#8 ∧ s.init = true ∧ s.variant = .extendedCapable ∧ (1#8 : Byte).toNat < 16 ∧ 1 ≤ s.retries.toNat ∧
    s.script = script := by
  decide +kernel

/-- E9 (registers 0 and 3): success; a failure of the first read and of the second; a failure of the second write. -/
theorem witness_DriveStrengthListCommand :
    let es : List PinLevel := [⟨0#8, 0#2⟩, ⟨1#8, 2#2⟩, ⟨12#8, 1#2⟩]
    let ms : List (Nat × Byte) := [(1, 0xFF#8), (0, 0xFF#8)]
    es.length ≤ 255 ∧ PinsValid (es.map fun e => e.pin) ∧
    ([0, 1, 2, 3].filter fun q => es.any fun el => el.pin.toNat / 4 == q) = [0, 3] ∧
    (let s := given sExt (okRun ms ++ okRun ms ++ ([] : List Answer))
     s.init = true ∧ s.variant = .extendedCapable ∧ RunWithin s.retries.toNat ms ∧
     s.script = okRun ms ++ okRun ms ++ ([] : List Answer)) ∧
    (let s := given sExt (okRun [] ++ failAnswers 1 ++ ([] : List Answer))
     s.init = true ∧ s.variant = .extendedCapable ∧ s.script = okRun [] ++ failAnswers s.retries.toNat ++ ([] : List Answer)) ∧
    (let s := given sExt (okRun [(1, 0xFF#8)] ++ failAnswers 1 ++ ([] : List Answer))
     [0, 3].map (fun q => driveAt s.regMap q) = [0x40#8] ++ 0x43#8 :: [] ∧ RunWithin s.retries.toNat [(1, 0xFF#8)] ∧
     s.script = okRun [(1, 0xFF#8)] ++ failAnswers s.retries.toNat ++ ([] : List Answer)) ∧
    (let s := given sExt (okRun ms ++ okRun [(0, 0#8)] ++ failAnswers 1 ++ ([] : List Answer))
     driveWrites s.regMap es [(0, 0xFF#8), (3, 0xFF#8)] = [(0x40#8, 0xF8#8)] ++ (0x43#8, 0xFD#8) :: [] ∧
     s.script = okRun ms ++ okRun [(0, 0#8)] ++ failAnswers s.retries.toNat ++ ([] : List Answer)) := by decide +kernel

theorem witness_InterruptMaskCommand :
    meetsTwo sExt (fun s => s.init = true ∧ s.variant = .extendedCapable) = true := by decide +kernel

theorem witness_InterruptStatusCommand :
    meetsTwo (extWith 255#8) (fun s => s.init = true ∧ s.variant = .extendedCapable) = true := by decide +kernel

theorem witness_OutputModeCommand :
    meetsRead sExt (fun s => s.init = true ∧ s.variant = .extendedCapable) = true := by decide +kernel

theorem witness_RegisterCallbackOutcomes :
    meetsTwo sStd (fun s => s.init = true ∧ (15#8 : Byte).toNat < 16 ∧ (255#8 : Byte) ≠ 0#8) = true := by decide +kernel

theorem witness_UnregisterCallbackEmptiesTheEntry : (0#8 : Byte).toNat < 16 ∧ (15#8 : Byte).toNat < 16 := by decide

theorem witness_HandleOnTheSoftwarePath :
    meetsTwo sStd (fun s => s.init = true ∧ s.variant ≠ .extendedCapable) = true ∧
    meetsTwo { sStd with variant := .unknown, retries := 0#8 } (fun s => s.init = true ∧ s.variant ≠ .extendedCapable) = true := by
  decide +kernel

theorem witness_HandleOnTheExtendedPath :
    meetsFour sExt (fun s => s.init = true ∧ s.variant = .extendedCapable) = true := by decide +kernel

/-- ExtendedCapable, pin 15 flagged and unchanged at 1: no event; software path: pin 0 changed and flagged. -/
theorem witness_UnchangedPinHasNoEvent :
    (let s := withEntry (given { sExt with snap := 0x8000#16 } [.ok 0#8, .ok 0x80#8, .ok 0#8, .ok 0x80#8]) 15
       ⟨true, 1#8, .both⟩
     match exec .handle s with
      | .next t => s.snap.getLsbD 15 == t.snap.getLsbD 15 && t.response == some ⟨true, 0x8000#16⟩ && t.events == []
      | .fault _ => false
      | .refused _ => false) = true ∧
    (match exec .handle (given sStd [.ok 1#8, .ok 0#8]) with
      | .next t => t.variant != .extendedCapable && t.response == some ⟨true, 0x0001#16⟩ && t.snap == 1#16
      | .fault _ => false
      | .refused _ => false) = true := by decide +kernel

theorem witness_UnregisteredPinStaysSilent :
    let s := withEntry (given sStd [.ok 0#8, .ok 0x80#8]) 15 ⟨true, 1#8, .both⟩
    (15#8 : Byte).toNat < 16 ∧
    (match exec (.cbunreg 15#8) s with
      | .next t => (match exec .handle t with
        | .next u => u.response == some ⟨true, 0x8000#16⟩ && u.events == []
        | .fault _ => false
        | .refused _ => false)
      | .fault _ => false
      | .refused _ => false) = true := by decide +kernel

theorem witness_RefreshedSnapshotGivesNoSpuriousEdge :
    let script := okAnswers 0 0x11#8 ++ okAnswers 1 0x80#8 ++ okAnswers 1 0x11#8 ++ okAnswers 0 0x80#8 ++
      ([] : List Answer)
    let s := given sStd script
    s.init = true ∧ s.variant ≠ .extendedCapable ∧ (15#8 : Byte).toNat < 16 ∧ (1#8 : Byte) ≠ 0#8 ∧
    1 ≤ s.retries.toNat ∧ s.script = script := by decide +kernel

/-- A query on a block that is not hung and a read that hangs on an initialised block: neither runs a detection, and
every guard is met by one of the two. -/
theorem witness_EachFieldHasOnlyItsWriters :
    (sStd.init = true ∧ sStd.stuck = none ∧ lazyCommand .getvar = false ∧
      (match exec .getvar sStd with
        | .next t => t.stuck == none
        | .fault _ => false
        | .refused _ => false) = true ∧
      (match exec (.rdpin 8#8) (given sStd [.never]) with
        | .next t => t.stuck == some (.read 0x20#7 0x01#8)
        | .fault _ => false
        | .refused _ => false) = true) ∧
    ¬ RunsDetection .getvar sStd ∧ ¬ RunsDetection (.rdpin 8#8) (given sStd [.never]) := by
  refine ⟨by decide +kernel, ?_, ?_⟩
  · exact Laws.not_runsDetection (by decide) (by decide) (by simp)
  · rw [Laws.runsDetection_lazy (by decide)]
    decide

/-- Two completed reads and a write that never returns. -/
theorem witness_TransportCallsStayInTheRegisterMap :
    let t := after sExt [0x11000101#32] [.ok 0xFF#8, .ok 0xFF#8, .never]
    t.history = [rd 0x06#8 0xFF#8, rd 0x07#8 0xFF#8] ∧ t.stuck = some (.write 0x20#7 0x06#8 0xFE#8) := by
  decide +kernel

/-- An extended register is called by a gated command on an ExtendedCapable block, after the three probe reads of the
initialisation that found it, and by the probe read that never returns; the maps and probes are the default ones. -/
theorem witness_ExtendedBankReachedOnlyWhenCapable :
    (sExt.regMap = defaultRegMap ∧ sExt.probeStd = 0x00#8 ∧ sExt.probeExt = 0x40#8 ∧
      sFresh.regMap = defaultRegMap ∧ sFresh.probeStd = 0x00#8 ∧ sFresh.probeExt = 0x40#8 ∧
      (after sExt [0x30000003#32] [.ok 0#8]).history = [wr 0x4F#8 0x03#8] ∧
      0x4F#8 ∈ extendedBank defaultRegMap ∧ 0x40#8 ∈ extendedBank defaultRegMap ∧
      (after sFresh [0x30000003#32] [.ok 0#8, .ok 0#8, .ok 0#8, .ok 0#8, .ok 0#8]).history =
        [hi, rd 0x00#8 0#8, rd 0x40#8 0#8, rd 0x00#8 0#8, wr 0x4F#8 0x03#8] ∧
      (after sFresh [0x30000003#32] [.ok 0#8, .ok 0#8, .never]).stuck = some (.read 0x20#7 0x40#8)) ∧
    RunsDetection (.omode true true) sFresh ∧ ¬ RunsDetection (.omode true true) sExt := by
  refine ⟨by decide +kernel, ?_, ?_⟩ <;> (rw [Laws.runsDetection_lazy (by decide)]; decide +kernel)

/-- A read-only pair is read, and a write that never returns goes elsewhere. -/
theorem witness_ReadOnlyRegistersAreNeverWritten :
    sExt.regMap = defaultRegMap ∧
    (after sExt [0x2F000000#32] [.ok 1#8, .ok 0#8]).history = [rd 0x4C#8 1#8, rd 0x4D#8 0#8] ∧
    (after sExt [0x30000003#32] [.never]).stuck = some (.write 0x20#7 0x4F#8 0x03#8) := by decide +kernel

/-- Each flag newly set by its cause (P4 steps 4, 7 and 1, L1.7, L1.10). -/
theorem witness_FlagsAreRaisedOnlyByTheirCauses :
    sStd.err = 0x0000#16 ∧ (after sStd [0x10100000#32] []).err = 0x0001#16 ∧
    (after sStd [0x13010000#32] [.fail, .fail]).err = 0x0004#16 ∧
    (after sStd [0x1B000000#32] [.fail, .fail]).err = 0x0008#16 ∧
    (after sStd [0x26000003#32] []).err = 0x0010#16 ∧ (after sStd [0x09000019#32] []).err = 0x0020#16 := by
  decide +kernel

theorem witness_DispatchStateReachesOnlyHandle :
    (Instr.rdpin 8#8) ≠ .handle ∧ (match exec (.rdpin 8#8) (given sStd [.ok 1#8]) with
      | .next t => t.response == some ⟨true, 1#16⟩
      | .fault _ => false
      | .refused _ => false) = true := by decide +kernel

/-- Each of the three answers at the head of a script. -/
theorem witness_CallTakesTheNextAnswer :
    (given sStd [.fail, .never]).script = .fail :: [.never] ∧
    (given sStd [.ok 0xFF#8]).script = .ok 0xFF#8 :: [] ∧
    (given sStd [.never, .fail]).script = .never :: [.fail] := by decide

end Sys2Proof.Tests
end

namespace Sys2Proof.Proofs

open Sys2Proof.Machine Sys2Proof.Laws

/-! ### The body of each command, and how an operation ends -/

/-- The body each command runs in the frame, one arm a constructor; `exec_eq` ties it to `exec`. -/
def bodyOf : Instr → Eff Response
  | .init => pure (Response.done true)
  | .detect => detectBody
  | .setretry n => do
    modify fun t => { t with retries := n }
    pure (Response.done true)
  | .geterr => do pure ⟨true, (← get).err⟩
  | .clrerr m => do
    modify fun t => { t with err := t.err &&& ~~~m }
    pure (Response.done true)
  | .getvar => do pure ⟨true, (variantCode (← get).variant).setWidth 16⟩
  | .hasext => do pure ⟨true, if (← get).variant = .extendedCapable then 0x0001#16 else 0x0000#16⟩
  | .getaddr => do pure ⟨true, (← get).addr.setWidth 16⟩
  | .chaddr a => do
    modify fun t => t.changeAddress a
    reportOk ensureInit
  | .dir pin v => pinModifyBody RegMap.config pin v
  | .dirm mask v => maskModifyBody RegMap.config mask v
  | .dirl es => listBody RegMap.config es
  | .rdpin pin => do pure (bitResponse (← pinRead (← get).regMap.input pin))
  | .rdpinl ps => do pure (valueResponse ((← dualRead (← get).regMap.input).map fun l => l &&& pinMask ps))
  | .wrpin pin v => pinModifyBody RegMap.output pin v
  | .wrpinl es => listBody RegMap.output es
  | .tglpin pin => do
    reportOk (readModifyWrite (regOf (← get).regMap.output pin) fun old => flipBit old (bitposOf pin))
  | .pol pin v => pinModifyBody RegMap.polarity pin v
  | .polm mask v => maskModifyBody RegMap.polarity mask v
  | .poll es => listBody RegMap.polarity es
  | .rstdef => do reportOk (writeSeq (resetWrites (← get).regMap (← get).variant))
  | .puen pin v => pinModifyBody RegMap.pullEnable pin v
  | .puenm mask v => maskModifyBody RegMap.pullEnable mask v
  | .puenl es => listBody RegMap.pullEnable es
  | .pusel pin v => pinModifyBody RegMap.pullSelect pin v
  | .puselm mask v => maskModifyBody RegMap.pullSelect mask v
  | .pusell es => listBody RegMap.pullSelect es
  | .drv pin v => do reportOk (readModifyWrite (driveReg (← get).regMap pin) fun old => putLevel old pin v)
  | .drvl es => drvlBody es
  | .drvget pin => do
    pure (valueResponse ((← readReg (driveReg (← get).regMap pin)).map fun b => getLevel b pin))
  | .latch pin v => pinModifyBody RegMap.latch pin v
  | .latchm mask v => maskModifyBody RegMap.latch mask v
  | .latchl es => listBody RegMap.latch es
  | .intcfg pin v => pinModifyBody RegMap.intMask pin (!v)
  | .intcfgl es => do
    reportOk (maskMerge (← get).regMap.intMask (listMV es).1 (~~~(listMV es).2 &&& (listMV es).1))
  | .intmask m => do reportOk (dualWrite (← get).regMap.intMask m)
  | .intstat => do pure (valueResponse (← dualRead (← get).regMap.intStatus))
  | .omode od0 od1 => do reportOk (writeReg (← get).regMap.outConf (omodeByte od0 od1))
  | .cbreg pin id edge => cbregBody pin id edge
  | .cbunreg pin => do
    modify fun t => t.setCallback pin CbEntry.empty
    pure (Response.done true)
  | .cbglobal n => do
    modify fun t => { t with gcb := n }
    pure (Response.done true)
  | .handle => handleBody

theorem exec_eq (i : Instr) (s : State) : exec i s = .next (settle (frame i (bodyOf i) s)) := by
  cases i <;> rfl

/-- The operation ends at `t`, with a result or in a call that never returns. -/
def Ends {α : Type} (m : Eff α) (s t : State) : Prop := (∃ a, m s = .ok a t) ∨ ∃ e, m s = .error e t

theorem Ends.of_ok {α : Type} {m : Eff α} {s t u : State} {a : α} (hm : m s = .ok a u) (h : Ends m s t) : t = u := by
  rw [Ends, hm] at h
  rcases h with ⟨b, hb⟩ | ⟨e, he⟩
  · cases hb
    rfl
  · cases he

theorem Ends.of_error {α : Type} {m : Eff α} {s t u : State} {e : Unit} (hm : m s = .error e u) (h : Ends m s t) :
    t = u := by
  rw [Ends, hm] at h
  rcases h with ⟨b, hb⟩ | ⟨e', he⟩
  · cases hb
  · cases he
    rfl

theorem Ends.of_pure {α : Type} {a : α} {s t : State} (h : Ends (pure a : Eff α) s t) : t = s := h.of_ok rfl

theorem Ends.of_bind {α β : Type} {m : Eff α} {f : α → Eff β} {s t : State} (h : Ends (m >>= f) s t) :
    (∃ e, m s = .error e t) ∨ ∃ a u, m s = .ok a u ∧ Ends (f a) u t := by
  rw [Ends] at h
  cases hm : m s with
  | ok a u =>
    rw [bind_ok hm] at h
    exact .inr ⟨a, u, rfl, h⟩
  | error e u =>
    rw [bind_error hm] at h
    rcases h with ⟨a, ha⟩ | ⟨e', he⟩
    · cases ha
    · cases he
      exact .inl ⟨e, rfl⟩

theorem Ends.of_reportOk {m : Eff Bool} {s t : State} (h : Ends (reportOk m) s t) : Ends m s t := by
  rcases Ends.of_bind h with ⟨e, he⟩ | ⟨a, u, hm, hu⟩
  · exact .inr ⟨e, he⟩
  · rw [Ends.of_pure hu]
    exact .inl ⟨a, hm⟩

/-! ### What the body of a command can do -/

/-- A talk with the calls P that ended: it returned, or its last call never did. -/
def Went (P : BusCall → Prop) (s t : State) : Prop := Talked P s t ∧ (Returned s t ∨ Hangs P s t)

theorem Talks.went {α : Type} {P : BusCall → Prop} {m : Eff α} {s t : State} (h : Talks P m s) (ht : Ends m s t) :
    Went P s t := by
  rcases ht with ⟨a, ha⟩ | ⟨e, he⟩
  · obtain ⟨h1, h2⟩ := h.1 a t ha
    exact ⟨h1, .inl h2⟩
  · obtain ⟨h1, h2⟩ := h.2 e t he
    exact ⟨h1, .inr h2⟩

/-- The two registers of a pair. -/
def pairRegs (p : RegPair) : List Byte := [p.port0, p.port1]

/-- The four drive-strength registers. -/
def driveRegs (m : RegMap) : List Byte := [m.drv0L, m.drv0H, m.drv1L, m.drv1H]

theorem regOf_mem (p : RegPair) (pin : Byte) : regOf p pin ∈ pairRegs p := by
  rw [regOf]
  split <;> simp [pairRegs]

theorem driveAt_mem (m : RegMap) (q : Nat) : driveAt m q ∈ driveRegs m := by
  unfold driveAt
  split <;> simp [driveRegs]

/-- The registers the body of a command may read (41_standard_bank, 42_extended_bank, 43_interrupt_dispatch). -/
def bodyReads (u : State) : Instr → List Byte
  | .dir _ _ | .dirm _ _ | .dirl _ => pairRegs u.regMap.config
  | .wrpin _ _ | .wrpinl _ | .tglpin _ => pairRegs u.regMap.output
  | .pol _ _ | .polm _ _ | .poll _ => pairRegs u.regMap.polarity
  | .puen _ _ | .puenm _ _ | .puenl _ => pairRegs u.regMap.pullEnable
  | .pusel _ _ | .puselm _ _ | .pusell _ => pairRegs u.regMap.pullSelect
  | .drv _ _ | .drvl _ | .drvget _ => driveRegs u.regMap
  | .latch _ _ | .latchm _ _ | .latchl _ => pairRegs u.regMap.latch
  | .intcfg _ _ | .intcfgl _ => pairRegs u.regMap.intMask
  | .intstat => pairRegs u.regMap.intStatus
  | .rdpin _ | .rdpinl _ | .cbreg _ _ _ => pairRegs u.regMap.input
  | .handle =>
    if u.variant = .extendedCapable then pairRegs u.regMap.intStatus ++ pairRegs u.regMap.input
    else pairRegs u.regMap.input
  | .init | .detect | .setretry _ | .geterr | .clrerr _ | .getvar | .hasext | .getaddr | .chaddr _ | .rstdef
  | .intmask _ | .omode _ _ | .cbunreg _ | .cbglobal _ => []

/-- The registers the body of a command may write (41_standard_bank, 42_extended_bank). -/
def bodyWrites (u : State) : Instr → List Byte
  | .dir _ _ | .dirm _ _ | .dirl _ => pairRegs u.regMap.config
  | .wrpin _ _ | .wrpinl _ | .tglpin _ => pairRegs u.regMap.output
  | .pol _ _ | .polm _ _ | .poll _ => pairRegs u.regMap.polarity
  | .rstdef => (resetWrites u.regMap u.variant).map Prod.fst
  | .puen _ _ | .puenm _ _ | .puenl _ => pairRegs u.regMap.pullEnable
  | .pusel _ _ | .puselm _ _ | .pusell _ => pairRegs u.regMap.pullSelect
  | .drv _ _ | .drvl _ => driveRegs u.regMap
  | .latch _ _ | .latchm _ _ | .latchl _ => pairRegs u.regMap.latch
  | .intcfg _ _ | .intcfgl _ | .intmask _ => pairRegs u.regMap.intMask
  | .omode _ _ => [u.regMap.outConf]
  | .init | .detect | .setretry _ | .geterr | .clrerr _ | .getvar | .hasext | .getaddr | .chaddr _ | .rdpin _
  | .rdpinl _ | .drvget _ | .intstat | .cbreg _ _ _ | .cbunreg _ | .cbglobal _ | .handle => []

/-- The calls the body of a command may make from the state `u`. -/
def BodyCall (i : Instr) (u : State) : BusCall → Prop := Data u.addr (bodyReads u i) (bodyWrites u i)

theorem Data.mono {d : BitVec 7} {rs rs' ws ws' : List Byte} (hr : rs ⊆ rs') (hw : ws ⊆ ws') (c : BusCall)
    (h : Data d rs ws c) : Data d rs' ws' c := by
  rcases h with ⟨r, h1, h2⟩ | ⟨r, h1, h2⟩
  · exact .inl ⟨r, hr h1, h2⟩
  · exact .inr ⟨r, hw h1, h2⟩

theorem Data.read {d : BitVec 7} {rs ws : List Byte} {r : Byte} (h : r ∈ rs) : Data d rs ws (.read d r) :=
  .inl ⟨r, h, rfl⟩

theorem Data.write {d : BitVec 7} {rs ws : List Byte} {r : Byte} (h : r ∈ ws) (b : Byte) :
    Data d rs ws (.write d r b) :=
  .inr ⟨r, h, b, rfl⟩

theorem Talks.bind_pure {α β : Type} {P : BusCall → Prop} {m : Eff α} {g : α → β} {s : State} (h : Talks P m s) :
    Talks P (m >>= fun a => pure (g a)) s :=
  h.bind fun _ _ _ => Talks.pure _ _ _

section

variable {s : State} {d : BitVec 7} {rs ws : List Byte}

theorem talks_modifyOne {r : Byte} {f : Byte → Byte} (hr : r ∈ rs) (hw : r ∈ ws) :
    Talks (Data s.addr rs ws) (readModifyWrite r f) s :=
  talks_readModifyWrite.mono (Data.mono (by simpa using hr) (by simpa using hw))

theorem talks_pinRead {p : RegPair} {pin : Byte} (h : pairRegs p ⊆ rs) :
    Talks (Data s.addr rs ws) (pinRead p pin) s := by
  rw [pinRead]
  refine (talks_readReg (Data.read (h (regOf_mem p pin)))).bind fun a t ht => ?_
  cases a <;> exact Talks.pure _ _ _

theorem talks_readPair {p : RegPair} (h : pairRegs p ⊆ rs) : Talks (Data s.addr rs ws) (dualRead p) s :=
  talks_dualRead (Data.read (h (by simp [pairRegs]))) (Data.read (h (by simp [pairRegs])))

theorem talks_writePair {p : RegPair} {v : Half} (h : pairRegs p ⊆ ws) :
    Talks (Data s.addr rs ws) (dualWrite p v) s :=
  talks_dualWrite (Data.write (h (by simp [pairRegs]))) (Data.write (h (by simp [pairRegs])))

end

section

variable {s : State} (sel : RegMap → RegPair)

/-- The calls of a body that changes one pair of the map. -/
abbrev PairCall (s : State) : BusCall → Prop := Data s.addr (pairRegs (sel s.regMap)) (pairRegs (sel s.regMap))

theorem talks_pinModifyBody (pin : Byte) (v : Bool) : Talks (PairCall sel s) (pinModifyBody sel pin v) s :=
  talks_reportOk (talks_modifyOne (regOf_mem _ _) (regOf_mem _ _))

theorem talks_maskModifyBody (mask : Half) (v : Bool) : Talks (PairCall sel s) (maskModifyBody sel mask v) s :=
  talks_reportOk talks_pairModify

theorem talks_listBody (es : List PinBit) : Talks (PairCall sel s) (listBody sel es) s :=
  talks_reportOk talks_pairModify

end

theorem talks_drvlBody {s : State} (es : List PinLevel) :
    Talks (Data s.addr (driveRegs s.regMap) (driveRegs s.regMap)) (drvlBody es) s := by
  have hreads := talks_readDrives s.regMap (affectedDrives es) (s := s)
    (P := Data s.addr (driveRegs s.regMap) (driveRegs s.regMap)) fun q => Data.read (driveAt_mem _ q)
  refine hreads.bind (f := fun a => match a with
    | none => pure Response.failed
    | some bs => reportOk (writeSeq (driveWrites s.regMap es bs))) fun a t ht => ?_
  cases a with
  | none => exact Talks.pure _ _ _
  | some bs =>
    refine talks_reportOk (talks_writeSeq _ fun w hw => ?_)
    obtain ⟨qb, -, rfl⟩ := List.mem_map.1 hw
    rw [(hreads.1 _ _ ht).1.addr]
    exact Data.write (driveAt_mem _ _) _

theorem talks_handleReads {s : State} : Talks (BodyCall .handle s) handleReads s := by
  rw [handleReads, Talks, get_bind, ← Talks]
  by_cases hv : s.variant = .extendedCapable
  · rw [if_pos hv]
    have hstatus : Talks (BodyCall .handle s) (dualRead s.regMap.intStatus) s :=
      talks_readPair (by simp [bodyReads, hv])
    refine hstatus.bind fun a t ht => ?_
    cases a with
    | none => exact Talks.pure _ _ _
    | some st =>
      rw [BodyCall, ← (hstatus.1 _ _ ht).1.addr]
      refine (talks_readPair (by simp [bodyReads, hv])).bind fun b u hu => ?_
      cases b <;> exact Talks.pure _ _ _
  · rw [if_neg hv]
    refine (talks_readPair (by simp [bodyReads, hv])).bind fun b u hu => ?_
    cases b <;> exact Talks.pure _ _ _

end Sys2Proof.Proofs

namespace Sys2Proof.Proofs

open Sys2Proof.Machine Sys2Proof.Laws

/-! ### What an initialisation can do -/

/-- What a detection or a lazy initialisation leaves, completed or hung (40_control R131, R140, R141). -/
structure InitEffect (s t : State) : Prop where
  inited : Inited s t
  outcome : (Returned s t ∧ t.retries = s.retries) ∨ Hangs (InitCall s) s t
  keeps : s.forced ≠ .none → t.retries = s.retries ∧ t.savedRetries = s.savedRetries
  init : s.init = true → t.init = true
  fresh : t.init = false → t.variant = s.variant
  forced : t.init = true → s.forced ≠ .none → t.variant = forcedVariant s.forced ∨ t = s

theorem InitEffect.refl (s : State) : InitEffect s s where
  inited := ⟨rfl, rfl, ⟨[], by simp, by simp, by simp [Newly]⟩, List.suffix_rfl⟩
  outcome := .inl ⟨Returned.refl s, rfl⟩
  keeps _ := ⟨rfl, rfl⟩
  init := id
  fresh _ := rfl
  forced _ _ := .inr rfl

/-- A detection on an initialised block. -/
theorem detectOrForce_effect {s t : State} (hi : s.init = true) (h : Ends detectOrForce s t) : InitEffect s t := by
  by_cases hf : s.forced = .none
  · have hnone : ∀ {p : Prop}, s.forced ≠ .none → p := fun hne => absurd hf hne
    rcases detectOrForce_cases s with ⟨u, hm, h1, h2, h3, h4, -⟩ | ⟨u, hm, h1, h2, h4, -⟩
    · obtain rfl := h.of_ok hm
      exact ⟨h1, .inl ⟨h3, h2⟩, hnone, fun _ => h4.trans hi, by simp [h4, hi], fun _ => hnone⟩
    · obtain rfl := h.of_error hm
      exact ⟨h1, .inr h2, hnone, fun _ => h4.trans hi, by simp [h4, hi], fun _ => hnone⟩
  · obtain rfl := h.of_ok (detectOrForce_forced hf)
    exact ⟨⟨rfl, rfl, ⟨[], by simp, by simp, by simp [Newly]⟩, List.suffix_rfl⟩, .inl ⟨⟨rfl, Taken.refl _⟩, rfl⟩,
      fun _ => ⟨rfl, rfl⟩, id, by simp [hi], fun _ _ => .inl rfl⟩

/-- A lazy initialisation; on an initialised block it does nothing. -/
theorem ensureInit_effect {s t : State} (h : Ends ensureInit s t) : InitEffect s t ∧ (s.init = true → t = s) := by
  have hkeeps : s.forced ≠ .none → t.retries = s.retries ∧ t.savedRetries = s.savedRetries := fun hf =>
    h.elim (fun ⟨a, ha⟩ => (ensureInit_forced_keeps hf).1 a t ha) fun ⟨e, he⟩ => (ensureInit_forced_keeps hf).2 e t he
  rcases ensureInit_cases s with ⟨hi, hm⟩ | ⟨hi, u, hu, ⟨hm, h1, h2, h3, h4⟩ | ⟨hm, h1, h2⟩ | ⟨hm, h1, h2, h3⟩⟩
  · obtain rfl := h.of_ok hm
    exact ⟨InitEffect.refl t, fun _ => rfl⟩
  · obtain rfl := h.of_ok hm
    exact ⟨⟨hu, .inl ⟨h3, h2⟩, hkeeps, fun _ => h1, by simp [h1], fun _ hf => .inl (h4 hf)⟩, by simp [hi]⟩
  · obtain rfl := h.of_ok hm
    have hinit : t.init = false := by rw [h1]; exact hi
    exact ⟨⟨hu, .inl ⟨h2, by rw [h1]⟩, hkeeps, by simp [hi], fun _ => by rw [h1], by simp [hinit]⟩, by simp [hi]⟩
  · obtain rfl := h.of_error hm
    exact ⟨⟨hu, .inr h3, hkeeps, by simp [hi], fun _ => h2, by simp [h1]⟩, by simp [hi]⟩

/-- What is known of the state in which the gate is checked, as an initialisation. -/
theorem Prepared.effect {i : Instr} {s u : State} (h : Prepared i s u) :
    InitEffect s u ∧ (s.init = true → u = s) ∧ (lazyCommand i = false → u = s) := by
  rcases h with ⟨h1, rfl⟩ | ⟨h1, h2⟩
  · exact ⟨InitEffect.refl u, fun _ => rfl, fun _ => rfl⟩
  · obtain ⟨h3, h4⟩ := ensureInit_effect (.inl ⟨true, h2⟩)
    exact ⟨h3, h4, by simp [h1]⟩

/-! ### What a command can do -/

/-- What the body of a command can do to the state it starts in, response apart. -/
inductive BodyEffect : Instr → State → State → Prop
  | query {i u} : BodyEffect i u u
  | talk {i u t} : lazyCommand i = true → Went (BodyCall i u) u t → BodyEffect i u t
  | detect {u t} : InitEffect u t → BodyEffect .detect u t
  | setretry {u} (n : Byte) : BodyEffect (.setretry n) u { u with retries := n }
  | clrerr {u} (m : Half) : BodyEffect (.clrerr m) u { u with err := u.err &&& ~~~m }
  | chaddr {u t} (a : Byte) : InitEffect (u.changeAddress a) t → BodyEffect (.chaddr a) u t
  | cbreg {u v} (pin id : Byte) (edge : Edge) :
      Went (BodyCall (.cbreg pin id edge) u) (u.setCallback pin ⟨true, id, edge⟩) v →
      BodyEffect (.cbreg pin id edge) u v
  | cbregSnap {u v} (pin id : Byte) (edge : Edge) (cur : Half) :
      Went (BodyCall (.cbreg pin id edge) u) (u.setCallback pin ⟨true, id, edge⟩) v →
      BodyEffect (.cbreg pin id edge) u (v.setSnap cur)
  | cbunreg {u} (pin : Byte) : BodyEffect (.cbunreg pin) u (u.setCallback pin CbEntry.empty)
  | cbglobal {u} (id : Byte) : BodyEffect (.cbglobal id) u { u with gcb := id }
  | dispatch {u v} (st cur : Half) : Went (BodyCall .handle u) u v → BodyEffect .handle u (v.dispatch st cur)

/-- A body that changes the state once and then answers. -/
theorem Ends.of_modify {f : State → State} {r : Response} {s t : State}
    (h : Ends (do modify f; pure r : Eff Response) s t) : t = f s :=
  Ends.of_pure (a := r) (s := f s) h

theorem detectBody_effect {u t : State} (h : Ends detectBody u t) : BodyEffect .detect u t := by
  rw [detectBody, Ends, get_bind, ← Ends] at h
  by_cases hi : u.init = true
  · rw [if_pos hi] at h
    refine .detect (detectOrForce_effect hi ?_)
    rcases Ends.of_bind h with ⟨e, he⟩ | ⟨a, v, hm, hv⟩
    · exact .inr ⟨e, he⟩
    · rw [Ends.of_pure (s := v) hv]
      exact .inl ⟨a, hm⟩
  · rw [if_neg hi] at h
    refine .detect (ensureInit_effect ?_).1
    rcases Ends.of_bind h with ⟨e, he⟩ | ⟨a, v, hm, hv⟩
    · exact .inr ⟨e, he⟩
    · cases a <;> (rw [Ends.of_pure (s := v) hv]; exact .inl ⟨_, hm⟩)

theorem cbregBody_effect {pin id : Byte} {edge : Edge} {u t : State} (h : Ends (cbregBody pin id edge) u t) :
    BodyEffect (.cbreg pin id edge) u t := by
  have hreads : Talks (BodyCall (.cbreg pin id edge) u) (dualRead u.regMap.input)
      (u.setCallback pin ⟨true, id, edge⟩) := talks_readPair (List.Subset.refl _)
  rw [cbregBody, Ends, modify_bind, get_bind, ← Ends] at h
  rcases Ends.of_bind h with ⟨e, he⟩ | ⟨a, v, hm, hv⟩
  · exact .cbreg _ _ _ (Talks.went hreads (.inr ⟨e, he⟩))
  · have hw := Talks.went hreads (.inl ⟨a, hm⟩)
    cases a with
    | none => rw [Ends.of_pure hv]; exact .cbreg _ _ _ hw
    | some cur => rw [Ends.of_modify hv]; exact .cbregSnap _ _ _ _ hw

theorem handleBody_effect {u t : State} (h : Ends handleBody u t) : BodyEffect .handle u t := by
  rcases Ends.of_bind h with ⟨e, he⟩ | ⟨a, v, hm, hv⟩
  · exact .talk rfl (Talks.went talks_handleReads (.inr ⟨e, he⟩))
  · have hw := Talks.went talks_handleReads (.inl ⟨a, hm⟩)
    cases a with
    | none => rw [Ends.of_pure hv]; exact .talk rfl hw
    | some x => rw [Ends.of_modify hv]; exact .dispatch _ _ hw

/-- A body that only talks. -/
theorem BodyEffect.of_talks {i : Instr} {u t : State} (hl : lazyCommand i = true) (h : Ends (bodyOf i) u t)
    (hi : Talks (BodyCall i u) (bodyOf i) u) : BodyEffect i u t :=
  .talk hl (Talks.went hi h)

/-- A body that answers from the state alone. -/
theorem BodyEffect.of_query {i : Instr} {u t : State} {r : State → Response}
    (h : Ends (do pure (r (← get)) : Eff Response) u t) : BodyEffect i u t := by
  obtain rfl : t = u := Ends.of_pure (a := r u) h
  exact .query

/-- What the body of each command can do, one arm a constructor. -/
theorem bodyOf_effect : ∀ (i : Instr) {u t : State}, Ends (bodyOf i) u t → BodyEffect i u t
  | .init, _, _, h => by rw [Ends.of_pure h]; exact .query
  | .detect, _, _, h => detectBody_effect h
  | .setretry n, _, _, h => by rw [Ends.of_modify h]; exact .setretry n
  | .geterr, _, _, h => .of_query h
  | .clrerr m, _, _, h => by rw [Ends.of_modify h]; exact .clrerr m
  | .getvar, _, _, h => .of_query h
  | .hasext, _, _, h => .of_query h
  | .getaddr, _, _, h => .of_query h
  | .chaddr a, u, _, h => .chaddr a (ensureInit_effect (Ends.of_reportOk (s := u.changeAddress a) h)).1
  | .dir _ _, _, _, h => .of_talks rfl h (talks_pinModifyBody RegMap.config _ _)
  | .dirm _ _, _, _, h => .of_talks rfl h (talks_maskModifyBody RegMap.config _ _)
  | .dirl _, _, _, h => .of_talks rfl h (talks_listBody RegMap.config _)
  | .rdpin _, _, _, h => .of_talks rfl h (Talks.get_bind (Talks.bind_pure (talks_pinRead (List.Subset.refl _))))
  | .rdpinl _, _, _, h => .of_talks rfl h (Talks.get_bind (Talks.bind_pure (talks_readPair (List.Subset.refl _))))
  | .wrpin _ _, _, _, h => .of_talks rfl h (talks_pinModifyBody RegMap.output _ _)
  | .wrpinl _, _, _, h => .of_talks rfl h (talks_listBody RegMap.output _)
  | .tglpin _, _, _, h =>
    .of_talks rfl h (Talks.get_bind (talks_reportOk (talks_modifyOne (regOf_mem _ _) (regOf_mem _ _))))
  | .pol _ _, _, _, h => .of_talks rfl h (talks_pinModifyBody RegMap.polarity _ _)
  | .polm _ _, _, _, h => .of_talks rfl h (talks_maskModifyBody RegMap.polarity _ _)
  | .poll _, _, _, h => .of_talks rfl h (talks_listBody RegMap.polarity _)
  | .rstdef, _, _, h =>
    .of_talks rfl h (Talks.get_bind (Talks.get_bind
      (talks_reportOk (talks_writeSeq _ fun _ hw => Data.write (List.mem_map_of_mem hw) _))))
  | .puen _ _, _, _, h => .of_talks rfl h (talks_pinModifyBody RegMap.pullEnable _ _)
  | .puenm _ _, _, _, h => .of_talks rfl h (talks_maskModifyBody RegMap.pullEnable _ _)
  | .puenl _, _, _, h => .of_talks rfl h (talks_listBody RegMap.pullEnable _)
  | .pusel _ _, _, _, h => .of_talks rfl h (talks_pinModifyBody RegMap.pullSelect _ _)
  | .puselm _ _, _, _, h => .of_talks rfl h (talks_maskModifyBody RegMap.pullSelect _ _)
  | .pusell _, _, _, h => .of_talks rfl h (talks_listBody RegMap.pullSelect _)
  | .drv _ _, _, _, h =>
    .of_talks rfl h (Talks.get_bind (talks_reportOk (talks_modifyOne (driveAt_mem _ _) (driveAt_mem _ _))))
  | .drvl _, _, _, h => .of_talks rfl h (talks_drvlBody _)
  | .drvget _, _, _, h =>
    .of_talks rfl h (Talks.get_bind (Talks.bind_pure (talks_readReg (Data.read (driveAt_mem _ _)))))
  | .latch _ _, _, _, h => .of_talks rfl h (talks_pinModifyBody RegMap.latch _ _)
  | .latchm _ _, _, _, h => .of_talks rfl h (talks_maskModifyBody RegMap.latch _ _)
  | .latchl _, _, _, h => .of_talks rfl h (talks_listBody RegMap.latch _)
  | .intcfg _ _, _, _, h => .of_talks rfl h (talks_pinModifyBody RegMap.intMask _ _)
  | .intcfgl _, _, _, h => .of_talks rfl h (Talks.get_bind (talks_reportOk talks_pairModify))
  | .intmask _, _, _, h => .of_talks rfl h (Talks.get_bind (talks_reportOk (talks_writePair (List.Subset.refl _))))
  | .intstat, _, _, h => .of_talks rfl h (Talks.get_bind (Talks.bind_pure (talks_readPair (List.Subset.refl _))))
  | .omode _ _, _, _, h =>
    .of_talks rfl h (Talks.get_bind (talks_reportOk (talks_writeReg (Data.write (List.mem_singleton.2 rfl) _))))
  | .cbreg _ _ _, _, _, h => cbregBody_effect h
  | .cbunreg pin, _, _, h => by rw [Ends.of_modify h]; exact .cbunreg pin
  | .cbglobal n, _, _, h => by rw [Ends.of_modify h]; exact .cbglobal n
  | .handle, _, _, h => handleBody_effect h

/-- What a command can do, response apart (40_control R130). -/
inductive Effect (i : Instr) (s : State) : State → Prop
  | illegal : i.wf = false → Effect i s s
  | invalidPin (p : Byte) : p ∈ namedPins i → 16 ≤ p.toNat → Effect i s (s.raiseFlag .invalidPin)
  | invalidAddress (a : Byte) : i = .chaddr a → a.toNat < 0x20 ∨ 0x27 < a.toNat →
      Effect i s (s.raiseFlag .invalidAddress)
  | notReady {u} : lazyCommand i = true → InitEffect s u → (s.init = true → u = s) → Effect i s u
  | gated {u} : Prepared i s u → extendedCommand i = true → u.variant ≠ .extendedCapable →
      Effect i s (u.raiseFlag .unsupportedFeature)
  | ran {u t} : Prepared i s u → i.wf = true → badAddress i = false → PinsValid (namedPins i) →
      (extendedCommand i = true → u.variant = .extendedCapable) →
      BodyEffect i (u.clearFlags (attr i).clear) t → Effect i s t

theorem frame_effect {i : Instr} {s t : State} (h : Ends (frame i (bodyOf i)) s t) : Effect i s t := by
  rcases frame_cases i (bodyOf i) s with ⟨hw, hm⟩ | ⟨hm, p, hp, hp16⟩ | ⟨hm, a, ha, hr⟩ | ⟨hl, e, u, hu, hm⟩ |
    ⟨hl, u, hu, hm⟩ | ⟨u, hu, hx, hv, hm⟩ | ⟨u, hu, hw, ha, hp, hx, hm⟩
  · rw [h.of_ok hm]
    exact .illegal hw
  · rw [h.of_ok hm]
    exact .invalidPin p hp hp16
  · rw [h.of_ok hm]
    exact .invalidAddress a ha hr
  · obtain ⟨h1, h2⟩ := ensureInit_effect (.inr ⟨e, hu⟩)
    rw [h.of_error hm]
    exact .notReady hl h1 h2
  · obtain ⟨h1, h2⟩ := ensureInit_effect (.inl ⟨false, hu⟩)
    rw [h.of_ok hm]
    exact .notReady hl h1 h2
  · rw [h.of_ok hm]
    exact .gated hu hx hv
  · rw [Ends, hm, ← Ends] at h
    exact .ran hu hw ha hp hx (bodyOf_effect i h)

/-- Everything one command can do: its effect, and its response or none. -/
theorem exec_effect {i : Instr} {s t : State} (h : exec i s = .next t) :
    ∃ u r, Effect i s u ∧ t = { u with response := r } := by
  rw [exec_eq] at h
  injection h with h
  subst h
  cases hm : frame i (bodyOf i) s with
  | ok r u => exact ⟨u, some r, frame_effect (.inl ⟨r, hm⟩), rfl⟩
  | error e u => exact ⟨u, none, frame_effect (.inr ⟨e, hm⟩), rfl⟩

end Sys2Proof.Proofs

namespace Sys2Proof.Proofs

open Sys2Proof.Machine Sys2Proof.Laws

/-! ### Construction (10_state R38, R39) -/

/-- A 7-bit address is fixed by its low three bits when it lies in 0x20..0x27 (10_state R23). -/
theorem addr_of_low_bits {a : Byte} (h1 : 0x20 ≤ a.toNat) (h2 : a.toNat ≤ 0x27) :
    a.setWidth 7 = 0x20#7 ||| (a.setWidth 3).setWidth 7 := by
  have hall : ∀ k : Fin 8, (BitVec.ofNat 8 (0x20 + k.val)).setWidth 7 =
      0x20#7 ||| ((BitVec.ofNat 8 (0x20 + k.val)).setWidth 3).setWidth 7 := by decide
  have ha : a = BitVec.ofNat 8 (0x20 + (a.toNat - 0x20)) := by
    rw [Nat.add_sub_cancel' h1, BitVec.ofNat_toNat, BitVec.setWidth_eq]
  rw [ha]
  exact hall ⟨a.toNat - 0x20, by omega⟩

theorem clampAddr_eq (a : Byte) :
    clampAddr a = if a.toNat < 0x20 then 0x20#8 else if 0x27 < a.toNat then 0x27#8 else a := by
  simp [clampAddr, BitVec.lt_def]

theorem clampAddr_range (a : Byte) : 0x20 ≤ (clampAddr a).toNat ∧ (clampAddr a).toNat ≤ 0x27 := by
  rw [clampAddr_eq]
  split
  · decide
  · split
    · decide
    · omega

theorem resolveAddr_eq (spec : AddrSpec) : resolveAddr spec = 0x20#7 ||| (resolveBits spec).setWidth 7 := by
  cases spec with
  | pins a0 a1 a2 => rfl
  | direct a => exact addr_of_low_bits (clampAddr_range a).1 (clampAddr_range a).2

/-- The pins stand in ABITS with a0 in bit 0 (10_state R39). -/
theorem resolveBits_pins : ∀ a0 a1 a2 : Bool,
    (resolveBits (.pins a0 a1 a2)).getLsbD 0 = a0 ∧ (resolveBits (.pins a0 a1 a2)).getLsbD 1 = a1 ∧
    (resolveBits (.pins a0 a1 a2)).getLsbD 2 = a2 := by
  decide

theorem construct_cbt (p : Params) (q : Fin 16) : (State.construct p).cbt[q] = CbEntry.empty := by
  simp [State.construct]

/-- Settles O1: the fields are those of the construction, and the address goes by its form. -/
theorem constructionGivesEachFieldItsValue : Obligations.ConstructionGivesEachFieldItsValue := by
  intro p
  refine ⟨rfl, rfl, rfl, rfl, rfl, rfl, construct_cbt p, rfl, rfl, ?_⟩
  have haddr := resolveAddr_eq p.addrSpec
  cases hspec : p.addrSpec with
  | pins a0 a1 a2 =>
    rw [hspec] at haddr
    obtain ⟨h0, h1, h2⟩ := resolveBits_pins a0 a1 a2
    simp only [State.construct, hspec]
    exact ⟨h0, h1, h2, haddr⟩
  | direct a =>
    simp only [State.construct, hspec, resolveAddr, resolveBits, ← clampAddr_eq]
    exact ⟨trivial, trivial⟩

theorem construct_inv (p : Params) : (State.construct p).Inv where
  addr := resolveAddr_eq p.addrSpec
  err := BitVec.zero_and
  table q := by rw [construct_cbt]; decide
  fresh _ := rfl
  forced h := nomatch h

/-- Settles O2. -/
theorem invariantHoldsAtConstruction : Obligations.InvariantHoldsAtConstruction :=
  ⟨construct_inv, construct_inv defaultParams⟩

/-! ### The invariant is kept (10_state R22, R23, R26, R28, R31) -/

/-- The invariant reads seven fields, so a change of the others keeps it. -/
theorem inv_of_eq {s t : State} (h : s.Inv) (haddr : t.addr = s.addr) (habits : t.abits = s.abits)
    (herr : t.err &&& 0xFFC2#16 = s.err &&& 0xFFC2#16) (hcbt : t.cbt = s.cbt) (hinit : t.init = s.init)
    (hvar : t.variant = s.variant) (hforced : t.forced = s.forced) : t.Inv where
  addr := by rw [haddr, habits]; exact h.addr
  err := herr.trans h.err
  table := by rw [hcbt]; exact h.table
  fresh := by rw [hinit, hvar]; exact h.fresh
  forced := by rw [hinit, hvar, hforced]; exact h.forced

/-- Two flag words that agree outside a set of assigned flags agree on InvalidMask and the reserved bits. -/
theorem reserved_of_outside {e f m : Half} (h : e &&& ~~~m = f &&& ~~~m) (hm : ~~~m &&& 0xFFC2#16 = 0xFFC2#16) :
    e &&& 0xFFC2#16 = f &&& 0xFFC2#16 := by
  rw [← hm, ← BitVec.and_assoc, ← BitVec.and_assoc, h]

theorem flagMask_reserved {f : Flag} (hf : f ≠ .invalidMask) : ~~~flagMask f &&& 0xFFC2#16 = 0xFFC2#16 := by
  cases f with
  | invalidMask => exact absurd rfl hf
  | _ => decide

theorem inv_raiseFlag {s : State} {f : Flag} (h : s.Inv) (hf : f ≠ .invalidMask) : (s.raiseFlag f).Inv := by
  have herr := raised_outside s.err (flagMask f) f BitVec.and_self
  exact inv_of_eq h rfl rfl (reserved_of_outside herr (flagMask_reserved hf)) rfl rfl rfl rfl

/-- Masking the flag word sets no bit of it. -/
theorem inv_err_and {s : State} (m : Half) (h : s.Inv) : State.Inv { s with err := s.err &&& m } where
  addr := h.addr
  err := by
    show s.err &&& m &&& 0xFFC2#16 = 0#16
    rw [BitVec.and_assoc, BitVec.and_comm m, ← BitVec.and_assoc, h.err, BitVec.zero_and]
  table := h.table
  fresh := h.fresh
  forced := h.forced

theorem inv_clearFlags {s : State} (fs : List Flag) (h : s.Inv) : (s.clearFlags fs).Inv := inv_err_and _ h

theorem inv_talked {P : BusCall → Prop} {s t : State} (h : s.Inv) (ht : Talked P s t) : t.Inv := by
  have hframe := ht.frame
  exact inv_of_eq h (by rw [hframe]) (by rw [hframe]) (reserved_of_outside ht.err (by decide)) (by rw [hframe])
    (by rw [hframe]) (by rw [hframe]) (by rw [hframe])

theorem inv_initEffect {s t : State} (h : s.Inv) (ht : InitEffect s t) : t.Inv := by
  have hframe := ht.inited.frame
  have hforced : t.forced = s.forced := by rw [hframe]
  refine ⟨?_, (reserved_of_outside ht.inited.err (by decide)).trans h.err, ?_, fun hi => ?_, fun hi hf => ?_⟩
  · rw [hframe]; exact h.addr
  · rw [hframe]; exact h.table
  · have hs : s.init = false := Bool.eq_false_iff.2 fun hs => by simp [ht.init hs] at hi
    rw [ht.fresh hi]
    exact h.fresh hs
  · rw [hforced] at hf ⊢
    rcases ht.forced hi hf with hv | rfl
    · exact hv
    · exact h.forced hi hf

theorem inv_changeAddress {s : State} {a : Byte} (h : s.Inv) (h1 : 0x20 ≤ a.toNat) (h2 : a.toNat ≤ 0x27) :
    (s.changeAddress a).Inv where
  addr := addr_of_low_bits h1 h2
  err := h.err
  table := h.table
  fresh _ := rfl
  forced hi := nomatch hi

/-- An entry that is registered exactly when its handle is not 0 may be stored (10_state R31). -/
theorem inv_setCallback {s : State} {pin : Byte} {e : CbEntry} (h : s.Inv) (he : e.reg = true ↔ e.id ≠ 0#8) :
    (s.setCallback pin e).Inv where
  addr := h.addr
  err := h.err
  table p := by
    simp only [setCallback_cbt, Fin.getElem_fin, Vector.getElem_setIfInBounds]
    split
    · exact he
    · exact h.table p
  fresh := h.fresh
  forced := h.forced

theorem badAddress_chaddr {a : Byte} (h : badAddress (.chaddr a) = false) : 0x20 ≤ a.toNat ∧ a.toNat ≤ 0x27 := by
  simpa [badAddress, BitVec.lt_def] using h

theorem inv_bodyEffect {i : Instr} {u t : State} (h : u.Inv) (hw : i.wf = true) (ha : badAddress i = false)
    (ht : BodyEffect i u t) : t.Inv := by
  cases ht with
  | query => exact h
  | talk _ hwent => exact inv_talked h hwent.1
  | detect hinit => exact inv_initEffect h hinit
  | setretry n => exact inv_of_eq h rfl rfl rfl rfl rfl rfl rfl
  | clrerr m => exact inv_err_and _ h
  | chaddr a hinit =>
    obtain ⟨h1, h2⟩ := badAddress_chaddr ha
    exact inv_initEffect (inv_changeAddress h h1 h2) hinit
  | cbreg pin id edge hwent =>
    exact inv_talked (inv_setCallback h (by simpa [Instr.wf] using hw)) hwent.1
  | cbregSnap pin id edge cur hwent =>
    have hv := inv_talked (inv_setCallback h (by simpa [Instr.wf] using hw)) hwent.1
    exact inv_of_eq hv rfl rfl rfl rfl rfl rfl rfl
  | cbunreg pin => exact inv_setCallback h (by decide)
  | cbglobal id => exact inv_of_eq h rfl rfl rfl rfl rfl rfl rfl
  | dispatch st cur hwent => exact inv_of_eq (inv_talked h hwent.1) rfl rfl rfl rfl rfl rfl rfl

theorem inv_effect {i : Instr} {s t : State} (h : s.Inv) (ht : Effect i s t) : t.Inv := by
  cases ht with
  | illegal _ => exact h
  | invalidPin p _ _ => exact inv_raiseFlag h (by decide)
  | invalidAddress a _ _ => exact inv_raiseFlag h (by decide)
  | notReady _ hinit _ => exact inv_initEffect h hinit
  | gated hprep _ _ => exact inv_raiseFlag (inv_initEffect h (Prepared.effect hprep).1) (by decide)
  | ran hprep hw ha _ _ hbody =>
    exact inv_bodyEffect (inv_clearFlags _ (inv_initEffect h (Prepared.effect hprep).1)) hw ha hbody

theorem exec_inv {i : Instr} {s t : State} (h : s.Inv) (he : exec i s = .next t) : t.Inv := by
  obtain ⟨u, r, hu, rfl⟩ := exec_effect he
  exact inv_of_eq (inv_effect h hu) rfl rfl rfl rfl rfl rfl rfl

/-- Settles O3: a step idles, answers an illegal command, or runs a command, and each keeps the invariant. -/
theorem everyStepKeepsTheInvariant : Obligations.EveryStepKeepsTheInvariant := by
  intro s t h hstep
  unfold step at hstep
  split at hstep
  · cases hstep
  · split at hstep
    · cases hstep
      exact h
    · cases hstep
      exact inv_of_eq h rfl rfl rfl rfl rfl rfl rfl
    · refine exec_inv ?_ hstep
      exact inv_of_eq h rfl rfl rfl rfl rfl rfl rfl

end Sys2Proof.Proofs

namespace Sys2Proof.Proofs

open Sys2Proof.Machine Sys2Proof.Laws

/-! ### Which command writes which field (10_state R21) -/

/-- The six commands that call, raise and clear nothing. -/
def Quiet (i : Instr) : Prop :=
  (∃ n, i = .setretry n) ∨ i = .geterr ∨ i = .getvar ∨ i = .hasext ∨ i = .getaddr ∨ ∃ c, i = .cbglobal c

theorem Quiet.attr_eq {i : Instr} (h : Quiet i) : attr i = ⟨false, false, false, []⟩ := by
  rcases h with ⟨n, rfl⟩ | rfl | rfl | rfl | rfl | ⟨c, rfl⟩ <;> rfl

theorem Quiet.not_lazy {i : Instr} (h : Quiet i) : lazyCommand i = false := by
  rw [lazyCommand_eq, h.attr_eq]

/-- What the command `i` leaves between two states of its run, where `d` says that it may run a detection. The
relation is closed under `trans`, so a command has it when each of its stages has. -/
structure Framed (i : Instr) (d : Prop) (s t : State) : Prop where
  cbt : (∀ p e c, i ≠ .cbreg p e c) → (∀ p, i ≠ .cbunreg p) → t.cbt = s.cbt
  gcb : (∀ c, i ≠ .cbglobal c) → t.gcb = s.gcb
  snap : (∀ p e c, i ≠ .cbreg p e c) → i ≠ .handle → t.snap = s.snap
  events : i ≠ .handle → t.events = s.events
  address : (∀ a, i ≠ .chaddr a) → t.addr = s.addr ∧ t.abits = s.abits
  retriesDone : (∀ n, i ≠ .setretry n) → t.stuck = none → t.retries = s.retries
  retries : (∀ n, i ≠ .setretry n) → ¬ d → t.retries = s.retries
  saved : ¬ d → t.savedRetries = s.savedRetries
  err : Quiet i → t.err = s.err
  variant : (∀ a, i ≠ .chaddr a) → i ≠ .detect → s.init = true → t.variant = s.variant
  init : (∀ a, i ≠ .chaddr a) → s.init = true → t.init = true
  offline : lazyCommand i = false → (∀ a, i ≠ .chaddr a) → i ≠ .detect →
    t.variant = s.variant ∧ t.init = s.init ∧ t.history = s.history ∧ t.stuck = s.stuck
  stuck : t.stuck = none → s.stuck = none
  params : t.forced = s.forced ∧ t.hasPinHook = s.hasPinHook ∧ t.regMap = s.regMap ∧ t.probeStd = s.probeStd ∧
    t.probeExt = s.probeExt ∧ t.port = s.port

section

variable {i : Instr} {d : Prop} {s t u : State}

theorem Framed.refl : Framed i d s s := by
  constructor <;> simp

theorem Framed.trans (h : Framed i d s t) (g : Framed i d t u) : Framed i d s u where
  cbt h1 h2 := (g.cbt h1 h2).trans (h.cbt h1 h2)
  gcb h1 := (g.gcb h1).trans (h.gcb h1)
  snap h1 h2 := (g.snap h1 h2).trans (h.snap h1 h2)
  events h1 := (g.events h1).trans (h.events h1)
  address h1 := by rw [(g.address h1).1, (g.address h1).2]; exact h.address h1
  retriesDone h1 h2 := (g.retriesDone h1 h2).trans (h.retriesDone h1 (g.stuck h2))
  retries h1 h2 := (g.retries h1 h2).trans (h.retries h1 h2)
  saved h1 := (g.saved h1).trans (h.saved h1)
  err h1 := (g.err h1).trans (h.err h1)
  variant h1 h2 h3 := (g.variant h1 h2 (h.init h1 h3)).trans (h.variant h1 h2 h3)
  init h1 h2 := g.init h1 (h.init h1 h2)
  offline h1 h2 h3 := by
    obtain ⟨g1, g2, g3, g4⟩ := g.offline h1 h2 h3
    rw [g1, g2, g3, g4]
    exact h.offline h1 h2 h3
  stuck h1 := h.stuck (g.stuck h1)
  params := by
    obtain ⟨g1, g2, g3, g4, g5, g6⟩ := g.params
    rw [g1, g2, g3, g4, g5, g6]
    exact h.params

/-- A change of the flag word alone, by a command that is not one of the six. -/
theorem Framed.of_err {e : Half} (h : ¬ Quiet i) : Framed i d s { s with err := e } := by
  constructor <;> simp [h]

theorem Framed.raiseFlag {f : Flag} (h : ¬ Quiet i) : Framed i d s (s.raiseFlag f) := .of_err h

theorem Framed.clearFlags : Framed i d s (s.clearFlags (attr i).clear) := by
  by_cases h : Quiet i
  · rw [h.attr_eq, clearFlags_nil]
    exact .refl
  · exact .of_err h

theorem Framed.respond {r : Option Response} : Framed i d s { s with response := r } := by
  constructor <;> simp

theorem stuck_of_returned_or_hangs {P : BusCall → Prop} (h : Returned s t ∨ Hangs P s t) :
    t.stuck = none → s.stuck = none := by
  intro ht
  rcases h with h | h
  · exact h.stuck.symm.trans ht
  · obtain ⟨c, hc, -⟩ := h.stuck
    rw [ht] at hc
    cases hc

/-- A talk, by a command of `lazyCommand`: every command whose body only calls is one. -/
theorem Framed.of_went {P : BusCall → Prop} (hl : lazyCommand i = true) (h : Went P s t) : Framed i d s t := by
  obtain ⟨htalk, hend⟩ := h
  have hstuck := stuck_of_returned_or_hangs hend
  have hq : ¬ Quiet i := fun hq => by simp [hq.not_lazy] at hl
  rw [htalk.frame] at hstuck ⊢
  constructor
  case stuck => exact hstuck
  all_goals simp [hl, hq]

/-- An initialisation, by a command that runs the detection unless a variant is forced or nothing is left to do. -/
theorem Framed.of_init (h : InitEffect s t) (hi : lazyCommand i = true ∨ i = .detect ∨ ∃ a, i = .chaddr a)
    (hd : ¬ d → s.forced ≠ .none ∨ t = s)
    (hv : (∀ a, i ≠ .chaddr a) → i ≠ .detect → s.init = true → t = s) : Framed i d s t := by
  have hq : ¬ Quiet i := by
    intro hq
    rcases hi with hl | rfl | ⟨a, rfl⟩
    · simp [hq.not_lazy] at hl
    · simp [Quiet] at hq
    · simp [Quiet] at hq
  have hkeeps : ¬ d → t.retries = s.retries ∧ t.savedRetries = s.savedRetries := fun hn =>
    (hd hn).elim h.keeps fun he => by rw [he]; exact ⟨rfl, rfl⟩
  have hframe := h.inited.frame
  exact {
    cbt := fun _ _ => by rw [hframe]
    gcb := fun _ => by rw [hframe]
    snap := fun _ _ => by rw [hframe]
    events := fun _ => by rw [hframe]
    address := fun _ => by rw [hframe]; exact ⟨rfl, rfl⟩
    retriesDone := fun _ hs => by
      rcases h.outcome with ⟨-, hr⟩ | hh
      · exact hr
      · obtain ⟨c, hc, -⟩ := hh.stuck
        rw [hs] at hc
        cases hc
    retries := fun _ hn => (hkeeps hn).1
    saved := fun hn => (hkeeps hn).2
    err := fun h => absurd h hq
    variant := fun h1 h2 h3 => by rw [hv h1 h2 h3]
    init := fun _ => h.init
    offline := fun h1 h2 h3 => by
      rcases hi with hl | hdet | ⟨a, ha⟩
      · rw [hl] at h1; cases h1
      · exact absurd hdet h3
      · exact absurd ha (h2 a)
    stuck := stuck_of_returned_or_hangs (h.outcome.imp_left fun h => h.1)
    params := by rw [hframe]; exact ⟨rfl, rfl, rfl, rfl, rfl, rfl⟩ }

end

theorem framed_setCallback {s : State} {i : Instr} {d : Prop} {pin : Byte} {e : CbEntry}
    (h : (∃ id edge, i = .cbreg pin id edge) ∨ i = .cbunreg pin) : Framed i d s (s.setCallback pin e) := by
  rcases h with ⟨id, edge, rfl⟩ | rfl <;> constructor <;> simp [Quiet]

theorem framed_setSnap {s : State} {d : Prop} {pin id : Byte} {edge : Edge} {cur : Half} :
    Framed (.cbreg pin id edge) d s (s.setSnap cur) := by
  constructor <;> simp [Quiet]

theorem framed_dispatch {s : State} {d : Prop} {st cur : Half} : Framed .handle d s (s.dispatch st cur) := by
  constructor <;> simp [Quiet]

theorem framed_setRetries {s : State} {d : Prop} {n : Byte} :
    Framed (.setretry n) d s { s with retries := n } := by
  constructor <;> simp

theorem framed_setGlobal {s : State} {d : Prop} {id : Byte} : Framed (.cbglobal id) d s { s with gcb := id } := by
  constructor <;> simp

theorem framed_changeAddress {s : State} {d : Prop} {a : Byte} : Framed (.chaddr a) d s (s.changeAddress a) := by
  constructor <;> simp [Quiet]

/-- A legal DETECT or CHADDR that runs no detection has a forced variant. -/
theorem forced_of_not_runsDetection {i : Instr} {s : State} (ha : badAddress i = false)
    (hi : i = .detect ∨ ∃ a, i = .chaddr a) (hd : ¬ RunsDetection i s) : s.forced ≠ .none := by
  intro hf
  rcases hi with rfl | ⟨a, rfl⟩
  · exact hd (runsDetection_detect.2 hf)
  · exact hd (runsDetection_chaddr.2 ⟨hf, badAddress_chaddr ha⟩)

theorem framed_body {i : Instr} {s u t : State} (ha : badAddress i = false) (hf : u.forced = s.forced)
    (h : BodyEffect i u t) : Framed i (RunsDetection i s) u t := by
  cases h with
  | query => exact .refl
  | talk hl hwent => exact .of_went hl hwent
  | detect hinit =>
    refine .of_init hinit (.inr (.inl rfl)) (fun hd => .inl ?_) (by simp)
    rw [hf]
    exact forced_of_not_runsDetection ha (.inl rfl) hd
  | setretry n => exact framed_setRetries
  | clrerr m => exact .of_err (by simp [Quiet])
  | chaddr a hinit =>
    refine framed_changeAddress.trans (.of_init hinit (.inr (.inr ⟨a, rfl⟩)) (fun hd => .inl ?_) (by simp))
    rw [changeAddress_forced, hf]
    exact forced_of_not_runsDetection ha (.inr ⟨a, rfl⟩) hd
  | cbreg pin id edge hwent => exact (framed_setCallback (.inl ⟨id, edge, rfl⟩)).trans (.of_went rfl hwent)
  | cbregSnap pin id edge cur hwent =>
    exact ((framed_setCallback (.inl ⟨id, edge, rfl⟩)).trans (.of_went rfl hwent)).trans framed_setSnap
  | cbunreg pin => exact framed_setCallback (.inr rfl)
  | cbglobal id => exact framed_setGlobal
  | dispatch st cur hwent => exact (Framed.of_went rfl hwent).trans framed_dispatch

theorem framed_lazyInit {i : Instr} {s u : State} (hl : lazyCommand i = true) (h : InitEffect s u)
    (hdone : s.init = true → u = s) : Framed i (RunsDetection i s) s u := by
  refine .of_init h (.inl hl) (fun hd => ?_) fun _ _ => hdone
  rw [runsDetection_lazy hl, not_and_or, Bool.not_eq_false] at hd
  exact hd.imp_right hdone

theorem framed_prepared {i : Instr} {s u : State} (h : Prepared i s u) : Framed i (RunsDetection i s) s u := by
  obtain ⟨hinit, hdone, hoff⟩ := Prepared.effect h
  cases hl : lazyCommand i with
  | false => rw [hoff hl]; exact .refl
  | true => exact framed_lazyInit hl hinit hdone

/-- None of the six commands names a pin or an address, or is gated. -/
theorem not_quiet_of_refused {i : Instr} (h : namedPins i ≠ [] ∨ (∃ a, i = .chaddr a) ∨ extendedCommand i = true) :
    ¬ Quiet i := by
  rintro (⟨n, rfl⟩ | rfl | rfl | rfl | rfl | ⟨c, rfl⟩) <;> simp [namedPins, extendedCommand] at h

theorem framed_effect {i : Instr} {s t : State} (h : Effect i s t) : Framed i (RunsDetection i s) s t := by
  cases h with
  | illegal _ => exact .refl
  | invalidPin p hp _ => exact .raiseFlag (not_quiet_of_refused (.inl (List.ne_nil_of_mem hp)))
  | invalidAddress a ha _ => exact .raiseFlag (not_quiet_of_refused (.inr (.inl ⟨a, ha⟩)))
  | notReady hl hinit hdone => exact framed_lazyInit hl hinit hdone
  | gated hprep hx _ => exact (framed_prepared hprep).trans (.raiseFlag (not_quiet_of_refused (.inr (.inr hx))))
  | ran hprep _ ha _ _ hbody =>
    have hready := (framed_prepared hprep).trans .clearFlags
    exact hready.trans (framed_body ha hready.params.1 hbody)

theorem exec_framed {i : Instr} {s t : State} (h : exec i s = .next t) : Framed i (RunsDetection i s) s t := by
  obtain ⟨u, r, hu, rfl⟩ := exec_effect h
  exact (framed_effect hu).trans .respond

/-- Settles O49: the clauses are the fields of `Framed`. -/
theorem eachFieldHasOnlyItsWriters : Obligations.EachFieldHasOnlyItsWriters := by
  intro i s t h
  have hf := exec_framed h
  exact ⟨hf.cbt, hf.gcb, hf.snap, hf.events, hf.address, fun h1 _ => hf.retriesDone h1, hf.retries, hf.saved,
    hf.err, hf.variant, hf.init, hf.offline, hf.params⟩

end Sys2Proof.Proofs

namespace Sys2Proof.Proofs

open Sys2Proof.Machine Sys2Proof.Laws

/-! ### The calls a command makes and the flags it raises (20_memory R74, R77, 60_exceptions R320) -/

theorem newly_split {s t u : State} {k : Nat} (h : Newly s u k) : Newly s t k ∨ Newly t u k := by
  obtain ⟨h1, h2⟩ := h
  cases hb : t.err.getLsbD k
  · exact .inr ⟨hb, h2⟩
  · exact .inl ⟨h1, hb⟩

theorem not_newly_of_and {s t : State} {m : Half} (h : t.err = s.err &&& m) (k : Nat) : ¬ Newly s t k := by
  rintro ⟨h1, h2⟩
  simp [h, h1] at h2

theorem not_newly_of_eq {s t : State} (h : t.err = s.err) (k : Nat) : ¬ Newly s t k := by
  rintro ⟨h1, h2⟩
  simp [h, h1] at h2

/-- A flag newly set lies in the mask outside which the flag word is unchanged. -/
theorem newly_inside {s t : State} {m : Half} (h : t.err &&& ~~~m = s.err &&& ~~~m) {k : Nat} (hk : Newly s t k) :
    m.getLsbD k = true := by
  obtain ⟨h1, h2⟩ := hk
  by_contra hm
  rw [bit_of_outside h (Bool.eq_false_iff.2 hm), h1] at h2
  cases h2

theorem newly_raiseFlag {s : State} {f : Flag} {k : Nat} (h : Newly s (s.raiseFlag f) k) :
    (flagMask f).getLsbD k = true := by
  obtain ⟨h1, h2⟩ := h
  simpa [raised, h1] using h2

/-- The bits of a flag word's mask, read off a check of its 16 bits. -/
theorem bit_of_all {m : Half} {p : Nat → Prop} (h : ∀ k : Fin 16, m.getLsbD k = true → p k) {k : Nat}
    (hk : m.getLsbD k = true) : p k :=
  h ⟨k, BitVec.lt_of_getLsbD hk⟩ hk

/-- What a stage of a command leaves of the history, the hang record and the flags: it makes only the calls P, the one
that never returned included, and raises a transport flag only with a failed call of its direction, and any other
flag k only under C k. -/
structure Served (P : BusCall → Prop) (C : Nat → Prop) (s t : State) : Prop where
  history : ∃ evs, t.history = s.history ++ evs ∧ (∀ e ∈ evs, P e.call) ∧
    (Newly s t 2 → ∃ e ∈ evs, ∃ d r, e = readMiss d r) ∧
    (Newly s t 3 → ∃ e ∈ evs, ∃ d r b, e = writeMiss d r b)
  stuck : t.stuck = s.stuck ∨ ∃ c, t.stuck = some c ∧ P c
  flags : ∀ k, Newly s t k → k = 2 ∨ k = 3 ∨ C k

section

variable {P : BusCall → Prop} {C : Nat → Prop} {s t u : State}

theorem Served.trans (h : Served P C s t) (g : Served P C t u) : Served P C s u := by
  obtain ⟨e1, h1, h2, h3, h4⟩ := h.history
  obtain ⟨e2, g1, g2, g3, g4⟩ := g.history
  refine ⟨⟨e1 ++ e2, by rw [g1, h1, List.append_assoc], ?_, fun hn => ?_, fun hn => ?_⟩, ?_, fun k hn => ?_⟩
  · exact fun e he => (List.mem_append.1 he).elim (h2 e) (g2 e)
  · rcases newly_split (t := t) hn with hn | hn
    · obtain ⟨e, he, hm⟩ := h3 hn; exact ⟨e, List.mem_append_left _ he, hm⟩
    · obtain ⟨e, he, hm⟩ := g3 hn; exact ⟨e, List.mem_append_right _ he, hm⟩
  · rcases newly_split (t := t) hn with hn | hn
    · obtain ⟨e, he, hm⟩ := h4 hn; exact ⟨e, List.mem_append_left _ he, hm⟩
    · obtain ⟨e, he, hm⟩ := g4 hn; exact ⟨e, List.mem_append_right _ he, hm⟩
  · rcases g.stuck with hg | hg
    · rw [hg]; exact h.stuck
    · exact .inr hg
  · exact (newly_split hn).elim (h.flags k) (g.flags k)

/-- A stage that calls nothing and raises neither transport flag. -/
theorem Served.of_noCall (hh : t.history = s.history) (hs : t.stuck = s.stuck)
    (hf : ∀ k, Newly s t k → k ≠ 2 ∧ k ≠ 3 ∧ C k) : Served P C s t where
  history := ⟨[], by simpa using hh, by simp, fun hn => absurd rfl (hf 2 hn).1, fun hn => absurd rfl (hf 3 hn).2.1⟩
  stuck := .inl hs
  flags k hn := .inr (.inr (hf k hn).2.2)

/-- A stage that calls nothing and raises nothing. -/
theorem Served.of_still (hh : t.history = s.history) (hs : t.stuck = s.stuck) (hf : ∀ k, ¬ Newly s t k) :
    Served P C s t :=
  .of_noCall hh hs fun k hn => absurd hn (hf k)

theorem Served.refl : Served P C s s := .of_still rfl rfl (not_newly_of_eq rfl)

theorem Served.clearFlags {fs : List Flag} : Served P C s (s.clearFlags fs) :=
  .of_still rfl rfl (not_newly_of_and rfl)

theorem Served.raiseFlag {f : Flag}
    (hf : ∀ k : Fin 16, (flagMask f).getLsbD k = true → k.val ≠ 2 ∧ k.val ≠ 3 ∧ C k) :
    Served P C s (s.raiseFlag f) :=
  .of_noCall rfl rfl fun _ hn => bit_of_all (p := fun k => k ≠ 2 ∧ k ≠ 3 ∧ C k) hf (newly_raiseFlag hn)

/-- The hang record after an end: as it was, or one of the calls P. -/
theorem stuck_of_end {Q : BusCall → Prop} (h : Returned s t ∨ Hangs Q s t) (hPQ : ∀ c, Q c → P c) :
    t.stuck = s.stuck ∨ ∃ c, t.stuck = some c ∧ P c :=
  h.imp (fun h => h.stuck) fun h => (h.mono hPQ).stuck

theorem Served.of_went {Q : BusCall → Prop} (h : Went Q s t) (hPQ : ∀ c, Q c → P c) : Served P C s t where
  history := (h.1.mono hPQ).history
  stuck := stuck_of_end h.2 hPQ
  flags k hn := by
    have hk := bit_of_all (p := fun k => k = 2 ∨ k = 3) (by decide) (newly_inside h.1.err hn)
    exact hk.imp_right .inl

theorem Served.of_init (h : InitEffect s t) (hP : ∀ c, InitCall s c → P c) : Served P C s t := by
  have honly : ∀ k, Newly s t k → k = 2 := fun k hn =>
    bit_of_all (p := fun k => k = 2) (by decide) (newly_inside h.inited.err hn)
  obtain ⟨evs, h1, h2, h3⟩ := h.inited.history
  exact {
    history := ⟨evs, h1, fun e he => hP _ (h2 e he), h3, fun hn => absurd (honly 3 hn) (by decide)⟩
    stuck := stuck_of_end (h.outcome.imp_left fun h => h.1) hP
    flags := fun k hn => .inl (honly k hn) }

/-- The calls of a stage in issue order, the one that never returned last. -/
theorem Served.issued (h : Served P C s t) : ∃ cs, Issued s t cs ∧ ∀ c ∈ cs, P c := by
  obtain ⟨evs, h1, h2, -⟩ := h.history
  have hcalls : ∀ c ∈ evs.map fun e => e.call, P c := List.forall_mem_map.2 h2
  rcases h.stuck with h3 | ⟨c, h3, hc⟩
  · exact ⟨_, Issued.completed h1 h3, hcalls⟩
  · exact ⟨_, Issued.hung h1 h3, List.forall_mem_append.2 ⟨hcalls, List.forall_mem_singleton.2 hc⟩⟩

end

/-- The calls a command that ends in `t` may make: those of an initialisation and those of its body. -/
def CommandCall (i : Instr) (t : State) (c : BusCall) : Prop := InitCall t c ∨ BodyCall i t c

/-- The cause of each flag but the transport's, for a command that ends in `t` (60_exceptions R320). -/
def Cause (i : Instr) (t : State) (k : Nat) : Prop :=
  (k = 0 ∧ ∃ p ∈ namedPins i, 16 ≤ p.toNat) ∨
  (k = 4 ∧ extendedCommand i = true ∧ t.variant ≠ .extendedCapable) ∨
  (k = 5 ∧ ∃ a, i = .chaddr a ∧ (a.toNat < 0x20 ∨ 0x27 < a.toNat))

/-- The fields that name the calls of an initialisation. -/
theorem initCall_congr {s t : State} (ha : t.addr = s.addr) (hs : t.probeStd = s.probeStd)
    (hx : t.probeExt = s.probeExt) : InitCall t = InitCall s := by
  unfold InitCall
  rw [ha, hs, hx]

/-- The fields that name the calls of a body. -/
theorem bodyCall_congr {i : Instr} {s t : State} (ha : t.addr = s.addr) (hm : t.regMap = s.regMap)
    (hv : t.variant = s.variant) : BodyCall i t = BodyCall i s := by
  unfold BodyCall
  rw [ha]
  congr 1
  · unfold bodyReads
    rw [hm, hv]
  · unfold bodyWrites
    rw [hm, hv]

theorem initCall_raiseFlag (s : State) (f : Flag) : InitCall (s.raiseFlag f) = InitCall s := initCall_congr rfl rfl rfl

theorem initCall_clearFlags (s : State) (fs : List Flag) : InitCall (s.clearFlags fs) = InitCall s :=
  initCall_congr rfl rfl rfl

theorem bodyCall_setCallback (i : Instr) (u : State) (pin : Byte) (e : CbEntry) :
    BodyCall i (u.setCallback pin e) = BodyCall i u :=
  bodyCall_congr rfl rfl rfl

theorem bodyCall_setSnap (i : Instr) (u : State) (cur : Half) : BodyCall i (u.setSnap cur) = BodyCall i u :=
  bodyCall_congr rfl rfl rfl

theorem bodyCall_dispatch (i : Instr) (u : State) (st cur : Half) : BodyCall i (u.dispatch st cur) = BodyCall i u :=
  bodyCall_congr rfl rfl rfl

theorem initCall_of_inited {s t : State} (h : Inited s t) : InitCall t = InitCall s :=
  initCall_congr (by rw [h.frame]) (by rw [h.frame]) (by rw [h.frame])

theorem Served.of_initEffect {i : Instr} {C : Nat → Prop} {s u t : State} (h : InitEffect s u)
    (ht : InitCall t = InitCall s) : Served (CommandCall i t) C s u :=
  .of_init h fun _ hc => .inl (ht ▸ hc)

theorem Served.of_bodyWent {i : Instr} {C : Nat → Prop} {s u v t : State} (h : Went (BodyCall i s) u v)
    (ht : BodyCall i t = BodyCall i s) : Served (CommandCall i t) C u v :=
  .of_went h fun _ hc => .inr (ht ▸ hc)

theorem Talked.bodyCall {i : Instr} {P : BusCall → Prop} {u v : State} (h : Talked P u v) :
    BodyCall i v = BodyCall i u :=
  bodyCall_congr h.addr h.regMap h.variant

/-- What the body of a command leaves of the history, the hang record and the flags. -/
theorem served_body {i : Instr} {C : Nat → Prop} {u t : State} (h : BodyEffect i u t) :
    Served (CommandCall i t) C u t := by
  cases h with
  | query => exact .refl
  | talk _ hwent => exact .of_bodyWent hwent (Talked.bodyCall hwent.1)
  | detect hinit => exact .of_initEffect hinit (initCall_of_inited hinit.inited)
  | setretry n => exact .of_still rfl rfl (not_newly_of_eq rfl)
  | clrerr m => exact .of_still rfl rfl (not_newly_of_and rfl)
  | chaddr a hinit =>
    have hset : Served (CommandCall (.chaddr a) t) C u (u.changeAddress a) :=
      .of_still rfl rfl (not_newly_of_eq rfl)
    exact hset.trans (.of_initEffect hinit (initCall_of_inited hinit.inited))
  | cbreg pin id edge hwent =>
    have hset : Served (CommandCall (.cbreg pin id edge) t) C u (u.setCallback pin ⟨true, id, edge⟩) :=
      .of_still rfl rfl (not_newly_of_eq rfl)
    refine hset.trans (.of_bodyWent hwent ?_)
    rw [Talked.bodyCall hwent.1, bodyCall_setCallback]
  | @cbregSnap _ v pin id edge cur hwent =>
    have hset : Served (CommandCall (.cbreg pin id edge) (v.setSnap cur)) C u
        (u.setCallback pin ⟨true, id, edge⟩) := .of_still rfl rfl (not_newly_of_eq rfl)
    refine (hset.trans (.of_bodyWent hwent ?_)).trans (.of_still rfl rfl (not_newly_of_eq rfl))
    rw [bodyCall_setSnap, Talked.bodyCall hwent.1, bodyCall_setCallback]
  | cbunreg pin => exact .of_still rfl rfl (not_newly_of_eq rfl)
  | cbglobal id => exact .of_still rfl rfl (not_newly_of_eq rfl)
  | dispatch st cur hwent =>
    refine (Served.of_bodyWent hwent ?_).trans (.of_still rfl rfl (not_newly_of_eq rfl))
    rw [bodyCall_dispatch, Talked.bodyCall hwent.1]

/-- CHADDR is not a `lazyCommand`, so a command that initialises in the frame keeps its address. -/
theorem initCall_of_body {i : Instr} {u t : State} (hl : lazyCommand i = true) (h : BodyEffect i u t)
    (ha : badAddress i = false) : InitCall t = InitCall u := by
  have hf := framed_body (s := u) ha rfl h
  obtain ⟨-, -, -, hs, hx, -⟩ := hf.params
  refine initCall_congr (hf.address fun a hi => ?_).1 hs hx
  rw [hi] at hl
  cases hl

/-- Everything a command leaves of the history, the hang record and the flags. -/
theorem served_effect {i : Instr} {s t : State} (h : Effect i s t) :
    Served (CommandCall i t) (Cause i t) s t := by
  cases h with
  | illegal _ => exact .refl
  | invalidPin p hp hp16 =>
    have hcause : Cause i (s.raiseFlag .invalidPin) 0 := .inl ⟨rfl, p, hp, hp16⟩
    refine .raiseFlag fun k hk => ?_
    obtain rfl : k = 0 := by revert k; decide
    exact ⟨by decide, by decide, hcause⟩
  | invalidAddress a ha hr =>
    have hcause : Cause i (s.raiseFlag .invalidAddress) 5 := .inr (.inr ⟨rfl, a, ha, hr⟩)
    refine .raiseFlag fun k hk => ?_
    obtain rfl : k = 5 := by revert k; decide
    exact ⟨by decide, by decide, hcause⟩
  | notReady _ hinit _ => exact .of_initEffect hinit (initCall_of_inited hinit.inited)
  | @gated u hprep hx hv =>
    have hinit := (Prepared.effect hprep).1
    have hcause : Cause i (u.raiseFlag .unsupportedFeature) 4 := .inr (.inl ⟨rfl, hx, hv⟩)
    refine Served.trans (.of_initEffect hinit ?_) (.raiseFlag fun k hk => ?_)
    · rw [initCall_raiseFlag, initCall_of_inited hinit.inited]
    · obtain rfl : k = 4 := by revert k; decide
      exact ⟨by decide, by decide, hcause⟩
  | @ran u _ hprep _ ha _ _ hbody =>
    have hready : Served (CommandCall i t) (Cause i t) s u := by
      obtain ⟨hinit, -, hoff⟩ := Prepared.effect hprep
      cases hl : lazyCommand i with
      | false => rw [hoff hl]; exact .refl
      | true =>
        refine .of_initEffect hinit ?_
        rw [initCall_of_body hl hbody ha, initCall_clearFlags, initCall_of_inited hinit.inited]
    exact (hready.trans .clearFlags).trans (served_body hbody)

theorem exec_served {i : Instr} {s t : State} (h : exec i s = .next t) :
    Served (CommandCall i t) (Cause i t) s t := by
  obtain ⟨u, r, hu, rfl⟩ := exec_effect h
  have hserved := served_effect hu
  exact ⟨hserved.history, hserved.stuck, hserved.flags⟩

/-! The registers a body may name are those of the map (20_memory R77). -/

/-- The registers of the map, both banks. -/
def mapRegs (m : RegMap) : List Byte := standardBank m ++ extendedBank m

theorem resetWrites_in_map (m : RegMap) (v : Variant) : (resetWrites m v).map Prod.fst ⊆ mapRegs m := by
  unfold resetWrites
  split <;> simp [resetStandard, resetExtended, mapRegs, standardBank, extendedBank]

theorem bodyReads_in_map (u : State) (i : Instr) : bodyReads u i ⊆ mapRegs u.regMap := by
  cases i with
  | handle =>
    simp only [bodyReads]
    split <;> simp [pairRegs, mapRegs, standardBank, extendedBank]
  | _ => simp [bodyReads, pairRegs, driveRegs, mapRegs, standardBank, extendedBank]

theorem bodyWrites_in_map (u : State) (i : Instr) : bodyWrites u i ⊆ mapRegs u.regMap := by
  cases i with
  | rstdef => exact resetWrites_in_map _ _
  | _ => simp [bodyWrites, pairRegs, driveRegs, mapRegs, standardBank, extendedBank]

/-- A data call of a command goes to ADDR and names a register of the map or a probe register. -/
theorem commandCall_target {i : Instr} {t : State} {c : BusCall} (h : CommandCall i t c) :
    (∀ d, callDev c = some d → d = t.addr) ∧
    (∀ r, callReg c = some r →
      r ∈ standardBank t.regMap ∨ r ∈ extendedBank t.regMap ∨ r = t.probeStd ∨ r = t.probeExt) := by
  have hmap : ∀ {r}, r ∈ mapRegs t.regMap →
      r ∈ standardBank t.regMap ∨ r ∈ extendedBank t.regMap ∨ r = t.probeStd ∨ r = t.probeExt :=
    fun h => (List.mem_append.1 h).imp_right .inl
  rcases h with (rfl | rfl | rfl | ⟨x, y, z, rfl⟩) | ⟨r, hr, rfl⟩ | ⟨r, hr, b, rfl⟩
  · simp [callDev, callReg]
  · simp [callDev, callReg]
  · simp [callDev, callReg]
  · simp [callDev, callReg]
  · simpa [callDev, callReg] using hmap (bodyReads_in_map t i hr)
  · simpa [callDev, callReg] using hmap (bodyWrites_in_map t i hr)

/-- Settles O50: the calls a command issues are those of `CommandCall`. -/
theorem transportCallsStayInTheRegisterMap : Obligations.TransportCallsStayInTheRegisterMap := by
  intro i s t h
  obtain ⟨-, -, hm, hs, hx, -⟩ := (exec_framed h).params
  obtain ⟨cs, hissued, hcalls⟩ := (exec_served h).issued
  refine ⟨cs, hissued, fun c hc => ?_⟩
  rw [← hm, ← hs, ← hx]
  exact commandCall_target (hcalls c hc)

/-- Settles O53: a flag newly set is a transport flag or has its `Cause`. -/
theorem flagsAreRaisedOnlyByTheirCauses : Obligations.FlagsAreRaisedOnlyByTheirCauses := by
  intro i s t h
  obtain ⟨⟨evs, hh, -, h2, h3⟩, -, hflags⟩ := exec_served h
  refine ⟨fun hn => ?_, fun k hk hn => ?_, fun hn => ⟨evs, hh, h2 hn⟩, fun hn => ⟨evs, hh, h3 hn⟩,
    fun hn => ?_, fun hn => ?_⟩
  · simpa [Cause] using hflags 0 hn
  · have hk' := hflags k hn
    simp only [Cause] at hk'
    omega
  · simpa [Cause] using hflags 4 hn
  · simpa [Cause] using hflags 5 hn

end Sys2Proof.Proofs

namespace Sys2Proof.Proofs

open Sys2Proof.Machine Sys2Proof.Laws

/-! ### What only HANDLE reads (10_state R30, R32, R33) -/

/-- The state with other values of the snapshot, the callback table and the global handle. -/
def withDispatchState (snap : Half) (cbt : Vector CbEntry 16) (gcb : Byte) (s : State) : State :=
  { s with snap := snap, cbt := cbt, gcb := gcb }

/-- An outcome with its state changed. -/
def mapState {α : Type} (g : State → State) : EStateM.Result Unit State α → EStateM.Result Unit State α
  | .ok a t => .ok a (g t)
  | .error e t => .error e (g t)

/-- The operation neither reads nor writes the snapshot, the callback table and the global handle: with other values of
the three it ends in the same way, and with those values. -/
def Blind {α : Type} (m : Eff α) : Prop :=
  ∀ snap cbt gcb s, m (withDispatchState snap cbt gcb s) = mapState (withDispatchState snap cbt gcb) (m s)

section

variable {α β : Type}

theorem Blind.pure (a : α) : Blind (pure a : Eff α) := fun _ _ _ _ => rfl

/-- An update of other fields. -/
theorem Blind.modify {f : State → State}
    (h : ∀ snap cbt gcb s, f (withDispatchState snap cbt gcb s) = withDispatchState snap cbt gcb (f s)) :
    Blind (modify f : Eff Unit) := by
  intro snap cbt gcb s
  rw [modify_run, modify_run, h]
  rfl

theorem Blind.bind {m : Eff α} {f : α → Eff β} (h : Blind m) (hf : ∀ a, Blind (f a)) : Blind (m >>= f) := by
  intro snap cbt gcb s
  have hs := h snap cbt gcb s
  cases hm : m s with
  | ok a t =>
    rw [hm] at hs
    rw [bind_ok hs, bind_ok hm]
    exact hf a snap cbt gcb t
  | error e t =>
    rw [hm] at hs
    rw [bind_error hs, bind_error hm]
    rfl

/-- A read of the state of which the continuation uses other fields. -/
theorem Blind.get_bind {f : State → Eff β} (hf : ∀ snap cbt gcb s, f (withDispatchState snap cbt gcb s) = f s)
    (h : ∀ s, Blind (f s)) : Blind (get >>= f) := by
  intro snap cbt gcb s
  rw [Laws.get_bind, Laws.get_bind, hf]
  exact h s snap cbt gcb s

theorem Blind.bind_pure {m : Eff α} {f : α → β} (h : Blind m) : Blind (m >>= fun a => Pure.pure (f a)) :=
  h.bind fun _ => .pure _

theorem Blind.reportOk {m : Eff Bool} (h : Blind m) : Blind (reportOk m) := h.bind_pure

end

/-! The operations, in the order of 20_memory R50 to R72 and 40_control R131 to R141. -/

theorem blind_busCall (c : BusCall) : Blind (busCall c) := by
  intro snap cbt gcb s
  have htake : takeAnswer (withDispatchState snap cbt gcb s) =
      ((takeAnswer s).1, withDispatchState snap cbt gcb (takeAnswer s).2) := by
    simp only [takeAnswer, withDispatchState]
    split <;> rfl
  simp only [busCall, htake]
  obtain ⟨a, u⟩ := takeAnswer s
  cases a <;> rfl

theorem blind_busRead (r : Byte) : Blind (busRead r) := fun snap cbt gcb s => blind_busCall _ snap cbt gcb s

theorem blind_busWrite (r b : Byte) : Blind (busWrite r b) := by
  intro snap cbt gcb s
  have hcall := blind_busCall (.write s.addr r b) snap cbt gcb s
  have haddr : (withDispatchState snap cbt gcb s).addr = s.addr := rfl
  simp only [busWrite, haddr, hcall]
  cases busCall (.write s.addr r b) s <;> rfl

theorem blind_readAttempts (r : Byte) (n : Nat) : Blind (readAttempts r n) := by
  induction n with
  | zero => exact .pure _
  | succ n ih =>
    refine (blind_busRead r).bind fun a => ?_
    cases a with
    | some b => exact .pure _
    | none => exact ih

theorem blind_writeAttempts (r b : Byte) (n : Nat) : Blind (writeAttempts r b n) := by
  induction n with
  | zero => exact .pure _
  | succ n ih =>
    refine (blind_busWrite r b).bind fun a => ?_
    cases a with
    | true => exact .pure _
    | false => exact ih

theorem blind_raise (f : Flag) : Blind (raise f) := .modify fun _ _ _ _ => rfl

theorem blind_clear (f : Flag) : Blind (clear f) := .modify fun _ _ _ _ => rfl

theorem blind_readReg (r : Byte) : Blind (readReg r) := by
  refine .get_bind (fun _ _ _ _ => rfl) fun s => (blind_readAttempts r _).bind fun a => ?_
  cases a with
  | some b => exact (blind_clear _).bind_pure
  | none => exact (blind_raise _).bind_pure

theorem blind_writeReg (r b : Byte) : Blind (writeReg r b) := by
  refine .get_bind (fun _ _ _ _ => rfl) fun s => (blind_writeAttempts r b _).bind fun a => ?_
  cases a with
  | true => exact (blind_clear _).bind_pure
  | false => exact (blind_raise _).bind_pure

theorem blind_readModifyWrite (r : Byte) (f : Byte → Byte) : Blind (readModifyWrite r f) := by
  refine (blind_readReg r).bind fun a => ?_
  cases a with
  | none => exact .pure _
  | some old => exact blind_writeReg r _

theorem blind_dualRead (p : RegPair) : Blind (dualRead p) := by
  refine (blind_readReg _).bind fun a => ?_
  cases a with
  | none => exact .pure _
  | some b0 =>
    refine (blind_readReg _).bind fun a => ?_
    cases a <;> exact .pure _

theorem blind_dualWrite (p : RegPair) (v : Half) : Blind (dualWrite p v) := by
  refine (blind_writeReg _ _).bind fun a => ?_
  cases a with
  | true => exact blind_writeReg _ _
  | false => exact .pure _

theorem blind_pairModify (p : RegPair) (f : Half → Half) : Blind (pairModify p f) := by
  refine (blind_dualRead p).bind fun a => ?_
  cases a with
  | none => exact .pure _
  | some old => exact blind_dualWrite p _

theorem blind_pinRead (p : RegPair) (pin : Byte) : Blind (pinRead p pin) := by
  refine (blind_readReg _).bind fun a => ?_
  cases a <;> exact .pure _

theorem blind_writeSeq (ws : List (Byte × Byte)) : Blind (writeSeq ws) := by
  induction ws with
  | nil => exact .pure _
  | cons w ws ih =>
    refine (blind_writeReg _ _).bind fun a => ?_
    cases a with
    | true => exact ih
    | false => exact .pure _

theorem blind_readDrives (m : RegMap) (qs : List Nat) : Blind (readDrives m qs) := by
  induction qs with
  | nil => exact .pure _
  | cons q qs ih =>
    refine (blind_readReg _).bind fun a => ?_
    cases a with
    | none => exact .pure _
    | some b =>
      refine ih.bind fun a => ?_
      cases a <;> exact .pure _

theorem blind_setVariant (v : Variant) : Blind (setVariant v) := .modify fun _ _ _ _ => rfl

theorem blind_probe : Blind probe := by
  refine .get_bind (fun _ _ _ _ => rfl) fun s => .get_bind (fun _ _ _ _ => rfl) fun t => ?_
  refine (blind_readReg _).bind fun a => ?_
  cases a with
  | none => exact .pure _
  | some b => exact (blind_readReg _).bind fun _ => (blind_readReg _).bind_pure

theorem blind_detect : Blind detect :=
  (Blind.modify fun _ _ _ _ => rfl).bind fun _ =>
    blind_probe.bind fun v => (blind_setVariant v).bind fun _ => .modify fun _ _ _ _ => rfl

theorem blind_detectOrForce : Blind detectOrForce := by
  refine .get_bind (fun _ _ _ _ => rfl) fun s => ?_
  cases s.forced with
  | none => exact blind_detect
  | standardOnly => exact blind_setVariant _
  | extendedCapable => exact blind_setVariant _

theorem blind_pinHook : Blind pinHook := by
  intro snap cbt gcb s
  have hcall := blind_busCall (.hookPins (s.abits.getLsbD 0) (s.abits.getLsbD 1) (s.abits.getLsbD 2)) snap cbt gcb s
  have hhook : (withDispatchState snap cbt gcb s).hasPinHook = s.hasPinHook := rfl
  have hbits : (withDispatchState snap cbt gcb s).abits = s.abits := rfl
  simp only [pinHook, hhook, hbits, hcall]
  split
  · cases busCall (.hookPins (s.abits.getLsbD 0) (s.abits.getLsbD 1) (s.abits.getLsbD 2)) s <;> rfl
  · rfl

theorem blind_ensureInit : Blind ensureInit := by
  refine .get_bind (fun _ _ _ _ => rfl) fun s => ?_
  split
  · exact .pure _
  · refine blind_pinHook.bind fun _ => (blind_busCall _).bind fun a => ?_
    cases a with
    | none => exact .pure _
    | some b => exact blind_detectOrForce.bind fun _ => (Blind.modify fun _ _ _ _ => rfl).bind_pure

/-! The bodies and the frame. -/

theorem blind_pinModifyBody (sel : RegMap → RegPair) (pin : Byte) (v : Bool) : Blind (pinModifyBody sel pin v) :=
  .get_bind (fun _ _ _ _ => rfl) fun _ => (blind_readModifyWrite _ _).reportOk

theorem blind_maskModifyBody (sel : RegMap → RegPair) (mask : Half) (v : Bool) :
    Blind (maskModifyBody sel mask v) :=
  .get_bind (fun _ _ _ _ => rfl) fun _ => (blind_pairModify _ _).reportOk

theorem blind_listBody (sel : RegMap → RegPair) (es : List PinBit) : Blind (listBody sel es) :=
  .get_bind (fun _ _ _ _ => rfl) fun _ => (blind_pairModify _ _).reportOk

theorem blind_drvlBody (es : List PinLevel) : Blind (drvlBody es) := by
  refine .get_bind (fun _ _ _ _ => rfl) fun s => (blind_readDrives _ _).bind fun a => ?_
  cases a with
  | none => exact .pure _
  | some bs => exact (blind_writeSeq _).reportOk

theorem blind_detectBody : Blind detectBody := by
  have hresponse : Blind (do pure (detectResponse (← get).variant) : Eff Response) :=
    .get_bind (fun _ _ _ _ => rfl) fun _ => .pure _
  refine .get_bind (fun _ _ _ _ => rfl) fun s => ?_
  split
  · exact blind_detectOrForce.bind fun _ => hresponse
  · refine blind_ensureInit.bind fun a => ?_
    cases a with
    | true => exact hresponse
    | false => exact .pure _

/-- The commands that read or write one of the three fields. -/
def usesDispatchState : Instr → Bool
  | .cbreg _ _ _ | .cbunreg _ | .cbglobal _ | .handle => true
  | _ => false

/-- The bodies of all other commands, one arm a constructor. -/
theorem blind_bodyOf : ∀ i : Instr, usesDispatchState i = false → Blind (bodyOf i)
  | .init, _ => .pure _
  | .detect, _ => blind_detectBody
  | .setretry _, _ => (Blind.modify fun _ _ _ _ => rfl).bind_pure
  | .geterr, _ => .get_bind (fun _ _ _ _ => rfl) fun _ => .pure _
  | .clrerr _, _ => (Blind.modify fun _ _ _ _ => rfl).bind_pure
  | .getvar, _ => .get_bind (fun _ _ _ _ => rfl) fun _ => .pure _
  | .hasext, _ => .get_bind (fun _ _ _ _ => rfl) fun _ => .pure _
  | .getaddr, _ => .get_bind (fun _ _ _ _ => rfl) fun _ => .pure _
  | .chaddr _, _ => (Blind.modify fun _ _ _ _ => rfl).bind fun _ => blind_ensureInit.reportOk
  | .dir _ _, _ => blind_pinModifyBody _ _ _
  | .dirm _ _, _ => blind_maskModifyBody _ _ _
  | .dirl _, _ => blind_listBody _ _
  | .rdpin _, _ => .get_bind (fun _ _ _ _ => rfl) fun _ => (blind_pinRead _ _).bind_pure
  | .rdpinl _, _ => .get_bind (fun _ _ _ _ => rfl) fun _ => (blind_dualRead _).bind_pure
  | .wrpin _ _, _ => blind_pinModifyBody _ _ _
  | .wrpinl _, _ => blind_listBody _ _
  | .tglpin _, _ => .get_bind (fun _ _ _ _ => rfl) fun _ => (blind_readModifyWrite _ _).reportOk
  | .pol _ _, _ => blind_pinModifyBody _ _ _
  | .polm _ _, _ => blind_maskModifyBody _ _ _
  | .poll _, _ => blind_listBody _ _
  | .rstdef, _ =>
    .get_bind (fun _ _ _ _ => rfl) fun _ => .get_bind (fun _ _ _ _ => rfl) fun _ => (blind_writeSeq _).reportOk
  | .puen _ _, _ => blind_pinModifyBody _ _ _
  | .puenm _ _, _ => blind_maskModifyBody _ _ _
  | .puenl _, _ => blind_listBody _ _
  | .pusel _ _, _ => blind_pinModifyBody _ _ _
  | .puselm _ _, _ => blind_maskModifyBody _ _ _
  | .pusell _, _ => blind_listBody _ _
  | .drv _ _, _ => .get_bind (fun _ _ _ _ => rfl) fun _ => (blind_readModifyWrite _ _).reportOk
  | .drvl _, _ => blind_drvlBody _
  | .drvget _, _ => .get_bind (fun _ _ _ _ => rfl) fun _ => (blind_readReg _).bind_pure
  | .latch _ _, _ => blind_pinModifyBody _ _ _
  | .latchm _ _, _ => blind_maskModifyBody _ _ _
  | .latchl _, _ => blind_listBody _ _
  | .intcfg _ _, _ => blind_pinModifyBody _ _ _
  | .intcfgl _, _ => .get_bind (fun _ _ _ _ => rfl) fun _ => (blind_pairModify _ _).reportOk
  | .intmask _, _ => .get_bind (fun _ _ _ _ => rfl) fun _ => (blind_dualWrite _ _).reportOk
  | .intstat, _ => .get_bind (fun _ _ _ _ => rfl) fun _ => (blind_dualRead _).bind_pure
  | .omode _ _, _ => .get_bind (fun _ _ _ _ => rfl) fun _ => (blind_writeReg _ _).reportOk

theorem blind_failWith (f : Flag) : Blind (failWith f) := (blind_raise f).bind_pure

theorem blind_gateAndRun (a : Attr) {body : Eff Response} (h : Blind body) : Blind (gateAndRun a body) := by
  intro snap cbt gcb s
  have hvariant : (withDispatchState snap cbt gcb s).variant = s.variant := rfl
  simp only [gateAndRun, hvariant]
  split
  · exact blind_failWith _ snap cbt gcb s
  · exact h snap cbt gcb (s.clearFlags a.clear)

theorem blind_initAndRun (a : Attr) {body : Eff Response} (h : Blind body) : Blind (initAndRun a body) := by
  have hlazy : Blind (lazyInit a) := by
    unfold lazyInit
    split
    · exact blind_ensureInit
    · exact .pure _
  refine hlazy.bind fun ready => ?_
  cases ready with
  | true => exact blind_gateAndRun a h
  | false => exact .pure _

theorem blind_frame (i : Instr) {body : Eff Response} (h : Blind body) : Blind (frame i body) := by
  unfold frame
  split
  · exact .pure _
  · split
    · exact blind_failWith _
    · split
      · exact blind_failWith _
      · exact blind_initAndRun _ h

theorem settle_mapState (snap : Half) (cbt : Vector CbEntry 16) (gcb : Byte) (x : EStateM.Result Unit State Response) :
    settle (mapState (withDispatchState snap cbt gcb) x) = withDispatchState snap cbt gcb (settle x) := by
  cases x <;> rfl

/-- Settles O54: every body but those of the four commands is blind to the three fields, and so is the frame. -/
theorem dispatchStateReachesOnlyHandle : Obligations.DispatchStateReachesOnlyHandle := by
  intro i s t snap cbt gcb hhandle hreg hunreg hglobal h
  have huses : usesDispatchState i = false := by
    cases i with
    | cbreg p id edge => exact absurd rfl (hreg p id edge)
    | cbunreg p => exact absurd rfl (hunreg p)
    | cbglobal c => exact absurd rfl (hglobal c)
    | handle => exact absurd rfl hhandle
    | _ => rfl
  have hrun := blind_frame i (blind_bodyOf i huses) snap cbt gcb s
  rw [exec_eq] at h
  injection h with h
  show exec i (withDispatchState snap cbt gcb s) = .next (withDispatchState snap cbt gcb t)
  rw [exec_eq, hrun, settle_mapState, h]

end Sys2Proof.Proofs

namespace Sys2Proof.Proofs

open Sys2Proof.Machine Sys2Proof.Laws

/-! ### One call, one transaction, the two mask operations (20_memory R50 to R54, R60, R61, R70, R71) -/

/-- Settles O55: the three answers are the cases of `busCall_fail`, `busCall_ok` and `busCall_never`. -/
theorem callTakesTheNextAnswer : Obligations.CallTakesTheNextAnswer := by
  intro c s rest
  refine ⟨busCall_fail, fun b h => ?_, busCall_never⟩
  rw [busCall_ok h]
  cases c <;> rfl

/-- A mask operation is a merge of the value that is `v` in every bit. -/
theorem putMask_eq_mergeMask (old mask : Half) (v : Bool) :
    putMask old mask v = mergeMask old mask (if v then 0xFFFF#16 else 0x0000#16) := by
  cases v with
  | false => simp [putMask, mergeMask]
  | true =>
    have hones : 0xFFFF#16 = BitVec.allOnes 16 := rfl
    ext k hk
    simp only [putMask, mergeMask, if_true, hones, BitVec.allOnes_and, BitVec.getElem_or, BitVec.getElem_and,
      BitVec.getElem_not]
    cases old[k] <;> cases mask[k] <;> rfl

/-- Settles O14: both are `pairModify`, of two functions that agree. -/
theorem maskModifyIsAMaskMerge : Obligations.MaskModifyIsAMaskMerge := by
  intro pair mask v s
  simp only [maskModify, maskMerge, putMask_eq_mergeMask]

/-- Settles O12: the attempts of the transaction, and then the flag. -/
theorem readTransactionStopsAtItsFirstSuccess : Obligations.ReadTransactionStopsAtItsFirstSuccess := by
  intro reg s t r h
  rw [readReg, get_bind] at h
  cases hm : readAttempts reg (s.retries.toNat + 1) s with
  | error e u => rw [bind_error hm] at h; cases h
  | ok a u =>
    obtain ⟨hframe, hevents⟩ := readAttempts_ok_inv _ hm
    have herr : u.err = s.err := by rw [hframe]
    rw [bind_ok hm] at h
    cases a with
    | none =>
      have h : EStateM.Result.ok none (u.raiseFlag .readFail) = EStateM.Result.ok r t := h
      cases h
      exact ⟨by rw [hframe]; rfl, hevents, by rw [raiseFlag_err, herr]; rfl⟩
    | some b =>
      have h : EStateM.Result.ok (some b) (u.clearFlag .readFail) = EStateM.Result.ok r t := h
      cases h
      obtain ⟨j, hj, hevents⟩ := hevents
      exact ⟨by rw [hframe]; rfl, ⟨j, by omega, hevents⟩, by rw [clearFlag_err, herr]; rfl⟩

/-- Settles O13: the attempts of the transaction, and then the flag. -/
theorem writeTransactionStopsAtItsFirstSuccess : Obligations.WriteTransactionStopsAtItsFirstSuccess := by
  intro reg b s t ok h
  rw [writeReg, get_bind] at h
  cases hm : writeAttempts reg b (s.retries.toNat + 1) s with
  | error e u => rw [bind_error hm] at h; cases h
  | ok a u =>
    obtain ⟨hframe, hevents⟩ := writeAttempts_ok_inv _ hm
    have herr : u.err = s.err := by rw [hframe]
    rw [bind_ok hm] at h
    cases a with
    | false =>
      have h : EStateM.Result.ok false (u.raiseFlag .writeFail) = EStateM.Result.ok ok t := h
      cases h
      exact ⟨by rw [hframe]; rfl, hevents, by rw [raiseFlag_err, herr]; rfl⟩
    | true =>
      have h : EStateM.Result.ok true (u.clearFlag .writeFail) = EStateM.Result.ok ok t := h
      cases h
      obtain ⟨j, hj, hevents⟩ := hevents
      exact ⟨by rw [hframe]; rfl, ⟨j, by omega, hevents⟩, by rw [clearFlag_err, herr]; rfl⟩

end Sys2Proof.Proofs

namespace Sys2Proof.Proofs

open Sys2Proof.Machine Sys2Proof.Laws

/-! ### The registers a body writes are not read-only (20_memory R59) -/

/-- The registers that the default map does not mark as read-only: all but IN and ISTAT. -/
def writableRegs (m : RegMap) : List Byte :=
  pairRegs m.output ++ pairRegs m.polarity ++ pairRegs m.config ++ driveRegs m ++ pairRegs m.latch ++
    pairRegs m.pullEnable ++ pairRegs m.pullSelect ++ pairRegs m.intMask ++ [m.outConf]

theorem resetWrites_writable (m : RegMap) (v : Variant) : (resetWrites m v).map Prod.fst ⊆ writableRegs m := by
  unfold resetWrites
  split <;> simp [resetStandard, resetExtended, writableRegs, pairRegs, driveRegs]

theorem bodyWrites_writable (u : State) (i : Instr) : bodyWrites u i ⊆ writableRegs u.regMap := by
  cases i with
  | rstdef => exact resetWrites_writable _ _
  | _ => simp [bodyWrites, pairRegs, driveRegs, writableRegs]

/-- An initialisation writes nothing. -/
theorem commandCall_writes {i : Instr} {t : State} {c : BusCall} (h : CommandCall i t c) {r : Byte}
    (hr : writtenReg c = some r) : r ∈ bodyWrites t i := by
  rcases h with (rfl | rfl | rfl | ⟨x, y, z, rfl⟩) | ⟨r', -, rfl⟩ | ⟨r', hmem, b, rfl⟩ <;> cases hr
  exact hmem

theorem writable_not_readOnly :
    ∀ r ∈ writableRegs defaultRegMap, r ∉ [0x00#8, 0x01#8, 0x4C#8, 0x4D#8] := by decide

/-- Settles O52: a register written is one of `writableRegs`. -/
theorem readOnlyRegistersAreNeverWritten : Obligations.ReadOnlyRegistersAreNeverWritten := by
  intro i s t hmap h
  obtain ⟨-, -, hm, -⟩ := (exec_framed h).params
  obtain ⟨cs, hissued, hcalls⟩ := (exec_served h).issued
  refine ⟨cs, hissued, fun c hc r hr => writable_not_readOnly r ?_⟩
  have hmem := bodyWrites_writable t i (commandCall_writes (hcalls c hc) hr)
  rwa [hm, hmap] at hmem

end Sys2Proof.Proofs

namespace Sys2Proof.Proofs

open Sys2Proof.Machine Sys2Proof.Laws

/-! ### A command hangs exactly on an answer that never comes (20_memory R54, 70_reset R365) -/

/-- The way the operation ends from `s` tells which answers it took: it completes when each of them comes, and hangs
on the first that never does. -/
def FaithfulAt {α : Type} (m : Eff α) (s : State) : Prop :=
  (∀ a t, m s = .ok a t → Returned s t) ∧ (∀ e t, m s = .error e t → Hangs (fun _ => True) s t)

/-- The same from every state. -/
def Faithful {α : Type} (m : Eff α) : Prop := ∀ s, FaithfulAt m s

section

variable {α β : Type}

theorem FaithfulAt.of_ok {m : Eff α} {s u : State} {a : α} (hm : m s = .ok a u) (h : Returned s u) :
    FaithfulAt m s := by
  rw [FaithfulAt, hm]
  refine ⟨fun b t hb => ?_, fun e t he => by cases he⟩
  cases hb
  exact h

theorem FaithfulAt.of_error {P : BusCall → Prop} {m : Eff α} {s u : State} {e : Unit} (hm : m s = .error e u)
    (h : Hangs P s u) : FaithfulAt m s := by
  rw [FaithfulAt, hm]
  refine ⟨fun b t hb => (by cases hb), fun e' t he => ?_⟩
  cases he
  exact h.mono fun _ _ => trivial

theorem Faithful.of_talks {m : Eff α} {P : State → BusCall → Prop} (h : ∀ s, Talks (P s) m s) : Faithful m :=
  fun s => ⟨fun a t hm => ((h s).1 a t hm).2, fun e t hm => ((h s).2 e t hm).2.mono fun _ _ => trivial⟩

theorem Faithful.pure (a : α) : Faithful (pure a : Eff α) :=
  .of_talks (P := fun _ _ => True) fun s => Talks.pure _ a s

theorem Faithful.bind {m : Eff α} {f : α → Eff β} (h : Faithful m) (hf : ∀ a, Faithful (f a)) :
    Faithful (m >>= f) := by
  intro s
  cases hm : m s with
  | ok a t =>
    have hfirst := (h s).1 a t hm
    rw [FaithfulAt, bind_ok hm]
    exact ⟨fun b u hu => hfirst.trans ((hf a t).1 b u hu), fun e u hu => ((hf a t).2 e u hu).after hfirst.taken⟩
  | error e t => exact .of_error (bind_error hm) ((h s).2 e t hm)

/-- An update of fields that are neither the script nor the hang record, and what follows it. -/
theorem Faithful.modify_bind {g : State → State} {f : Unit → Eff β}
    (hg : ∀ s, (g s).stuck = s.stuck ∧ (g s).script = s.script) (hf : Faithful (f ())) :
    Faithful ((modify g : Eff Unit) >>= f) := by
  refine Faithful.bind (fun s => .of_ok (modify_run g s) ?_) fun _ => hf
  obtain ⟨hstuck, hscript⟩ := hg s
  exact ⟨hstuck, by rw [hscript]; exact Taken.refl _⟩

theorem Faithful.get_bind {f : State → Eff β} (h : ∀ s, Faithful (f s)) : Faithful (get >>= f) := fun s => h s s

theorem Faithful.bind_pure {m : Eff α} {f : α → β} (h : Faithful m) : Faithful (m >>= fun a => Pure.pure (f a)) :=
  h.bind fun _ => .pure _

theorem Faithful.reportOk {m : Eff Bool} (h : Faithful m) : Faithful (reportOk m) := h.bind_pure

end

theorem faithful_detectOrForce : Faithful detectOrForce := by
  intro s
  rcases detectOrForce_cases s with ⟨u, hm, -, -, hreturned, -⟩ | ⟨u, hm, -, hhangs, -⟩
  · exact .of_ok hm hreturned
  · exact .of_error hm hhangs

theorem faithful_ensureInit : Faithful ensureInit := by
  intro s
  rcases ensureInit_cases s with ⟨-, hm⟩ | ⟨-, u, -, ⟨hm, -, -, hreturned, -⟩ | ⟨hm, -, hreturned⟩ | ⟨hm, -, -, hhangs⟩⟩
  · exact .of_ok hm (Returned.refl s)
  · exact .of_ok hm hreturned
  · exact .of_ok hm hreturned
  · exact .of_error hm hhangs

theorem faithful_readReg (r : Byte) : Faithful (readReg r) :=
  .of_talks (P := fun _ _ => True) fun _ => talks_readReg trivial

theorem faithful_writeReg (r b : Byte) : Faithful (writeReg r b) :=
  .of_talks (P := fun _ _ => True) fun _ => talks_writeReg trivial

theorem faithful_readModifyWrite (r : Byte) (f : Byte → Byte) : Faithful (readModifyWrite r f) :=
  .of_talks fun _ => talks_readModifyWrite

theorem faithful_dualRead (p : RegPair) : Faithful (dualRead p) :=
  .of_talks (P := fun _ _ => True) fun _ => talks_dualRead trivial trivial

theorem faithful_dualWrite (p : RegPair) (v : Half) : Faithful (dualWrite p v) :=
  .of_talks (P := fun _ _ => True) fun _ => talks_dualWrite (fun _ => trivial) fun _ => trivial

theorem faithful_pairModify (p : RegPair) (f : Half → Half) : Faithful (pairModify p f) :=
  .of_talks fun _ => talks_pairModify

theorem faithful_pinRead (p : RegPair) (pin : Byte) : Faithful (pinRead p pin) :=
  .of_talks fun _ => talks_pinRead (ws := []) (List.Subset.refl _)

theorem faithful_writeSeq (ws : List (Byte × Byte)) : Faithful (writeSeq ws) :=
  .of_talks (P := fun _ _ => True) fun _ => talks_writeSeq ws fun _ _ => trivial

theorem faithful_detectBody : Faithful detectBody := by
  have hresponse : Faithful (do pure (detectResponse (← get).variant) : Eff Response) := .get_bind fun _ => .pure _
  refine .get_bind fun s => ?_
  split
  · exact faithful_detectOrForce.bind fun _ => hresponse
  · refine faithful_ensureInit.bind fun ready => ?_
    cases ready with
    | true => exact hresponse
    | false => exact .pure _

theorem faithful_cbregBody (pin id : Byte) (edge : Edge) : Faithful (cbregBody pin id edge) := by
  refine .modify_bind (fun _ => ⟨rfl, rfl⟩) (.get_bind fun s => (faithful_dualRead _).bind fun levels => ?_)
  cases levels with
  | none => exact .pure _
  | some cur => exact .modify_bind (fun _ => ⟨rfl, rfl⟩) (.pure _)

theorem faithful_handleBody : Faithful handleBody := by
  have hreads : Faithful handleReads := .of_talks fun _ => talks_handleReads
  refine hreads.bind fun levels => ?_
  cases levels with
  | none => exact .pure _
  | some levels =>
    obtain ⟨st, cur⟩ := levels
    exact .modify_bind (fun _ => ⟨rfl, rfl⟩) (.pure _)

/-- Every body, by the operation it runs. -/
theorem faithful_bodyOf : ∀ i : Instr, Faithful (bodyOf i)
  | .init => .pure _
  | .geterr | .getvar | .hasext | .getaddr => .get_bind fun _ => .pure _
  | .setretry _ | .clrerr _ | .cbunreg _ | .cbglobal _ => .modify_bind (fun _ => ⟨rfl, rfl⟩) (.pure _)
  | .detect => faithful_detectBody
  | .chaddr _ => .modify_bind (fun _ => ⟨rfl, rfl⟩) faithful_ensureInit.reportOk
  | .dir _ _ | .wrpin _ _ | .pol _ _ | .puen _ _ | .pusel _ _ | .latch _ _ | .intcfg _ _ =>
    .of_talks fun _ => talks_pinModifyBody _ _ _
  | .dirm _ _ | .polm _ _ | .puenm _ _ | .puselm _ _ | .latchm _ _ =>
    .of_talks fun _ => talks_maskModifyBody _ _ _
  | .dirl _ | .wrpinl _ | .poll _ | .puenl _ | .pusell _ | .latchl _ => .of_talks fun _ => talks_listBody _ _
  | .intcfgl _ => .get_bind fun _ => (faithful_pairModify _ _).reportOk
  | .tglpin _ | .drv _ _ => .get_bind fun _ => (faithful_readModifyWrite _ _).reportOk
  | .drvl _ => .of_talks fun _ => talks_drvlBody _
  | .drvget _ => .get_bind fun _ => (faithful_readReg _).bind_pure
  | .rdpin _ => .get_bind fun _ => (faithful_pinRead _ _).bind_pure
  | .rdpinl _ | .intstat => .get_bind fun _ => (faithful_dualRead _).bind_pure
  | .rstdef => .get_bind fun _ => .get_bind fun _ => (faithful_writeSeq _).reportOk
  | .intmask _ => .get_bind fun _ => (faithful_dualWrite _ _).reportOk
  | .omode _ _ => .get_bind fun _ => (faithful_writeReg _ _).reportOk
  | .cbreg _ _ _ => faithful_cbregBody _ _ _
  | .handle => faithful_handleBody

theorem faithful_failWith (f : Flag) : Faithful (failWith f) :=
  .modify_bind (fun _ => ⟨rfl, rfl⟩) (.pure _)

theorem faithful_gateAndRun (a : Attr) {body : Eff Response} (h : Faithful body) : Faithful (gateAndRun a body) := by
  have hrun : Faithful (do modify fun s => s.clearFlags a.clear; body) := .modify_bind (fun _ => ⟨rfl, rfl⟩) h
  intro s
  unfold FaithfulAt gateAndRun
  split
  · exact faithful_failWith _ s
  · exact hrun s

theorem faithful_initAndRun (a : Attr) {body : Eff Response} (h : Faithful body) : Faithful (initAndRun a body) := by
  have hlazy : Faithful (lazyInit a) := by
    unfold lazyInit
    split
    · exact faithful_ensureInit
    · exact .pure _
  refine hlazy.bind fun ready => ?_
  cases ready with
  | true => exact faithful_gateAndRun a h
  | false => exact .pure _

theorem faithful_frame (i : Instr) {body : Eff Response} (h : Faithful body) : Faithful (frame i body) := by
  unfold frame
  split
  · exact .pure _
  · split
    · exact faithful_failWith _
    · split
      · exact faithful_failWith _
      · exact faithful_initAndRun _ h

/-- A command is its body in the frame, and then the response, or none while it hangs (30_encoding R104). -/
theorem exec_cases {i : Instr} {s t : State} (h : exec i s = .next t) :
    (∃ r u, frame i (bodyOf i) s = .ok r u ∧ t = { u with response := some r }) ∨
    (∃ e u, frame i (bodyOf i) s = .error e u ∧ t = { u with response := none }) := by
  rw [exec_eq] at h
  injection h with h
  cases hm : frame i (bodyOf i) s with
  | ok r u => exact .inl ⟨r, u, rfl, by rw [← h, settle_ok hm]⟩
  | error e u => exact .inr ⟨e, u, rfl, by rw [← h, settle_error hm]⟩

/-- How a command ends: with a response after answers that all came, or with none after one that never did. -/
theorem exec_returned_or_hangs {i : Instr} {s t : State} (h : exec i s = .next t) :
    Returned s t ∨ (Hangs (fun _ => True) s t ∧ t.response = none) := by
  obtain ⟨hok, herror⟩ := faithful_frame i (faithful_bodyOf i) s
  rcases exec_cases h with ⟨r, u, hm, rfl⟩ | ⟨e, u, hm, rfl⟩
  · obtain ⟨hstuck, htaken⟩ := hok r u hm
    exact .inl ⟨hstuck, htaken⟩
  · obtain ⟨hstuck, htaken⟩ := herror e u hm
    exact .inr ⟨⟨hstuck, htaken⟩, rfl⟩

/-- An engine that hangs accepts no command (70_reset R365). -/
theorem step_of_stuck {s : State} {c : BusCall} (h : s.stuck = some c) : step s = .fault .transportHang := by
  simp [step, h]

/-- Settles O10: the two ends of `exec_returned_or_hangs`. -/
theorem hungCommandGivesNoResponse : Obligations.HungCommandGivesNoResponse := by
  intro i s t hs h
  rcases exec_returned_or_hangs h with ⟨hstuck, used, htaken, hnever⟩ |
    ⟨⟨⟨c, hc, -⟩, before, htaken, hnever⟩, hresponse⟩
  · have hnone : t.stuck = none := hstuck.trans hs
    exact ⟨⟨used, htaken, .inl ⟨hnone, hnever⟩⟩, fun c hc => by rw [hnone] at hc; cases hc⟩
  · exact ⟨⟨before ++ [.never], by rw [htaken]; simp, .inr ⟨c, before, hc, rfl, hnever⟩⟩,
      fun c hc => ⟨hresponse, fun ws => step_of_stuck (c := c) hc⟩⟩

end Sys2Proof.Proofs

namespace Sys2Proof.Proofs

open Sys2Proof.Machine Sys2Proof.Laws

/-! ### The calls of an initialisation and of a body (20_memory R58, 40_control R131, R145, R150) -/

/-- The calls between two states are those of an initialisation: hooks, and then a start of the three probe reads,
made only under `P`. -/
def InitIssued (P : Prop) (s t : State) : Prop :=
  ∃ hooks probes, Issued s t (hooks ++ probes) ∧ (∀ c ∈ hooks, callReg c = none) ∧ probes <+: probeReads t ∧
    (probes ≠ [] → P)

theorem InitIssued.mono {P Q : Prop} {s t : State} (h : InitIssued P s t) (hPQ : P → Q) : InitIssued Q s t := by
  obtain ⟨hooks, probes, hissued, hhooks, hprobes, hP⟩ := h
  exact ⟨hooks, probes, hissued, hhooks, hprobes, fun hne => hPQ (hP hne)⟩

/-- A stage that calls nothing. -/
theorem InitIssued.of_still {P : Prop} {s t : State} (hh : t.history = s.history) (hs : t.stuck = s.stuck) :
    InitIssued P s t :=
  ⟨[], [], Issued.completed (evs := []) (by simpa using hh) hs, by simp, by simp, by simp⟩

theorem probeReads_congr {s t : State} (ha : t.addr = s.addr) (hs : t.probeStd = s.probeStd)
    (hx : t.probeExt = s.probeExt) : probeReads t = probeReads s := by
  rw [probeReads, ha, hs, hx, probeReads]

theorem probeReads_of_inited {s t : State} (h : Inited s t) : probeReads t = probeReads s :=
  probeReads_congr (by rw [h.frame]) (by rw [h.frame]) (by rw [h.frame])

theorem ensureInit_issued {s t : State} (h : Ends ensureInit s t) :
    InitIssued (s.init = false ∧ s.forced = .none) s t := by
  rw [InitIssued, probeReads_of_inited (ensureInit_effect h).1.inited]
  obtain ⟨hok, herror⟩ := ensureInit_calls s
  rcases h with ⟨b, hm⟩ | ⟨e, hm⟩
  · obtain ⟨hooks, probes, hh, hhooks, hprobes, hne, -⟩ := hok b t hm
    have hissued := Issued.completed hh ((faithful_ensureInit s).1 b t hm).stuck
    rw [List.map_append] at hissued
    exact ⟨_, _, hissued, List.forall_mem_map.2 hhooks, hprobes, fun h => hne (by simpa using h)⟩
  · exact herror t hm

theorem detectOrForce_issued {s t : State} (hi : s.init = true) (h : Ends detectOrForce s t) :
    InitIssued (s.forced = .none) s t := by
  rw [InitIssued, probeReads_of_inited (detectOrForce_effect hi h).inited]
  obtain ⟨hok, herror⟩ := detectOrForce_calls s
  rcases h with ⟨a, hm⟩ | ⟨e, hm⟩
  · obtain ⟨evs, hh, hprobes, hforced, -⟩ := hok t hm
    have hissued := Issued.completed hh ((faithful_detectOrForce s).1 a t hm).stuck
    exact ⟨[], _, hissued, by simp, hprobes, fun hne => by_contra fun hf => hne (by rw [hforced hf]; rfl)⟩
  · obtain ⟨hf, evs, c, hh, hc, hprobes⟩ := herror t hm
    exact ⟨[], _, Issued.hung hh hc, by simp, hprobes, fun _ => hf⟩

theorem detectBody_issued {s t : State} (h : Ends detectBody s t) : InitIssued (s.forced = .none) s t := by
  rw [detectBody, Ends, get_bind, ← Ends] at h
  by_cases hi : s.init = true
  · rw [if_pos hi] at h
    refine detectOrForce_issued hi ?_
    rcases Ends.of_bind h with ⟨e, he⟩ | ⟨a, v, hm, hv⟩
    · exact .inr ⟨e, he⟩
    · rw [Ends.of_pure (s := v) hv]
      exact .inl ⟨a, hm⟩
  · rw [if_neg hi] at h
    refine (ensureInit_issued ?_).mono fun h => h.2
    rcases Ends.of_bind h with ⟨e, he⟩ | ⟨a, v, hm, hv⟩
    · exact .inr ⟨e, he⟩
    · cases a <;> (rw [Ends.of_pure (s := v) hv]; exact .inl ⟨_, hm⟩)

theorem Went.issued {P : BusCall → Prop} {s t : State} (h : Went P s t) : ∃ cs, Issued s t cs ∧ ∀ c ∈ cs, P c :=
  (Served.of_went (C := fun _ => True) h fun _ hc => hc).issued

/-- The calls of a body that runs after a lazy initialisation. -/
theorem lazyBody_issued {i : Instr} {u t : State} (hl : lazyCommand i = true) (h : BodyEffect i u t) :
    ∃ cs, Issued u t cs ∧ ∀ c ∈ cs, BodyCall i u c := by
  cases h with
  | query => exact ⟨[], Issued.completed (evs := []) (by simp) rfl, by simp⟩
  | talk _ hwent => exact hwent.issued
  | cbreg pin id edge hwent => exact hwent.issued
  | cbregSnap pin id edge cur hwent => exact hwent.issued
  | dispatch st cur hwent => exact hwent.issued
  | _ => cases hl

/-! The registers of the extended bank (20_memory R56, R58). -/

/-- A data call to a register of the extended bank of the default map. -/
def ExtendedCall (c : BusCall) : Prop := ∃ r, callReg c = some r ∧ r ∈ extendedBank defaultRegMap

theorem lazy_of_extended {i : Instr} (h : extendedCommand i = true) : lazyCommand i = true := by
  revert h
  cases i <;> simp [extendedCommand, lazyCommand]

/-- On a block that is not ExtendedCapable a command that is not gated stays in the standard bank. -/
theorem body_in_standardBank {i : Instr} {u : State} (hx : extendedCommand i = false)
    (hv : u.variant ≠ .extendedCapable) :
    bodyReads u i ⊆ standardBank u.regMap ∧ bodyWrites u i ⊆ standardBank u.regMap := by
  cases i <;> simp [extendedCommand] at hx <;>
    simp [bodyReads, bodyWrites, hv, pairRegs, standardBank, resetWrites, resetStandard]

theorem standard_not_extended : ∀ r ∈ standardBank defaultRegMap, r ∉ extendedBank defaultRegMap := by decide

theorem capable_of_extendedCall {i : Instr} {u : State} {c : BusCall} (hm : u.regMap = defaultRegMap)
    (hx : extendedCommand i = true → u.variant = .extendedCapable) (hc : BodyCall i u c) (he : ExtendedCall c) :
    u.variant = .extendedCapable := by
  by_contra hv
  have hstd := body_in_standardBank (Bool.eq_false_iff.2 fun h => hv (hx h)) hv
  rw [hm] at hstd
  obtain ⟨r, hr, hext⟩ := he
  rcases hc with ⟨r', hmem, rfl⟩ | ⟨r', hmem, b, rfl⟩ <;> cases hr
  · exact standard_not_extended r (hstd.1 hmem) hext
  · exact standard_not_extended r (hstd.2 hmem) hext

/-! The two stages of a command. -/

/-- The calls of a command in issue order: the hooks and the probes of its initialisation, and those of its body
(20_memory R58). -/
structure Staged (i : Instr) (s t : State) (hooks probes body : List BusCall) : Prop where
  issued : Issued s t (hooks ++ probes ++ body)
  hooksOnly : ∀ c ∈ hooks, callReg c = none
  probeStart : probes <+: probeReads t
  detection : probes ≠ [] → RunsDetection i s
  bodyGated : ∀ c ∈ body, ExtendedCall c →
    t.variant = .extendedCapable ∧ (RunsDetection i s → probes = probeReads t) ∧
    (¬ RunsDetection i s → s.variant = .extendedCapable ∨ (s.init = false ∧ s.forced = .extendedCapable))

/-- A command that makes no call after its initialisation. -/
theorem InitIssued.staged {i : Instr} {s t : State} (h : InitIssued (RunsDetection i s) s t) :
    ∃ hooks probes body, Staged i s t hooks probes body := by
  obtain ⟨hooks, probes, hissued, hhooks, hprobes, hd⟩ := h
  exact ⟨hooks, probes, [], by simpa using hissued, hhooks, hprobes, hd, by simp⟩

/-- A variant found ExtendedCapable where no detection runs stood so, or was forced (40_control R140). -/
theorem Prepared.capable {i : Instr} {s u : State} (h : Prepared i s u) (hl : lazyCommand i = true)
    (hd : ¬ RunsDetection i s) (hv : u.variant = .extendedCapable) :
    s.variant = .extendedCapable ∨ (s.init = false ∧ s.forced = .extendedCapable) := by
  obtain ⟨heffect, hdone, -⟩ := Prepared.effect h
  obtain ⟨-, -, -, hinit, -⟩ := Prepared.inited h
  rw [runsDetection_lazy hl, not_and'] at hd
  cases hi : s.init with
  | true =>
    rw [hdone hi] at hv
    exact .inl hv
  | false =>
    rcases heffect.forced (hinit hl) (hd hi) with hf | rfl
    · refine .inr ⟨rfl, ?_⟩
      rw [hf] at hv
      revert hv
      cases s.forced <;> decide
    · exact .inl hv

/-- A command that goes on after its lazy initialisation. -/
theorem Prepared.staged {i : Instr} {s u t : State} {body : List BusCall} (h : Prepared i s u)
    (hl : lazyCommand i = true) (hbody : Issued u t body) (hreads : probeReads t = probeReads u)
    (hcapable : ∀ c ∈ body, ExtendedCall c → u.variant = .extendedCapable ∧ t.variant = .extendedCapable) :
    ∃ hooks probes body, Staged i s t hooks probes body := by
  obtain ⟨hinited, -, hreturned, -⟩ := Prepared.inited h
  have hm : ensureInit s = .ok true u := by
    rcases h with ⟨hn, -⟩ | ⟨-, hm⟩
    · rw [hl] at hn
      cases hn
    · exact hm
  obtain ⟨hooks, probes, hh, hhooks, hprobes, hne, hall⟩ := (ensureInit_calls s).1 true u hm
  rw [← probeReads_of_inited hinited, ← hreads] at hprobes hall
  refine ⟨hooks.map fun e => e.call, probes.map fun e => e.call, body, ?_, List.forall_mem_map.2 hhooks, hprobes,
    fun hp => ?_, fun c hc he => ?_⟩
  · rw [← List.map_append]
    exact Issued.after hh hreturned.stuck hbody
  · obtain ⟨hi, hf⟩ := hne (by simpa using hp)
    exact (runsDetection_lazy hl).2 ⟨hf, hi⟩
  · obtain ⟨hu, ht⟩ := hcapable c hc he
    refine ⟨ht, fun hd => ?_, fun hd => Prepared.capable h hl hd hu⟩
    obtain ⟨hf, hi⟩ := (runsDetection_lazy hl).1 hd
    exact hall rfl hi hf hu

/-- A command that reaches its body. -/
theorem body_staged {i : Instr} {s u t : State} (hm : s.regMap = defaultRegMap) (hprep : Prepared i s u)
    (ha : badAddress i = false) (hx : extendedCommand i = true → u.variant = .extendedCapable)
    (h : Ends (bodyOf i) (u.clearFlags (attr i).clear) t) : ∃ hooks probes body, Staged i s t hooks probes body := by
  have heffect := bodyOf_effect i h
  have hframed := framed_body (s := u) (u := u.clearFlags (attr i).clear) ha rfl heffect
  obtain ⟨-, -, -, hinit, -, hoff⟩ := Prepared.inited hprep
  by_cases hl : lazyCommand i = true
  · obtain ⟨body, hissued, hcalls⟩ := lazyBody_issued hl heffect
    have hnd : i ≠ .detect := by rintro rfl; cases hl
    have hnc : ∀ a, i ≠ .chaddr a := by rintro a rfl; cases hl
    obtain ⟨-, -, hmap, hstd, hext, -⟩ := hframed.params
    have hum : u.regMap = defaultRegMap := by rw [(Prepared.effect hprep).1.inited.frame]; exact hm
    have hreads : probeReads t = probeReads u := probeReads_congr (hframed.address hnc).1 hstd hext
    refine Prepared.staged hprep hl hissued hreads fun c hc he => ?_
    have hu : u.variant = .extendedCapable :=
      capable_of_extendedCall (u := u.clearFlags (attr i).clear) hum hx (hcalls c hc) he
    exact ⟨hu, (hframed.variant hnc hnd (hinit hl)).trans hu⟩
  · rw [Bool.not_eq_true] at hl
    obtain rfl := hoff hl
    by_cases hnd : i = .detect
    · subst hnd
      exact InitIssued.staged (s := u) ((detectBody_issued h).mono runsDetection_detect.2)
    · by_cases hnc : ∃ a, i = .chaddr a
      · obtain ⟨a, rfl⟩ := hnc
        have hends : Ends ensureInit (State.changeAddress (u.clearFlags _) a) t := Ends.of_reportOk h
        exact InitIssued.staged (s := u) ((ensureInit_issued hends).mono fun hf =>
          runsDetection_chaddr.2 ⟨hf.2, badAddress_chaddr ha⟩)
      · obtain ⟨-, -, hh, hs⟩ := hframed.offline hl (not_exists.1 hnc) hnd
        exact InitIssued.staged (.of_still hh hs)

theorem frame_staged {i : Instr} {s t : State} (hmap : s.regMap = defaultRegMap)
    (h : Ends (frame i (bodyOf i)) s t) : ∃ hooks probes body, Staged i s t hooks probes body := by
  rcases frame_cases i (bodyOf i) s with ⟨-, hm⟩ | ⟨hm, -⟩ | ⟨hm, -⟩ | ⟨hl, e, u, hu, hm⟩ | ⟨hl, u, hu, hm⟩ |
    ⟨u, hu, hx, hv, hm⟩ | ⟨u, hu, -, ha, -, hx, hm⟩
  · rw [h.of_ok hm]
    exact InitIssued.staged (.of_still rfl rfl)
  · rw [h.of_ok hm]
    exact InitIssued.staged (.of_still rfl rfl)
  · rw [h.of_ok hm]
    exact InitIssued.staged (.of_still rfl rfl)
  · rw [h.of_error hm]
    exact ((ensureInit_issued (.inr ⟨e, hu⟩)).mono fun hf => (runsDetection_lazy hl).2 hf.symm).staged
  · rw [h.of_ok hm]
    exact ((ensureInit_issued (.inl ⟨false, hu⟩)).mono fun hf => (runsDetection_lazy hl).2 hf.symm).staged
  · rw [h.of_ok hm]
    have hnone : Issued u (u.raiseFlag .unsupportedFeature) [] := Issued.completed (evs := []) (by simp) rfl
    exact Prepared.staged hu (lazy_of_extended hx) hnone rfl (by simp)
  · rw [Ends, hm, ← Ends] at h
    exact body_staged hmap hu ha hx h

theorem exec_staged {i : Instr} {s t : State} (hmap : s.regMap = defaultRegMap) (h : exec i s = .next t) :
    ∃ hooks probes body, Staged i s t hooks probes body := by
  have hends : ∃ u r, Ends (frame i (bodyOf i)) s u ∧ t = { u with response := r } := by
    rcases exec_cases h with ⟨r, u, hm, ht⟩ | ⟨e, u, hm, ht⟩
    · exact ⟨u, some r, .inl ⟨r, hm⟩, ht⟩
    · exact ⟨u, none, .inr ⟨e, hm⟩, ht⟩
  obtain ⟨u, r, hu, rfl⟩ := hends
  obtain ⟨hooks, probes, body, hs⟩ := frame_staged hmap hu
  exact ⟨hooks, probes, body, hs.issued, hs.hooksOnly, hs.probeStart, hs.detection, hs.bodyGated⟩

/-- Settles O51: the stages of `Staged`, with the default probe registers. -/
theorem extendedBankReachedOnlyWhenCapable : Obligations.ExtendedBankReachedOnlyWhenCapable := by
  intro i s t hmap hstd hext h extended reads
  obtain ⟨-, -, -, hs, hx, -⟩ := (exec_framed h).params
  have hreads : probeReads t = reads := by rw [probeReads, hs, hx, hstd, hext]
  obtain ⟨hooks, probes, body, hstaged⟩ := exec_staged hmap h
  rw [← hreads]
  exact ⟨hooks, probes, body, hstaged.issued, hstaged.hooksOnly, hstaged.probeStart, hstaged.detection,
    hstaged.bodyGated⟩

end Sys2Proof.Proofs

namespace Sys2Proof.Proofs

open Sys2Proof.Machine Sys2Proof.Laws

/-! ### Each format reads back the word it writes (30_encoding R102) -/

section

variable (op pin id n : Byte) (imm : Half) (v : Bool) (l : BitVec 2)

theorem decodeN0_wordN (i : Instr) : decodeN0 (wordN op 0#16) i = .ok i := by
  simp [decodeN0, wordN_res, wordN_imm]

theorem decodeN8_wordN (mk : Byte → Instr) : decodeN8 (wordN op (0#8 ++ n)) mk = .ok (mk n) := by
  simp [decodeN8, wordN_res, wordN_hi, wordN_lo]

theorem decodeN16_wordN (mk : Half → Instr) : decodeN16 (wordN op imm) mk = .ok (mk imm) := by
  simp [decodeN16, wordN_res, wordN_imm]

theorem wordN_bit {k : Nat} (hk : k < 16) : (wordN op imm).getLsbD k = imm.getLsbD k := by
  simpa [hk] using congrArg (fun f => f.getLsbD k) (wordN_imm op imm)

theorem decodeOmode_wordN (od0 od1 : Bool) :
    decodeOmode (wordN op (0#14 ++ BitVec.ofBool od1 ++ BitVec.ofBool od0)) = .ok (.omode od0 od1) := by
  have hhigh (imm : Half) : (wordN op imm).extractLsb' 2 14 = imm.extractLsb' 2 14 := by
    ext k hk
    simp [← BitVec.getLsbD_eq_getElem, wordN_bit op imm (show 2 + k < 16 by omega)]
  rw [decodeOmode, wordN_res, hhigh, wordN_bit op _ (by decide), wordN_bit op _ (by decide)]
  cases od0 <;> cases od1 <;> rfl

theorem decodeP0_wordP (mk : Byte → Instr) : decodeP0 (wordP op pin 0#2) mk = .ok (mk pin) := by
  simp [decodeP0, wordP_res, wordP_v, wordP_pin]

theorem decodeP1_wordP (mk : Byte → Bool → Instr) : decodeP1 (wordP op pin (bit2 v)) mk = .ok (mk pin v) := by
  simp [decodeP1, wordP_res, wordP_1, wordP_0, wordP_pin]

theorem decodeP2_wordP (mk : Byte → BitVec 2 → Instr) : decodeP2 (wordP op pin l) mk = .ok (mk pin l) := by
  simp [decodeP2, wordP_res, wordP_v, wordP_pin]

theorem decodeM_wordM (mk : Half → Bool → Instr) : decodeM (wordM op v imm) mk = .ok (mk imm v) := by
  simp [decodeM, wordM_res, wordM_m, wordM_v]

theorem decodeEdge_code (e : Edge) : decodeEdge e.code = some e := by cases e <;> rfl

theorem decodeCbreg_wordC (e : Edge) (hid : id ≠ 0#8) :
    decodeCbreg (wordC op pin id e.code) = .ok (.cbreg pin id e) := by
  simp [decodeCbreg, wordC_res, wordC_id, wordC_v, wordC_pin, decodeEdge_code, hid]

theorem decodeElem0_wordE : decodeElem0 (wordE pin 0#2) = .ok pin := by
  simp [decodeElem0, elem_res, wordE_v, wordE_pin]

theorem decodeElem1_wordE (e : PinBit) : decodeElem1 (wordE e.pin (bit2 e.v)) = .ok e := by
  simp [decodeElem1, elem_res, wordE_1, wordE_0, wordE_pin]

theorem decodeElem2_wordE (e : PinLevel) : decodeElem2 (wordE e.pin e.v) = .ok e := by
  simp [decodeElem2, elem_res, wordE_v, wordE_pin]

theorem decodeList_wordL {α : Type} {elem : Word → Except DecodeError α} {f : α → Word}
    (helem : ∀ a, elem (f a) = .ok a) {as : List α} (has : decide (as.length ≤ maxList) = true)
    (mk : List α → Instr) (rest : List Word) :
    decodeList elem mk (wordL op as.length) (as.map f ++ rest) = .ok (mk as, rest) := by
  simp [decodeList, wordL_res, countOf_L op _ (of_decide_eq_true has), elems_ok elem f helem as rest]

end

/-- Settles O4: `decode` picks the opcode's format, which reads back the word it wrote. -/
theorem decodingAnEncodedCommandGivesItBack : Obligations.DecodingAnEncodedCommandGivesItBack := by
  intro i rest hw
  cases i
  case init | detect | geterr | getvar | hasext | getaddr | rstdef | intstat | handle =>
    rw [encode, List.singleton_append, decode, opcodeOf_N]
    exact congrArg (oneWord rest) (decodeN0_wordN ..)
  case setretry n | chaddr n | cbglobal n =>
    rw [encode, List.singleton_append, decode, opcodeOf_N]
    exact congrArg (oneWord rest) (decodeN8_wordN ..)
  case clrerr m | intmask m =>
    rw [encode, List.singleton_append, decode, opcodeOf_N]
    exact congrArg (oneWord rest) (decodeN16_wordN ..)
  case omode od0 od1 =>
    rw [encode, List.singleton_append, decode, opcodeOf_N]
    exact congrArg (oneWord rest) (decodeOmode_wordN ..)
  case rdpin pin | tglpin pin | drvget pin | cbunreg pin =>
    rw [encode, List.singleton_append, decode, opcodeOf_P]
    exact congrArg (oneWord rest) (decodeP0_wordP ..)
  case dir pin v | wrpin pin v | pol pin v | puen pin v | pusel pin v | latch pin v | intcfg pin v =>
    rw [encode, List.singleton_append, decode, opcodeOf_P]
    exact congrArg (oneWord rest) (decodeP1_wordP ..)
  case drv pin l =>
    rw [encode, List.singleton_append, decode, opcodeOf_P]
    exact congrArg (oneWord rest) (decodeP2_wordP ..)
  case dirm mask v | polm mask v | puenm mask v | puselm mask v | latchm mask v =>
    rw [encode, List.singleton_append, decode, opcodeOf_M]
    exact congrArg (oneWord rest) (decodeM_wordM ..)
  case cbreg pin id e =>
    rw [encode, List.singleton_append, decode, opcodeOf_C]
    exact congrArg (oneWord rest) (decodeCbreg_wordC _ _ _ e (of_decide_eq_true hw))
  case rdpinl pins =>
    rw [encode, List.cons_append, decode, opcodeOf_L]
    exact decodeList_wordL _ decodeElem0_wordE hw _ rest
  case dirl es | wrpinl es | poll es | puenl es | pusell es | latchl es | intcfgl es =>
    rw [encode, List.cons_append, decode, opcodeOf_L]
    exact decodeList_wordL _ decodeElem1_wordE hw _ rest
  case drvl es =>
    rw [encode, List.cons_append, decode, opcodeOf_L]
    exact decodeList_wordL _ decodeElem2_wordE hw _ rest

/-- Settles O6: each example is the encoding of its command, which decodes back. -/
theorem encodingExamplesDecode : Obligations.EncodingExamplesDecode := by
  have hdecode := decodingAnEncodedCommandGivesItBack
  exact ⟨hdecode (.dir 3#8 false) [] rfl, hdecode (.dirm 0x00FF#16 true) [] rfl,
    hdecode (.cbreg 0#8 1#8 .rising) [] rfl, hdecode (.cbreg 1#8 2#8 .both) [] rfl,
    hdecode (.setretry 2#8) [] rfl, hdecode (.chaddr 0x19#8) [] rfl, hdecode .handle [] rfl,
    hdecode (.dirl [⟨0#8, false⟩, ⟨9#8, true⟩]) [] rfl⟩

end Sys2Proof.Proofs

namespace Sys2Proof.Proofs

open Sys2Proof.Machine Sys2Proof.Laws

/-! ### A word is made of its fields (30_encoding R101, R102) -/

section

variable {w : Word}

/-- Two neighbouring fields are one field. -/
theorem field_append_field (lo n m : Nat) (w : Word) :
    w.extractLsb' (lo + n) m ++ w.extractLsb' lo n = w.extractLsb' lo (m + n) :=
  BitVec.extractLsb'_append_extractLsb'_eq_extractLsb' rfl

theorem ofBool_eq_field (k : Nat) (w : Word) : BitVec.ofBool (w.getLsbD k) = w.extractLsb' k 1 := by
  ext j hj
  simp [show j = 0 by omega]

theorem eq_wordN (hres : w.extractLsb' 16 8 = 0#8) : w = wordN (opcodeOf w) (w.extractLsb' 0 16) := by
  rw [wordN, ← hres, opcodeOf, field_append_field 16 8 8, field_append_field 0 16]
  exact BitVec.extractLsb'_eq_self.symm

theorem eq_wordP (hres : w.extractLsb' 2 14 = 0#14) :
    w = wordP (opcodeOf w) (w.extractLsb' 16 8) (w.extractLsb' 0 2) := by
  rw [wordP, ← hres, opcodeOf, field_append_field 16 8 8, field_append_field 2 14, field_append_field 0 2]
  exact BitVec.extractLsb'_eq_self.symm

theorem eq_wordM (hres : w.extractLsb' 17 7 = 0#7) :
    w = wordM (opcodeOf w) (w.getLsbD 16) (w.extractLsb' 0 16) := by
  rw [wordM, ← hres, opcodeOf, ofBool_eq_field, field_append_field 17 7 8, field_append_field 16 1,
    field_append_field 0 16]
  exact BitVec.extractLsb'_eq_self.symm

theorem eq_wordC (hres : w.extractLsb' 2 6 = 0#6) :
    w = wordC (opcodeOf w) (w.extractLsb' 16 8) (w.extractLsb' 8 8) (w.extractLsb' 0 2) := by
  rw [wordC, ← hres, opcodeOf, field_append_field 16 8 8, field_append_field 8 8, field_append_field 2 6,
    field_append_field 0 2]
  exact BitVec.extractLsb'_eq_self.symm

theorem eq_wordL (hres : w.extractLsb' 8 16 = 0#16) : w = wordL (opcodeOf w) (countOf w) := by
  rw [wordL, ← hres, opcodeOf, countOf, BitVec.ofNat_toNat, BitVec.setWidth_eq, field_append_field 8 16,
    field_append_field 0 8]
  exact BitVec.extractLsb'_eq_self.symm

theorem eq_wordE (hres : elemReservedOk w = true) : w = wordE (w.extractLsb' 8 8) (w.extractLsb' 0 2) := by
  simp only [elemReservedOk, Bool.and_eq_true, beq_iff_eq] at hres
  obtain ⟨hhigh, hlow⟩ := hres
  rw [wordE, ← hhigh, ← hlow, field_append_field 8 8, field_append_field 2 6, field_append_field 0 2]
  exact BitVec.extractLsb'_eq_self.symm

/-! Operands narrower than their field. -/

theorem imm_of_high8 (h : w.extractLsb' 8 8 = 0#8) : w.extractLsb' 0 16 = 0#8 ++ w.extractLsb' 0 8 := by
  rw [← h, field_append_field 0 8]

theorem imm_of_high14 (h : w.extractLsb' 2 14 = 0#14) :
    w.extractLsb' 0 16 = 0#14 ++ BitVec.ofBool (w.getLsbD 1) ++ BitVec.ofBool (w.getLsbD 0) := by
  rw [← h, ofBool_eq_field, ofBool_eq_field, field_append_field 1 1, field_append_field 0 1]

theorem bit2_of_bit1 (h : w.getLsbD 1 = false) : w.extractLsb' 0 2 = bit2 (w.getLsbD 0) := by
  have hzero : (0#1 : BitVec 1) = BitVec.ofBool (w.getLsbD 1) := by rw [h]; rfl
  rw [bit2, hzero, ofBool_eq_field, ofBool_eq_field, field_append_field 0 1]

end

/-! ### A word that a format accepts is the one it writes (30_encoding R107) -/

/-- A decoder answers with a value only after its check. -/
theorem ite_error_eq_ok {ε α : Type} {c : Prop} [Decidable c] {e : ε} {r : Except ε α} {a : α} :
    (if c then .error e else r) = .ok a ↔ ¬ c ∧ r = .ok a := by
  by_cases hc : c <;> simp [hc]

/-- The word is the whole encoding of a well-formed instruction. -/
def IsCommand (w : Word) (i : Instr) : Prop := i.wf = true ∧ encode i = [w]

section

variable {w : Word} {op : Byte} {i : Instr}

theorem IsCommand.of_eq {w' : Word} (h : IsCommand w' i) (hw : w = w') : IsCommand w i := hw ▸ h

theorem isCommand_of_decodeN0 {j : Instr} (hop : opcodeOf w = op) (hj : IsCommand (wordN op 0#16) j)
    (h : decodeN0 w j = .ok i) : IsCommand w i := by
  simp only [decodeN0, ite_error_eq_ok, Decidable.not_not, Except.ok.injEq] at h
  obtain ⟨hres, himm, rfl⟩ := h
  exact hj.of_eq (by rw [← hop, ← himm]; exact eq_wordN hres)

theorem isCommand_of_decodeN8 {mk : Byte → Instr} (hop : opcodeOf w = op)
    (hmk : ∀ n, IsCommand (wordN op (0#8 ++ n)) (mk n)) (h : decodeN8 w mk = .ok i) : IsCommand w i := by
  simp only [decodeN8, ite_error_eq_ok, Decidable.not_not, Except.ok.injEq] at h
  obtain ⟨hres, hhigh, rfl⟩ := h
  exact (hmk _).of_eq (by rw [← hop, ← imm_of_high8 hhigh]; exact eq_wordN hres)

theorem isCommand_of_decodeN16 {mk : Half → Instr} (hop : opcodeOf w = op)
    (hmk : ∀ m, IsCommand (wordN op m) (mk m)) (h : decodeN16 w mk = .ok i) : IsCommand w i := by
  simp only [decodeN16, ite_error_eq_ok, Decidable.not_not, Except.ok.injEq] at h
  obtain ⟨hres, rfl⟩ := h
  exact (hmk _).of_eq (by rw [← hop]; exact eq_wordN hres)

theorem isCommand_of_decodeOmode (hop : opcodeOf w = 0x30#8) (h : decodeOmode w = .ok i) : IsCommand w i := by
  simp only [decodeOmode, ite_error_eq_ok, Decidable.not_not, Except.ok.injEq] at h
  obtain ⟨hres, hhigh, rfl⟩ := h
  refine IsCommand.of_eq ⟨rfl, rfl⟩ ?_
  rw [← hop, ← imm_of_high14 hhigh]
  exact eq_wordN hres

theorem isCommand_of_decodeP0 {mk : Byte → Instr} (hop : opcodeOf w = op)
    (hmk : ∀ pin, IsCommand (wordP op pin 0#2) (mk pin)) (h : decodeP0 w mk = .ok i) : IsCommand w i := by
  simp only [decodeP0, ite_error_eq_ok, Decidable.not_not, Except.ok.injEq] at h
  obtain ⟨hres, hv, rfl⟩ := h
  exact (hmk _).of_eq (by rw [← hop, ← hv]; exact eq_wordP hres)

theorem isCommand_of_decodeP1 {mk : Byte → Bool → Instr} (hop : opcodeOf w = op)
    (hmk : ∀ pin v, IsCommand (wordP op pin (bit2 v)) (mk pin v)) (h : decodeP1 w mk = .ok i) : IsCommand w i := by
  simp only [decodeP1, ite_error_eq_ok, Decidable.not_not, Bool.not_eq_true, Except.ok.injEq] at h
  obtain ⟨hres, hv, rfl⟩ := h
  exact (hmk _ _).of_eq (by rw [← hop, ← bit2_of_bit1 hv]; exact eq_wordP hres)

theorem isCommand_of_decodeP2 {mk : Byte → BitVec 2 → Instr} (hop : opcodeOf w = op)
    (hmk : ∀ pin l, IsCommand (wordP op pin l) (mk pin l)) (h : decodeP2 w mk = .ok i) : IsCommand w i := by
  simp only [decodeP2, ite_error_eq_ok, Decidable.not_not, Except.ok.injEq] at h
  obtain ⟨hres, rfl⟩ := h
  exact (hmk _ _).of_eq (by rw [← hop]; exact eq_wordP hres)

theorem isCommand_of_decodeM {mk : Half → Bool → Instr} (hop : opcodeOf w = op)
    (hmk : ∀ mask v, IsCommand (wordM op v mask) (mk mask v)) (h : decodeM w mk = .ok i) : IsCommand w i := by
  simp only [decodeM, ite_error_eq_ok, Decidable.not_not, Except.ok.injEq] at h
  obtain ⟨hres, rfl⟩ := h
  exact (hmk _ _).of_eq (by rw [← hop]; exact eq_wordM hres)

theorem code_of_decodeEdge {c : BitVec 2} {e : Edge} (h : decodeEdge c = some e) : c = e.code := by
  unfold decodeEdge at h
  split at h <;> cases h <;> rfl

theorem isCommand_of_decodeCbreg (hop : opcodeOf w = 0x40#8) (h : decodeCbreg w = .ok i) : IsCommand w i := by
  simp only [decodeCbreg, ite_error_eq_ok] at h
  obtain ⟨hres, hid, h⟩ := h
  split at h
  · cases h
  · next e he =>
    cases h
    refine IsCommand.of_eq ⟨decide_eq_true hid, rfl⟩ ?_
    rw [← hop, ← code_of_decodeEdge he]
    exact eq_wordC (Decidable.not_not.1 hres)

end

/-! Elements and lists (30_encoding R102, R106). -/

section

variable {w : Word}

theorem eq_wordE_of_decodeElem0 {pin : Byte} (h : decodeElem0 w = .ok pin) : w = wordE pin 0#2 := by
  simp only [decodeElem0, ite_error_eq_ok, Decidable.not_not, Bool.not_eq_false, Except.ok.injEq] at h
  obtain ⟨hres, hv, rfl⟩ := h
  rw [← hv]
  exact eq_wordE hres

theorem eq_wordE_of_decodeElem1 {e : PinBit} (h : decodeElem1 w = .ok e) : w = wordE e.pin (bit2 e.v) := by
  simp only [decodeElem1, ite_error_eq_ok, Bool.not_eq_true, Bool.not_eq_false, Except.ok.injEq] at h
  obtain ⟨hres, hv, rfl⟩ := h
  rw [← bit2_of_bit1 hv]
  exact eq_wordE hres

theorem eq_wordE_of_decodeElem2 {e : PinLevel} (h : decodeElem2 w = .ok e) : w = wordE e.pin e.v := by
  simp only [decodeElem2, ite_error_eq_ok, Bool.not_eq_false, Except.ok.injEq] at h
  obtain ⟨hres, rfl⟩ := h
  exact eq_wordE hres

variable {α : Type} {elem : Word → Except DecodeError α} {f : α → Word}

theorem decodeElems_inv (helem : ∀ {w a}, elem w = .ok a → w = f a) {k : Nat} {ws rest : List Word} {as : List α}
    (h : decodeElems elem k ws = .ok (as, rest)) : as.length = k ∧ ws = as.map f ++ rest := by
  induction k generalizing ws as with
  | zero =>
    cases h
    exact ⟨rfl, rfl⟩
  | succ k ih =>
    cases ws with
    | nil => cases h
    | cons w ws =>
      rw [decodeElems] at h
      split at h
      · cases h
      · next a ha =>
        split at h
        · cases h
        · next as' rest' has =>
          cases h
          obtain ⟨hlen, hws⟩ := ih has
          exact ⟨by rw [List.length_cons, hlen], by rw [helem ha, hws]; rfl⟩

theorem encode_of_decodeList {op : Byte} {mk : List α → Instr} {i : Instr} {ws rest : List Word}
    (hop : opcodeOf w = op) (helem : ∀ {w a}, elem w = .ok a → w = f a)
    (hmk : ∀ as : List α, (mk as).wf = decide (as.length ≤ maxList) ∧
      encode (mk as) = wordL op as.length :: as.map f)
    (h : decodeList elem mk w ws = .ok (i, rest)) : i.wf = true ∧ w :: ws = encode i ++ rest := by
  rw [decodeList, ite_error_eq_ok, Decidable.not_not] at h
  obtain ⟨hres, h⟩ := h
  split at h
  · cases h
  · next as rest' has =>
    cases h
    obtain ⟨hlen, rfl⟩ := decodeElems_inv helem has
    obtain ⟨hwf, hencode⟩ := hmk as
    refine ⟨?_, ?_⟩
    · have hcount : countOf w < 2 ^ 8 := BitVec.isLt _
      rw [hwf, hlen, decide_eq_true_eq]
      exact Nat.le_of_lt_succ hcount
    · rw [hencode, hlen, ← hop, List.cons_append, ← eq_wordL hres]

end

theorem encode_of_oneWord {w : Word} {ws rest : List Word} {r : Except DecodeError Instr} {i : Instr}
    (h : oneWord ws r = .ok (i, rest)) (hr : r = .ok i → IsCommand w i) :
    i.wf = true ∧ w :: ws = encode i ++ rest := by
  cases r with
  | error e => cases h
  | ok j =>
    cases h
    obtain ⟨hwf, hencode⟩ := hr rfl
    exact ⟨hwf, by rw [hencode]; rfl⟩

/-- Settles O5: case `h_n` is the n-th row of `decode`, and each group is one format of 30_encoding R102 with one
operand constraint of R105. -/
theorem decodedWordsAreTheEncoding : Obligations.DecodedWordsAreTheEncoding := by
  intro ws rest i h
  cases ws with
  | nil => cases h
  | cons w ws =>
    rw [decode] at h
    split at h
    case h_1 hop | h_2 hop | h_4 hop | h_6 hop | h_7 hop | h_8 hop | h_21 hop | h_37 hop | h_42 hop =>
      exact encode_of_oneWord h (isCommand_of_decodeN0 hop ⟨rfl, rfl⟩)
    case h_3 hop | h_9 hop | h_41 hop =>
      exact encode_of_oneWord h (isCommand_of_decodeN8 hop fun _ => ⟨rfl, rfl⟩)
    case h_5 hop | h_36 hop =>
      exact encode_of_oneWord h (isCommand_of_decodeN16 hop fun _ => ⟨rfl, rfl⟩)
    case h_38 hop =>
      exact encode_of_oneWord h (isCommand_of_decodeOmode hop)
    case h_13 hop | h_17 hop | h_30 hop | h_40 hop =>
      exact encode_of_oneWord h (isCommand_of_decodeP0 hop fun _ => ⟨rfl, rfl⟩)
    case h_10 hop | h_15 hop | h_18 hop | h_22 hop | h_25 hop | h_31 hop | h_34 hop =>
      exact encode_of_oneWord h (isCommand_of_decodeP1 hop fun _ _ => ⟨rfl, rfl⟩)
    case h_28 hop =>
      exact encode_of_oneWord h (isCommand_of_decodeP2 hop fun _ _ => ⟨rfl, rfl⟩)
    case h_11 hop | h_19 hop | h_23 hop | h_26 hop | h_32 hop =>
      exact encode_of_oneWord h (isCommand_of_decodeM hop fun _ _ => ⟨rfl, rfl⟩)
    case h_39 hop =>
      exact encode_of_oneWord h (isCommand_of_decodeCbreg hop)
    case h_14 hop =>
      exact encode_of_decodeList hop eq_wordE_of_decodeElem0 (fun _ => ⟨rfl, rfl⟩) h
    case h_12 hop | h_16 hop | h_20 hop | h_24 hop | h_27 hop | h_33 hop | h_35 hop =>
      exact encode_of_decodeList hop eq_wordE_of_decodeElem1 (fun _ => ⟨rfl, rfl⟩) h
    case h_29 hop =>
      exact encode_of_decodeList hop eq_wordE_of_decodeElem2 (fun _ => ⟨rfl, rfl⟩) h
    case h_43 => cases h

end Sys2Proof.Proofs

namespace Sys2Proof.Proofs

open Sys2Proof.Machine Sys2Proof.Laws

/-! ### Taking a command from the port (30_encoding R100, R106, R108) -/

/-- The words of a well-formed command are as many as its first word says (30_encoding R106). -/
theorem encodedLength : ∀ i : Instr, EncodedLength.Statement i
  | .init => EncodedLength.init
  | .detect => EncodedLength.detect
  | .setretry n => EncodedLength.setretry n
  | .geterr => EncodedLength.geterr
  | .clrerr m => EncodedLength.clrerr m
  | .getvar => EncodedLength.getvar
  | .hasext => EncodedLength.hasext
  | .getaddr => EncodedLength.getaddr
  | .chaddr a => EncodedLength.chaddr a
  | .dir pin v => EncodedLength.dir pin v
  | .dirm mask v => EncodedLength.dirm mask v
  | .dirl es => EncodedLength.dirl es
  | .rdpin pin => EncodedLength.rdpin pin
  | .rdpinl pins => EncodedLength.rdpinl pins
  | .wrpin pin v => EncodedLength.wrpin pin v
  | .wrpinl es => EncodedLength.wrpinl es
  | .tglpin pin => EncodedLength.tglpin pin
  | .pol pin v => EncodedLength.pol pin v
  | .polm mask v => EncodedLength.polm mask v
  | .poll es => EncodedLength.poll es
  | .rstdef => EncodedLength.rstdef
  | .puen pin v => EncodedLength.puen pin v
  | .puenm mask v => EncodedLength.puenm mask v
  | .puenl es => EncodedLength.puenl es
  | .pusel pin v => EncodedLength.pusel pin v
  | .puselm mask v => EncodedLength.puselm mask v
  | .pusell es => EncodedLength.pusell es
  | .drv pin v => EncodedLength.drv pin v
  | .drvl es => EncodedLength.drvl es
  | .drvget pin => EncodedLength.drvget pin
  | .latch pin v => EncodedLength.latch pin v
  | .latchm mask v => EncodedLength.latchm mask v
  | .latchl es => EncodedLength.latchl es
  | .intcfg pin v => EncodedLength.intcfg pin v
  | .intcfgl es => EncodedLength.intcfgl es
  | .intmask m => EncodedLength.intmask m
  | .intstat => EncodedLength.intstat
  | .omode od0 od1 => EncodedLength.omode od0 od1
  | .cbreg pin id edge => EncodedLength.cbreg pin id edge
  | .cbunreg pin => EncodedLength.cbunreg pin
  | .cbglobal id => EncodedLength.cbglobal id
  | .handle => EncodedLength.handle

theorem fetch_command {w : Word} {ws rest : List Word} {i : Instr} (hlen : commandLength w ≤ ws.length + 1)
    (h : decode (w :: ws) = .ok (i, rest)) : fetch (w :: ws) = .command i rest := by
  rw [fetch, if_neg (Nat.not_lt.2 hlen), h]

theorem fetch_illegal {w : Word} {ws : List Word} {e : DecodeError} (hlen : commandLength w ≤ ws.length + 1)
    (h : decode (w :: ws) = .error e) : fetch (w :: ws) = .illegal e ((w :: ws).drop (commandLength w)) := by
  rw [fetch, if_neg (Nat.not_lt.2 hlen), h]

/-- A legal command stands on the port whole, so it is taken. -/
theorem fetch_of_decode {port rest : List Word} {i : Instr} (h : decode port = .ok (i, rest)) :
    fetch port = .command i rest := by
  obtain ⟨hwf, hport⟩ := decodedWordsAreTheEncoding port rest i h
  obtain ⟨w, ws, hencode, hlen⟩ := encodedLength i hwf
  rw [hencode, List.cons_append] at hport
  subst hport
  refine fetch_command ?_ h
  rw [hlen, List.length_append]
  omega

theorem step_of_command {s : State} {rest : List Word} {i : Instr} (hstuck : s.stuck = none)
    (h : fetch s.port = .command i rest) : step s = exec i (s.takeCommand rest) := by
  rw [step, hstuck, h]

/-- Settles O7: the port's words are the command's encoding (`decodedWordsAreTheEncoding`), so none is missing. -/
theorem stepRunsTheDecodedCommand : Obligations.StepRunsTheDecodedCommand := by
  intro s i rest hstuck h
  obtain ⟨hwf, -⟩ := decodedWordsAreTheEncoding s.port rest i h
  exact ⟨hwf, step_of_command hstuck (fetch_of_decode h)⟩

theorem step_of_illegal {s : State} {w : Word} {ws : List Word} {e : DecodeError} (hstuck : s.stuck = none)
    (hport : s.port = w :: ws) (hlen : commandLength w ≤ ws.length + 1) (h : decode (w :: ws) = .error e) :
    step s = .next (s.rejectIllegal ((w :: ws).drop (commandLength w))) := by
  rw [step, hstuck, hport, fetch_illegal hlen h]

/-- The opcodes of the map (30_encoding R105). -/
def assignedOpcodes : List Byte :=
  [0x01#8, 0x02#8, 0x03#8, 0x04#8, 0x05#8, 0x06#8, 0x07#8, 0x08#8, 0x09#8,
    0x10#8, 0x11#8, 0x12#8, 0x13#8, 0x14#8, 0x15#8, 0x16#8, 0x17#8, 0x18#8, 0x19#8, 0x1A#8, 0x1B#8,
    0x20#8, 0x21#8, 0x22#8, 0x23#8, 0x24#8, 0x25#8, 0x26#8, 0x27#8, 0x28#8, 0x29#8, 0x2A#8, 0x2B#8, 0x2C#8,
    0x2D#8, 0x2E#8, 0x2F#8, 0x30#8, 0x40#8, 0x41#8, 0x42#8, 0x43#8]

theorem decode_unassigned {w : Word} (ws : List Word) (h : opcodeOf w ∉ assignedOpcodes) :
    decode (w :: ws) = .error .unassignedOpcode := by
  rw [decode]
  split
  case h_43 => rfl
  all_goals
    next hop =>
    rw [hop] at h
    exact absurd (by decide) h

/-- Settles O8. -/
theorem illegalCommandChangesNothing : Obligations.IllegalCommandChangesNothing :=
  ⟨fun _ _ _ _ hstuck hport hlen h => step_of_illegal hstuck hport hlen h, fun _ ws h => decode_unassigned ws h⟩

end Sys2Proof.Proofs

namespace Sys2Proof.Proofs

open Sys2Proof.Machine Sys2Proof.Laws

/-! ### A command completes when every answer comes (30_encoding R100, R104) -/

/-- An operation that hangs took an answer that never comes. -/
theorem never_mem_of_hangs {P : BusCall → Prop} {s t : State} (h : Hangs P s t) : Answer.never ∈ s.script :=
  h.taken.suffix.subset List.mem_cons_self

theorem noHang_of_returned {s t : State} (h : Returned s t) (hs : s.NoHang) : t.NoHang :=
  fun hmem => hs (h.taken.suffix.subset hmem)

/-- Settles O11: the command cannot end in a call that never returns, since such a call takes an answer `never`. -/
theorem commandsCompleteWhenTheTransportAnswers : Obligations.CommandsCompleteWhenTheTransportAnswers := by
  intro i s hstuck hs
  obtain ⟨hok, herror⟩ := faithful_frame i (faithful_bodyOf i) s
  rw [exec_eq]
  cases hm : frame i (bodyOf i) s with
  | ok r u =>
    have hu := hok r u hm
    have hnever : u.NoHang := noHang_of_returned hu hs
    exact ⟨_, r, rfl, rfl, hu.stuck.trans hstuck, hnever⟩
  | error e u => exact absurd (never_mem_of_hangs (herror e u hm)) hs

end Sys2Proof.Proofs

namespace Sys2Proof.Proofs

open Sys2Proof.Machine Sys2Proof.Laws

/-! ### The frame of a command that passes its checks (40_control R130, R131, R150) -/

/-- A completed command answers on the port in the state its frame reached (30_encoding R104). -/
theorem exec_of_frame_ok {i : Instr} {s u : State} {r : Response} (h : frame i (bodyOf i) s = .ok r u) :
    exec i s = .next (u.respond r.ok r.value) := by
  rw [exec_eq, settle_ok h]
  rfl

/-- A command whose frame only raises a flag and fails is turned away (60_exceptions R321). -/
theorem exec_of_frame_raised {i : Instr} {s : State} {f : Flag}
    (h : frame i (bodyOf i) s = .ok Response.failed (s.raiseFlag f)) :
    exec i s = .next (s.turnedAway (flagMask f)) :=
  exec_of_frame_ok h

section

variable {i : Instr} {body : Eff Response} {s u : State}

/-- Step 1 of the frame lets a well-formed command with valid operands through. -/
theorem frame_of_valid (hw : i.wf = true) (hp : PinsValid (namedPins i)) (ha : badAddress i = false) :
    frame i body = initAndRun (attr i) body := by
  simp [frame, hw, pinOperands_ok hp, ha]

theorem initAndRun_ready (hl : lazyCommand i = true) (h : ensureInit s = .ok true u) :
    initAndRun (attr i) body s = gateAndRun (attr i) body u := by
  rw [initAndRun, lazyInit, if_pos ((lazyCommand_eq i).symm.trans hl), bind_ok h, if_pos rfl]

theorem initAndRun_notReady (hl : lazyCommand i = true) (h : ensureInit s = .ok false u) :
    initAndRun (attr i) body s = .ok Response.failed u := by
  rw [initAndRun, lazyInit, if_pos ((lazyCommand_eq i).symm.trans hl), bind_ok h]
  rfl

theorem gateAndRun_closed (hx : extendedCommand i = true) (hv : s.variant ≠ .extendedCapable) :
    gateAndRun (attr i) body s = .ok Response.failed (s.raiseFlag .unsupportedFeature) := by
  rw [extendedCommand_eq] at hx
  simp [gateAndRun, hx, hv]

end

theorem pinsValid_nil : PinsValid [] := fun _ hp => absurd hp List.not_mem_nil

theorem lazyCommand_of_extended {i : Instr} (h : extendedCommand i = true) : lazyCommand i = true := by
  cases i <;> cases h <;> rfl

/-- On an initialised block the gate turns an extended command away before its body (40_control R150, R152). -/
theorem frame_gated {i : Instr} {body : Eff Response} {s : State} (hw : i.wf = true) (hx : extendedCommand i = true)
    (hp : PinsValid (namedPins i)) (hi : s.init = true) (hv : s.variant ≠ .extendedCapable) :
    frame i body s = .ok Response.failed (s.raiseFlag .unsupportedFeature) := by
  have hl := lazyCommand_of_extended hx
  rw [frame_of_valid hw hp (badAddress_of_lazy hl), initAndRun_ready hl (ensureInit_done hi), gateAndRun_closed hx hv]

/-- Settles O17: the gate of `frame_gated`. -/
theorem featureGateTurnsTheCommandAway : Obligations.FeatureGateTurnsTheCommandAway :=
  fun _ _ hw hx hp hi hv => exec_of_frame_raised (frame_gated hw hx hp hi hv)

section

variable {i : Instr} {s u : State} (hw : i.wf = true) (hl : lazyCommand i = true) (hp : PinsValid (namedPins i))

include hw hl hp

/-- Once the lazy initialisation succeeds, the command is the one on the state it left: there it initialises nothing. -/
theorem exec_of_ready (h : ensureInit s = .ok true u) (hu : u.init = true) : exec i s = exec i u := by
  have hframe : frame i (bodyOf i) s = frame i (bodyOf i) u := by
    rw [frame_of_valid hw hp (badAddress_of_lazy hl), initAndRun_ready hl h, initAndRun_ready hl (ensureInit_done hu)]
  rw [exec_eq, exec_eq, hframe]

theorem exec_of_notReady (h : ensureInit s = .ok false u) : exec i s = .next (u.respond false 0x0000#16) := by
  refine exec_of_frame_ok (r := Response.failed) ?_
  rw [frame_of_valid hw hp (badAddress_of_lazy hl), initAndRun_notReady hl h]

end

/-- Settles O16: `EnsureInit()` on each script, and what the frame does after it. -/
theorem lazyInitialisationRunsFirst : Obligations.LazyInitialisationRunsFirst := by
  intro i s x hw hl hp hi
  refine ⟨fun b r1 r2 r3 rest hf hs => ?_, fun b rest hf hs => ?_, fun rest hs => ?_⟩
  · exact exec_of_ready hw hl hp (ensureInit_detect hi hf hs) rfl
  · exact exec_of_ready hw hl hp (ensureInit_forced hi hf hs) rfl
  · exact exec_of_notReady hw hl hp (ensureInit_fail hi hs)

/-- A command that passes every step of the frame runs its body after the entry clear (40_control R130). -/
theorem exec_of_body {i : Instr} {s t : State} {r : Response} (hw : i.wf = true) (hp : PinsValid (namedPins i))
    (ha : badAddress i = false) (hi : lazyCommand i = false ∨ s.init = true)
    (hg : extendedCommand i = false ∨ s.variant = .extendedCapable)
    (hb : bodyOf i (s.clearFlags (attr i).clear) = .ok r t) : exec i s = .next (t.respond r.ok r.value) := by
  rw [lazyCommand_eq] at hi
  rw [extendedCommand_eq] at hg
  exact exec_of_frame_ok ((frame_body hw (pinOperands_ok hp) ha hi hg).trans hb)

end Sys2Proof.Proofs

namespace Sys2Proof.Proofs

open Sys2Proof.Machine Sys2Proof.Laws

/-! ### The management commands (40_control R160 to R168, 43_interrupt_dispatch R294) -/

/-- A command that the frame only runs, with nothing to check, initialise, gate or clear, is its body from the state
it is given (40_control R132). -/
theorem exec_of_plain {i : Instr} {s t : State} {r : Response} (hattr : attr i = ⟨false, false, false, []⟩)
    (hw : i.wf = true) (ha : badAddress i = false) (hb : bodyOf i s = .ok r t) :
    exec i s = .next (t.respond r.ok r.value) := by
  refine exec_of_body hw (pinsValid_of_frame ?_) ha (.inl ?_) (.inl ?_) ?_
  · simp [hattr]
  · simp [lazyCommand_eq, hattr]
  · simp [extendedCommand_eq, hattr]
  · rw [hattr, clearFlags_nil, hb]

/-- Settles O18: each query is plain, and its body only answers. -/
theorem queriesReportAndChangeNothing : Obligations.QueriesReportAndChangeNothing := by
  refine ⟨rfl, rfl, rfl, rfl, fun s => ⟨?_, ?_, ?_, ?_⟩⟩
  · exact exec_of_plain (r := ⟨true, s.err⟩) rfl rfl rfl rfl
  · refine (exec_of_plain (r := ⟨true, (variantCode s.variant).setWidth 16⟩) rfl rfl rfl rfl).trans ?_
    cases s.variant <;> rfl
  · exact exec_of_plain (r := ⟨true, if s.variant = .extendedCapable then 0x0001#16 else 0x0000#16⟩) rfl rfl rfl rfl
  · exact exec_of_plain (r := ⟨true, s.addr.setWidth 16⟩) rfl rfl rfl rfl

/-- Format N with a byte operand, as the bytes of its word (30_encoding R102). -/
theorem wordN_byte (op n : Byte) : wordN op (0#8 ++ n) = op ++ 0x00#8 ++ 0x00#8 ++ n :=
  (BitVec.append_assoc (x₁ := op ++ 0#8) (x₂ := 0#8) (x₃ := n)).symm

/-- Settles O19: each setter is plain, and its body writes one field. -/
theorem settersWriteTheirField : Obligations.SettersWriteTheirField := by
  refine ⟨fun n => ?_, fun m => rfl, fun c => ?_, fun s => ⟨fun n => ?_, fun m => ?_, fun c => ?_⟩⟩
  · exact congrArg (fun w => [w]) (wordN_byte 0x03#8 n)
  · exact congrArg (fun w => [w]) (wordN_byte 0x42#8 c)
  · exact exec_of_plain (t := { s with retries := n }) (r := Response.done true) rfl rfl rfl rfl
  · exact exec_of_plain (t := { s with err := s.err &&& ~~~m }) (r := Response.done true) rfl rfl rfl rfl
  · exact exec_of_plain (t := { s with gcb := c }) (r := Response.done true) rfl rfl rfl rfl

/-- INIT on an initialised block: nothing is left to do (R160). -/
theorem exec_init_done {s : State} (hi : s.init = true) : exec .init s = .next (s.respond true 0x0000#16) := by
  refine exec_of_body rfl pinsValid_nil rfl (.inr hi) (.inl rfl) (r := Response.done true) ?_
  exact congrArg _ (clearFlags_nil s)

/-- Settles O20: the lazy initialisation of `lazyInitialisationRunsFirst`, then INIT on the initialised block. -/
theorem initOutcomes : Obligations.InitOutcomes := by
  intro s x
  refine ⟨exec_init_done, fun hi => ?_⟩
  obtain ⟨hdetect, hforced, hfail⟩ := lazyInitialisationRunsFirst .init s x rfl rfl pinsValid_nil hi
  refine ⟨fun b r1 r2 r3 rest hf hs => ?_, fun b rest hf hs => ?_, hfail⟩
  · rw [hdetect b r1 r2 r3 rest hf hs]
    exact exec_init_done rfl
  · rw [hforced b rest hf hs]
    exact exec_init_done rfl

/-! DETECT (R161). -/

/-- DETECT on an initialised block reports what the detection left. -/
theorem exec_detect_again {s t : State} (hi : s.init = true) (h : detectOrForce s = .ok () t) :
    exec .detect s = .next (t.respond (t.variant != .unknown) ((variantCode t.variant).setWidth 16)) := by
  refine exec_of_plain (r := detectResponse t.variant) rfl rfl rfl ?_
  rw [bodyOf, detectBody, get_bind, if_pos hi, bind_ok h]
  rfl

/-- DETECT on an uninitialised block initialises it and reports what that left. -/
theorem exec_detect_ready {s t : State} (hi : s.init = false) (h : ensureInit s = .ok true t) :
    exec .detect s = .next (t.respond (t.variant != .unknown) ((variantCode t.variant).setWidth 16)) := by
  refine exec_of_plain (r := detectResponse t.variant) rfl rfl rfl ?_
  rw [bodyOf, detectBody, get_bind, if_neg (by simp [hi]), bind_ok h]
  rfl

theorem exec_detect_notReady {s t : State} (hi : s.init = false) (h : ensureInit s = .ok false t) :
    exec .detect s = .next (t.respond false 0x0000#16) := by
  refine exec_of_plain (r := Response.failed) rfl rfl rfl ?_
  rw [bodyOf, detectBody, get_bind, if_neg (by simp [hi]), bind_ok h]
  rfl

/-- A forced variant is a known one (10_state R28). -/
theorem forcedVariant_known {f : Forced} (h : f ≠ .none) : (forcedVariant f != .unknown) = true := by
  cases f
  case none => exact absurd rfl h
  case standardOnly | extendedCapable => rfl

/-- Settles O21: the body detects or initialises, on each script, and reports the variant left. -/
theorem detectOutcomes : Obligations.DetectOutcomes := by
  intro s x
  refine ⟨fun hi => ⟨fun r1 r2 r3 rest hf hs => ?_, fun hf => ?_⟩,
    fun hi => ⟨fun b r1 r2 r3 rest hf hs => ?_, fun b rest hf hs => ?_, fun rest hs => ?_⟩⟩
  · exact exec_detect_again hi (detectOrForce_none hf hs)
  · rw [exec_detect_again hi (detectOrForce_forced hf), forcedVariant_known hf]
  · exact exec_detect_ready hi (ensureInit_detect hi hf hs)
  · rw [exec_detect_ready hi (ensureInit_forced hi hf hs)]
    simp only [State.initialisedForced, forcedVariant_known hf]
  · exact exec_detect_notReady hi (ensureInit_fail hi hs)

/-! CHADDR (R166). -/

theorem badAddress_chaddr_iff (a : Byte) : badAddress (.chaddr a) = true ↔ a.toNat < 0x20 ∨ 0x27 < a.toNat := by
  simp [badAddress, BitVec.lt_def]

/-- CHADDR out of range is turned away in step 1 of the frame. -/
theorem exec_chaddr_outside {a : Byte} {s : State} (ha : a.toNat < 0x20 ∨ 0x27 < a.toNat) :
    exec (.chaddr a) s = .next (s.turnedAway 0x0020#16) := by
  refine exec_of_frame_raised (f := .invalidAddress) ?_
  have hbad := (badAddress_chaddr_iff a).2 ha
  simp [frame, Instr.wf, attr, hbad]

/-- The state in which CHADDR in range initialises: InvalidAddress cleared on entry, and then the new address. -/
def readdressed (s : State) (a : Byte) : State := (s.clearFlags [.invalidAddress]).changeAddress a

/-- CHADDR in range initialises the block at its new address and reports whether the transport was ready. -/
theorem exec_chaddr_inside {a : Byte} {s t : State} {ready : Bool} (hlo : 0x20 ≤ a.toNat) (hhi : a.toNat ≤ 0x27)
    (h : ensureInit (readdressed s a) = .ok ready t) : exec (.chaddr a) s = .next (t.respond ready 0x0000#16) := by
  have ha : badAddress (.chaddr a) = false := by
    rw [← Bool.not_eq_true, badAddress_chaddr_iff]
    omega
  refine exec_of_body rfl pinsValid_nil ha (.inl rfl) (.inl rfl) (r := Response.done ready) ?_
  rw [bodyOf, modify_bind]
  exact reportOk_ok h

/-- Settles O22: `EnsureInit()` on each script, from the state `readdressed`. -/
theorem changeAddressOutcomes : Obligations.ChangeAddressOutcomes := by
  intro s a x
  refine ⟨exec_chaddr_outside, fun hlo hhi => ⟨fun b r1 r2 r3 rest hf hs => ?_, fun b rest hf hs => ?_,
    fun rest hs => ?_⟩⟩
  · exact exec_chaddr_inside hlo hhi (ensureInit_detect (s := readdressed s a) rfl hf hs)
  · exact exec_chaddr_inside hlo hhi (ensureInit_forced (s := readdressed s a) rfl hf hs)
  · exact exec_chaddr_inside hlo hhi (ensureInit_fail (s := readdressed s a) rfl hs)

end Sys2Proof.Proofs

namespace Sys2Proof.Proofs

open Sys2Proof.Machine Sys2Proof.Laws

/-! ### The register of a pin, and the bits of a list (00_scope R16, 41_standard_bank R183, R186) -/

theorem regOf_eq (pair : RegPair) (pin : Byte) :
    regOf pair pin = if pin.toNat < 8 then pair.port0 else pair.port1 := by
  simp [regOf, portOf, Nat.div_eq_zero_iff]

theorem flipBit_flipBit (old : Byte) (k : Nat) : flipBit (flipBit old k) k = old := by
  simp [flipBit]

/-- The word with the element's bit made its value. -/
def putElem (old : Half) (e : PinBit) : Half :=
  if e.v then old ||| (1#16 <<< e.pin.toNat) else old &&& ~~~(1#16 <<< e.pin.toNat)

/-- One more element in the list is one more bit put after the merge. -/
theorem mergeMask_listStep (old : Half) (mv : Half × Half) (e : PinBit) :
    mergeMask old (listStep mv e).1 (listStep mv e).2 = putElem (mergeMask old mv.1 mv.2) e := by
  cases hv : e.v with
  | false =>
    ext k hk
    simp only [mergeMask, listStep, putElem, hv, if_false, Bool.false_eq_true, BitVec.ofBool_false,
      BitVec.getElem_or, BitVec.getElem_and, BitVec.getElem_not]
    cases (1#16 <<< e.pin.toNat)[k] <;> simp
  | true =>
    have hone : (BitVec.ofBool true).setWidth 16 = 1#16 := rfl
    ext k hk
    simp only [mergeMask, listStep, putElem, hv, if_true, hone, BitVec.getElem_or, BitVec.getElem_and,
      BitVec.getElem_not]
    cases (1#16 <<< e.pin.toNat)[k] <;> simp

theorem mergeMask_foldl_listStep (old : Half) (es : List PinBit) (mv : Half × Half) :
    mergeMask old (es.foldl listStep mv).1 (es.foldl listStep mv).2 = es.foldl putElem (mergeMask old mv.1 mv.2) := by
  induction es generalizing mv with
  | nil => rfl
  | cons e es ih => rw [List.foldl_cons, List.foldl_cons, ih, mergeMask_listStep]

theorem mergeMask_listMV (old : Half) (es : List PinBit) :
    mergeMask old (listMV es).1 (listMV es).2 = es.foldl putElem old := by
  have hnone : mergeMask old 0#16 0#16 = old := by
    rw [mergeMask, BitVec.zero_and, BitVec.or_zero, BitVec.not_zero, BitVec.and_allOnes]
  rw [listMV, mergeMask_foldl_listStep, hnone]

theorem mask_foldl_listStep (es : List PinBit) (mv : Half × Half) :
    (es.foldl listStep mv).1 = es.foldl (fun m e => m ||| (1#16 <<< e.pin.toNat)) mv.1 := by
  induction es generalizing mv with
  | nil => rfl
  | cons e es ih => rw [List.foldl_cons, List.foldl_cons, ih, listStep]

theorem pinMask_eq (ps : List Byte) : pinMask ps = ps.foldl (fun m p => m ||| (1#16 <<< p.toNat)) 0#16 := by
  rw [pinMask, listMV, mask_foldl_listStep, List.foldl_map]

end Sys2Proof.Proofs

namespace Sys2Proof.Proofs

open Sys2Proof.Machine Sys2Proof.Laws

/-! ### From a body's result to a command's outcome (40_control R130) -/

/-- The state in which a body starts: the flags of the mask are cleared (R130 step 4). -/
def entered (s : State) (clears : Half) : State := { s with err := s.err &&& ~~~clears }

/-- The frame lets the command through on `s`: what `body` answers after the entry clear is the command's response. -/
def RunsBody (i : Instr) (s : State) (clears : Half) (body : Eff Response) : Prop :=
  ∀ r t, body (entered s clears) = .ok r t → exec i s = .next (t.respond r.ok r.value)

theorem RunsBody.congr {i : Instr} {s : State} {clears : Half} {m m' : Eff Response} (h : RunsBody i s clears m)
    (he : m' (entered s clears) = m (entered s clears)) : RunsBody i s clears m' :=
  fun r t hm => h r t (he.symm.trans hm)

/-- A well-formed command with valid pins and an open gate runs its body on an initialised block. -/
theorem runsBody_bodyOf {i : Instr} {s : State} (hl : lazyCommand i = true) (hw : i.wf = true)
    (hp : PinsValid (namedPins i)) (hi : s.init = true)
    (hg : extendedCommand i = false ∨ s.variant = .extendedCapable) :
    RunsBody i s (flagsMask (attr i).clear) (bodyOf i) :=
  fun _ _ hm => exec_of_body hw hp (badAddress_of_lazy hl) (.inr hi) hg hm

/-- A command of the standard bank is not gated (40_control R132). -/
theorem runsBody_standard {i : Instr} {s : State} (hl : lazyCommand i = true) (hx : extendedCommand i = false)
    (hw : i.wf = true) (hp : PinsValid (namedPins i)) (hi : s.init = true) :
    RunsBody i s (flagsMask (attr i).clear) (bodyOf i) :=
  runsBody_bodyOf hl hw hp hi (.inl hx)

theorem pinsValid_singleton {pin : Byte} (h : pin.toNat < 16) : PinsValid [pin] := by
  simpa [PinsValid] using h

/-! The operations of a pair, by the result of the read (20_memory R70, R71). -/

theorem pairModify_of_readFail {pair : RegPair} {f : Half → Half} {s t : State} (h : dualRead pair s = .ok none t) :
    pairModify pair f s = .ok false t := by
  rw [pairModify, bind_ok h]
  rfl

theorem pairModify_of_read {pair : RegPair} {f : Half → Half} {s t : State} {v : Half}
    (h : dualRead pair s = .ok (some v) t) : pairModify pair f s = dualWrite pair (f v) t := by
  rw [pairModify, bind_ok h]

/-- The body of a command that answers the value of one read. -/
def reportValue {α : Type} (m : Eff (Option α)) (value : α → Half) : Eff Response := do
  pure (valueResponse ((← m).map value))

theorem reportValue_ok {α : Type} {m : Eff (Option α)} {value : α → Half} {s t : State} {r : Option α}
    (h : m s = .ok r t) : reportValue m value s = .ok (valueResponse (r.map value)) t := by
  rw [reportValue, bind_ok h]
  rfl

/-- The state in which the pair is written: both reads are done and left no flag of theirs. -/
def pairWasRead (s : State) (clears : Half) (evs : List BusEvent) (rest : List Answer) : State :=
  { entered s clears with history := s.history ++ evs, script := rest }

/-! The shape of each kind of command: the body's result on each script, with the flags it leaves. -/

section

variable {i : Instr} {s : State} {clears : Half} (hr : flagMask .readFail &&& clears = flagMask .readFail)
  (hw : flagMask .writeFail &&& clears = flagMask .writeFail)

include hr

theorem readCommand_of_body {reg : Byte} {value : Byte → Half}
    (h : RunsBody i s clears (reportValue (readReg reg) value)) : ReadCommand i s reg value clears := by
  have hclear := cleared_after_mask s.err clears .readFail hr
  refine ⟨fun j b rest hj hs => ?_, fun rest hs => ?_⟩
  · rw [h _ _ (reportValue_ok (readReg_ok (s := entered s clears) hj hs))]
    simp only [entered, hclear]
    rfl
  · exact h _ _ (reportValue_ok (readReg_fail (s := entered s clears) hs))

theorem pairReadCommand_of_body {pair : RegPair} {value : Half → Half}
    (h : RunsBody i s clears (reportValue (dualRead pair) value)) : PairReadCommand i s pair value clears := by
  have hclear := cleared_after_mask s.err clears .readFail hr
  refine ⟨fun j0 b0 j1 b1 rest h0 h1 hs => ?_, fun rest hs => ?_, fun j0 b0 rest h0 hs => ?_⟩
  · rw [h _ _ (reportValue_ok (dualRead_ok (s := entered s clears) h0 h1 hs))]
    simp only [entered, hclear]
    rfl
  · exact h _ _ (reportValue_ok (dualRead_fail0 (s := entered s clears) hs))
  · rw [h _ _ (reportValue_ok (dualRead_fail1 (s := entered s clears) h0 hs))]
    simp only [entered, hclear]
    rfl

/-- The two reads succeed, and what is left of the command is to write the changed value. -/
theorem pairModify_entered {pair : RegPair} {f : Half → Half} {b0 b1 : Byte} {j0 j1 : Nat} {rest : List Answer}
    (h0 : j0 ≤ s.retries.toNat) (h1 : j1 ≤ s.retries.toNat)
    (hs : s.script = okAnswers j0 b0 ++ okAnswers j1 b1 ++ rest) :
    pairModify pair f (entered s clears) = dualWrite pair (f (b1 ++ b0))
      (pairWasRead s clears (readOk s.addr pair.port0 j0 b0 ++ readOk s.addr pair.port1 j1 b1) rest) := by
  have hclear := cleared_after_mask s.err clears .readFail hr
  rw [pairModify_of_read (dualRead_ok (s := entered s clears) h0 h1 hs)]
  simp only [entered, hclear, pairWasRead]

include hw

theorem modifyCommand_of_body {reg : Byte} {f : Byte → Byte}
    (h : RunsBody i s clears (reportOk (readModifyWrite reg f))) : ModifyCommand i s reg f clears := by
  have hclearR := cleared_after_mask s.err clears .readFail hr
  have hclearW := cleared_after_mask s.err clears .writeFail hw
  refine ⟨fun j old k x rest hj hk hs => ?_, fun rest hs => ?_, fun j old rest hj hs => ?_⟩
  · rw [h _ _ (reportOk_ok (readModifyWrite_ok (s := entered s clears) hj hk hs))]
    simp only [entered, hclearR, hclearW]
    rfl
  · exact h _ _ (reportOk_ok (readModifyWrite_readFail (s := entered s clears) hs))
  · rw [h _ _ (reportOk_ok (readModifyWrite_writeFail (s := entered s clears) hj hs))]
    simp only [entered, hclearR]
    rfl

theorem pairModifyCommand_of_body {pair : RegPair} {f : Half → Half}
    (h : RunsBody i s clears (reportOk (pairModify pair f))) : PairModifyCommand i s pair f clears := by
  have hclearR := cleared_after_mask s.err clears .readFail hr
  have hclearW := cleared_after_mask s.err clears .writeFail hw
  refine ⟨fun j0 b0 j1 b1 k0 x0 k1 x1 rest h0 h1 h2 h3 hs => ?_, fun rest hs => ?_, fun j0 b0 rest h0 hs => ?_,
    fun j0 b0 j1 b1 rest h0 h1 hs => ?_, fun j0 b0 j1 b1 k0 x0 rest h0 h1 h2 hs => ?_⟩
  · have hs' : s.script = okAnswers j0 b0 ++ okAnswers j1 b1 ++ (okAnswers k0 x0 ++ okAnswers k1 x1 ++ rest) := by
      simpa only [List.append_assoc] using hs
    rw [h _ _ (reportOk_ok ((pairModify_entered hr h0 h1 hs').trans (dualWrite_ok (s := pairWasRead ..) h2 h3 rfl)))]
    simp only [pairWasRead, entered, hclearW, List.append_assoc]
    rfl
  · exact h _ _ (reportOk_ok (pairModify_of_readFail (dualRead_fail0 (s := entered s clears) hs)))
  · rw [h _ _ (reportOk_ok (pairModify_of_readFail (dualRead_fail1 (s := entered s clears) h0 hs)))]
    simp only [entered, hclearR]
    rfl
  · rw [List.append_assoc] at hs
    rw [h _ _ (reportOk_ok ((pairModify_entered hr h0 h1 hs).trans (dualWrite_fail0 (s := pairWasRead ..) rfl)))]
    simp only [pairWasRead, entered, List.append_assoc]
    rfl
  · have hs' : s.script =
        okAnswers j0 b0 ++ okAnswers j1 b1 ++ (okAnswers k0 x0 ++ failAnswers s.retries.toNat ++ rest) := by
      simpa only [List.append_assoc] using hs
    rw [h _ _ (reportOk_ok ((pairModify_entered hr h0 h1 hs').trans (dualWrite_fail1 (s := pairWasRead ..) h2 rfl)))]
    simp only [pairWasRead, entered, hclearW, List.append_assoc]
    rfl

/-! The bodies that the pin, mask and list commands share (20_memory R67, R70, 41_standard_bank R183). -/

/-- A body that modifies one bit of the register that owns the pin (20_memory R67). -/
theorem modifyCommand_of_pinModifyBody {sel : RegMap → RegPair} {pin : Byte} {v : Bool}
    (h : RunsBody i s clears (pinModifyBody sel pin v)) :
    ModifyCommand i s (if pin.toNat < 8 then (sel s.regMap).port0 else (sel s.regMap).port1)
      (fun old => putBit old (pin.toNat % 8) v) clears := by
  rw [← regOf_eq]
  exact modifyCommand_of_body hr hw (h.congr rfl)

/-- A body that sets or clears the masked bits of a pair (20_memory R70). -/
theorem pairModifyCommand_of_maskModifyBody {sel : RegMap → RegPair} {mask : Half} {v : Bool}
    (h : RunsBody i s clears (maskModifyBody sel mask v)) :
    PairModifyCommand i s (sel s.regMap) (fun old => putMask old mask v) clears :=
  pairModifyCommand_of_body hr hw (h.congr rfl)

/-- A body that merges a list puts its elements one by one, in list order (41_standard_bank R183). -/
theorem pairModifyCommand_of_listBody {sel : RegMap → RegPair} {es : List PinBit}
    (h : RunsBody i s clears (listBody sel es)) :
    PairModifyCommand i s (sel s.regMap) (fun old => es.foldl putElem old) clears := by
  simp only [← mergeMask_listMV]
  exact pairModifyCommand_of_body hr hw (h.congr rfl)

end

end Sys2Proof.Proofs

namespace Sys2Proof.Proofs

open Sys2Proof.Machine Sys2Proof.Laws

/-! ### The standard-bank commands (41_standard_bank R180 to R200) -/

/-- Settles O23: the three bodies are `pinModifyBody`, on three pairs. -/
theorem standardPinCommands : Obligations.StandardPinCommands := by
  intro s pin v hi hpin
  have hp := pinsValid_singleton hpin
  refine ⟨?_, ?_, ?_⟩
  · exact modifyCommand_of_pinModifyBody rfl rfl (runsBody_standard (i := .dir pin v) rfl rfl rfl hp hi)
  · exact modifyCommand_of_pinModifyBody rfl rfl (runsBody_standard (i := .wrpin pin v) rfl rfl rfl hp hi)
  · exact modifyCommand_of_pinModifyBody rfl rfl (runsBody_standard (i := .pol pin v) rfl rfl rfl hp hi)

/-- Settles O24. -/
theorem togglePinCommand : Obligations.TogglePinCommand := by
  intro s pin hi hpin
  rw [← regOf_eq]
  have hruns := runsBody_standard (i := .tglpin pin) rfl rfl rfl (pinsValid_singleton hpin) hi
  exact modifyCommand_of_body (f := fun old => flipBit old (bitposOf pin)) rfl rfl (hruns.congr rfl)

/-- Settles O25: the success clause of `togglePinCommand` twice, and a bit inverted twice is as it was. -/
theorem toggleTwiceRestoresTheOutput : Obligations.ToggleTwiceRestoresTheOutput := by
  intro s pin old a c j k j' k' rest hi hpin n reg new hj hk hj' hk' hs
  obtain ⟨htoggle, -, -⟩ := togglePinCommand s pin hi hpin
  have hfirst := htoggle j old k a (okAnswers j' new ++ okAnswers k' c ++ rest) hj hk
    (by simpa only [List.append_assoc] using hs)
  refine ⟨_, _, hfirst, (togglePinCommand _ pin ?_ hpin).1 j' new k' c rest ?_ ?_ ?_, ?_, ?_⟩
  · exact hi
  · exact hj'
  · exact hk'
  · rfl
  · have hback : new ^^^ (1#8 <<< (pin.toNat % 8)) = old := flipBit_flipBit old _
    simp only [State.completed, hback, List.append_assoc]
    rfl
  · rfl

/-- Settles O26: both bodies are `maskModifyBody`, on two pairs. -/
theorem standardMaskCommands : Obligations.StandardMaskCommands := by
  intro s mask v hi
  refine ⟨?_, ?_⟩
  · exact pairModifyCommand_of_maskModifyBody rfl rfl
      (runsBody_standard (i := .dirm mask v) rfl rfl rfl pinsValid_nil hi)
  · exact pairModifyCommand_of_maskModifyBody rfl rfl
      (runsBody_standard (i := .polm mask v) rfl rfl rfl pinsValid_nil hi)

/-- Settles O27: the three bodies are `listBody`, on three pairs. -/
theorem standardListCommands : Obligations.StandardListCommands := by
  intro s es hi hlen hp
  have hwf : decide (es.length ≤ maxList) = true := decide_eq_true hlen
  refine ⟨?_, ?_, ?_⟩
  · exact pairModifyCommand_of_listBody rfl rfl (runsBody_standard (i := .dirl es) rfl rfl hwf hp hi)
  · exact pairModifyCommand_of_listBody rfl rfl (runsBody_standard (i := .wrpinl es) rfl rfl hwf hp hi)
  · exact pairModifyCommand_of_listBody rfl rfl (runsBody_standard (i := .poll es) rfl rfl hwf hp hi)

/-- The level of a pin as the value of one read (R185). -/
theorem bitResponse_pinRead (pair : RegPair) (pin : Byte) :
    (do pure (bitResponse (← pinRead pair pin))) = reportValue (readReg (regOf pair pin))
      (fun b => if b.getLsbD (bitposOf pin) then 0x0001#16 else 0x0000#16) := by
  rw [pinRead, reportValue, bind_assoc]
  refine bind_congr fun r => ?_
  cases r with
  | none => rfl
  | some b =>
    rw [pure_bind, Option.map_some]
    cases b.getLsbD (bitposOf pin) <;> rfl

/-- Settles O28. -/
theorem readPinCommand : Obligations.ReadPinCommand := by
  intro s pin hi hpin
  rw [← regOf_eq]
  have hruns := runsBody_standard (i := .rdpin pin) rfl rfl rfl (pinsValid_singleton hpin) hi
  refine readCommand_of_body (value := fun b => if b.getLsbD (bitposOf pin) then _ else _) rfl (hruns.congr ?_)
  rw [← bitResponse_pinRead]
  rfl

/-- Settles O29: the mask of the list is the union of its pins' bits. -/
theorem readPinListCommand : Obligations.ReadPinListCommand := by
  intro s ps hi hlen hp
  have hruns := runsBody_standard (i := .rdpinl ps) rfl rfl (decide_eq_true hlen) hp hi
  rw [← pinMask_eq]
  exact pairReadCommand_of_body rfl (hruns.congr rfl)

/-- RSTDEF runs its write sequence. -/
theorem rstdef_runs {s : State} (hi : s.init = true) :
    RunsBody .rstdef s 0x0008#16 (reportOk (writeSeq (resetWrites s.regMap s.variant))) :=
  (runsBody_standard (i := .rstdef) rfl rfl rfl pinsValid_nil hi).congr rfl

/-- Settles O30: the write sequence on each script. -/
theorem resetToDefaultWrites : Obligations.ResetToDefaultWrites := by
  intro s hi m standard extended seq n e
  have hclear : cleared e .writeFail = e := cleared_cleared s.err .writeFail
  have hruns := rstdef_runs hi
  refine ⟨fun ms rest hl hm hs => ?_, fun before r b after ms rest hseq hl hm hs => ?_⟩
  · exact hruns _ _ (reportOk_ok (writeSeq_ok seq ms rest (entered s 0x0008#16) hl hm hs hclear))
  · rw [show resetWrites s.regMap s.variant = before ++ (r, b) :: after from hseq] at hruns
    exact hruns _ _ (reportOk_ok (writeSeq_fail before after r b ms rest (entered s 0x0008#16) hl hm hs hclear))

end Sys2Proof.Proofs

namespace Sys2Proof.Proofs

open Sys2Proof.Machine Sys2Proof.Laws

/-! ### Drive-strength fields and inverted lists (42_extended_bank R236, R261) -/

/-- The drive-strength register of a pin is that of its group of four (R236). -/
theorem driveIndex_eq (pin : Byte) : driveIndex pin = pin.toNat / 4 := by
  rw [driveIndex, portOf, bitposOf]
  by_cases hhigh : 4 ≤ pin.toNat % 8
  · rw [if_pos hhigh]
    omega
  · rw [if_neg hhigh]
    omega

theorem getLsbD_three (k : Nat) : (0b11#8).getLsbD k = decide (k < 2) := by
  by_cases hk : k < 8
  · have hbits : ∀ k < 8, (0b11#8).getLsbD k = decide (k < 2) := by decide
    exact hbits k hk
  · rw [BitVec.getLsbD_of_ge _ k (by omega), decide_eq_false (by omega)]

/-- The mask of a 2-bit field has exactly the two bits of the field. -/
theorem getLsbD_fieldMask (sh b : Nat) (hb : b < 8) :
    (0b11#8 <<< sh).getLsbD b = decide (sh ≤ b ∧ b < sh + 2) := by
  rw [BitVec.getLsbD_shiftLeft, getLsbD_three]
  grind

/-- Bit b of a byte with a level put in: inside the pin's field the level's, elsewhere the old one (R250). -/
theorem getLsbD_putLevel (old pin : Byte) (l : BitVec 2) (b : Nat) (hb : b < 8) :
    (putLevel old pin l).getLsbD b =
      if driveShift pin ≤ b ∧ b < driveShift pin + 2 then l.getLsbD (b - driveShift pin) else old.getLsbD b := by
  have hl : 2 ≤ b - driveShift pin → l.getLsbD (b - driveShift pin) = false := BitVec.getLsbD_of_ge l _
  rw [putLevel, BitVec.getLsbD_or, BitVec.getLsbD_and, BitVec.getLsbD_not, getLsbD_fieldMask _ _ hb,
    BitVec.getLsbD_shiftLeft, BitVec.getLsbD_setWidth]
  grind

/-- A level put into a pin's field is read back from it (R253). -/
theorem getLevel_putLevel (old pin : Byte) (l : BitVec 2) : getLevel (putLevel old pin l) pin = l.setWidth 16 := by
  have hfield : driveShift pin + 2 ≤ 8 := by
    rw [driveShift]
    omega
  refine BitVec.eq_of_getLsbD_eq fun k hk => ?_
  rw [getLevel, BitVec.getLsbD_setWidth, BitVec.getLsbD_setWidth, BitVec.getLsbD_and, BitVec.getLsbD_ushiftRight,
    getLsbD_three]
  by_cases hk2 : k < 2
  · rw [getLsbD_putLevel _ _ _ _ (by omega), if_pos (by omega), Nat.add_sub_cancel_left]
    simp [hk2]
  · rw [BitVec.getLsbD_of_ge l k (by omega)]
    simp [hk2]

/-- The bits outside the pin's field are kept (R250, R253). -/
theorem getLsbD_putLevel_other {old pin : Byte} {l : BitVec 2} {b : Nat} (hb : b < 8) (hpin : b / 2 ≠ pin.toNat % 4) :
    (putLevel old pin l).getLsbD b = old.getLsbD b := by
  rw [getLsbD_putLevel _ _ _ _ hb, driveShift, if_neg (by omega)]

/-- The element with its value inverted (R260, R261). -/
def invertElem (e : PinBit) : PinBit := ⟨e.pin, !e.v⟩

theorem getLsbD_shiftedValue (v : Bool) (n k : Nat) :
    ((BitVec.ofBool v).setWidth 16 <<< n).getLsbD k = (v && (1#16 <<< n).getLsbD k) := by
  cases v with
  | false =>
    rw [show (BitVec.ofBool false).setWidth 16 = 0#16 from rfl, BitVec.zero_shiftLeft, BitVec.getLsbD_zero,
      Bool.false_and]
  | true => rfl

/-- Inverting an element inverts the values inside the mask. -/
theorem listStep_invertElem (mv : Half × Half) (e : PinBit) :
    listStep (mv.1, ~~~mv.2 &&& mv.1) (invertElem e) =
      ((listStep mv e).1, ~~~(listStep mv e).2 &&& (listStep mv e).1) := by
  refine Prod.ext rfl (BitVec.eq_of_getLsbD_eq fun k hk => ?_)
  simp only [listStep, invertElem, getLsbD_shiftedValue, BitVec.getLsbD_or, BitVec.getLsbD_and, BitVec.getLsbD_not, hk,
    decide_true, Bool.true_and]
  cases e.v <;> cases (1#16 <<< e.pin.toNat).getLsbD k <;> simp

theorem foldl_listStep_invertElem (es : List PinBit) (mv : Half × Half) :
    (es.map invertElem).foldl listStep (mv.1, ~~~mv.2 &&& mv.1) =
      ((es.foldl listStep mv).1, ~~~(es.foldl listStep mv).2 &&& (es.foldl listStep mv).1) := by
  induction es generalizing mv with
  | nil => rfl
  | cons e es ih => rw [List.map_cons, List.foldl_cons, List.foldl_cons, listStep_invertElem, ih]

/-- The operands of INTCFGL's merge are `ListMV` of the inverted list (R261). -/
theorem listMV_map_invertElem (es : List PinBit) :
    listMV (es.map invertElem) = ((listMV es).1, ~~~(listMV es).2 &&& (listMV es).1) :=
  foldl_listStep_invertElem es (0#16, 0#16)

/-- INTCFGL's merge puts the inverted elements one by one, in list order. -/
theorem mergeMask_inverted (old : Half) (es : List PinBit) :
    mergeMask old (listMV es).1 (~~~(listMV es).2 &&& (listMV es).1) =
      es.foldl (fun w e => putElem w (invertElem e)) old := by
  have hmerge := mergeMask_listMV old (es.map invertElem)
  rwa [listMV_map_invertElem, List.foldl_map] at hmerge

/-- The registers of a list in the pins' groups of four (R251 `A`). -/
theorem affectedDrives_eq (es : List PinLevel) :
    affectedDrives es = [0, 1, 2, 3].filter fun q => es.any fun e => e.pin.toNat / 4 == q := by
  simp only [affectedDrives, driveIndex_eq]

theorem applyLevels_eq (q : Nat) (es : List PinLevel) (old : Byte) :
    applyLevels q es old = es.foldl (fun b e => if e.pin.toNat / 4 = q then putLevel b e.pin e.v else b) old := by
  simp only [applyLevels, driveIndex_eq]

/-- The writes for the bytes read, one register an entry (R251). -/
theorem driveWrites_zipWith (m : RegMap) (es : List PinLevel) (qs : List Nat) (ms : List (Nat × Byte)) :
    driveWrites m es (List.zipWith (fun q x => (q, x.2)) qs ms) =
      List.zipWith (fun q x => (driveAt m q, applyLevels q es x.2)) qs ms := by
  rw [driveWrites, List.map_zipWith]

end Sys2Proof.Proofs

namespace Sys2Proof.Proofs

open Sys2Proof.Machine Sys2Proof.Laws

/-! ### The extended-bank commands (42_extended_bank R240 to R270) -/

/-- On an initialised ExtendedCapable block a command of the extended bank runs its body (40_control R150). -/
theorem runsBody_extended {i : Instr} {s : State} (hx : extendedCommand i = true) (hw : i.wf = true)
    (hp : PinsValid (namedPins i)) (hi : s.init = true) (hv : s.variant = .extendedCapable) :
    RunsBody i s (flagsMask (attr i).clear) (bodyOf i) :=
  runsBody_bodyOf (lazyCommand_of_extended hx) hw hp hi (.inr hv)

/-- Settles O32: the four bodies are `pinModifyBody`, INTCFG's with the operand inverted. -/
theorem extendedPinCommands : Obligations.ExtendedPinCommands := by
  intro s pin v hi hv hpin
  have hp := pinsValid_singleton hpin
  refine ⟨?_, ?_, ?_, ?_⟩
  · exact modifyCommand_of_pinModifyBody rfl rfl (runsBody_extended (i := .puen pin v) rfl rfl hp hi hv)
  · exact modifyCommand_of_pinModifyBody rfl rfl (runsBody_extended (i := .pusel pin v) rfl rfl hp hi hv)
  · exact modifyCommand_of_pinModifyBody rfl rfl (runsBody_extended (i := .latch pin v) rfl rfl hp hi hv)
  · exact modifyCommand_of_pinModifyBody rfl rfl (runsBody_extended (i := .intcfg pin v) rfl rfl hp hi hv)

/-- Settles O33: the three bodies are `maskModifyBody`, on three pairs. -/
theorem extendedMaskCommands : Obligations.ExtendedMaskCommands := by
  intro s mask v hi hv
  refine ⟨?_, ?_, ?_⟩
  · exact pairModifyCommand_of_maskModifyBody rfl rfl
      (runsBody_extended (i := .puenm mask v) rfl rfl pinsValid_nil hi hv)
  · exact pairModifyCommand_of_maskModifyBody rfl rfl
      (runsBody_extended (i := .puselm mask v) rfl rfl pinsValid_nil hi hv)
  · exact pairModifyCommand_of_maskModifyBody rfl rfl
      (runsBody_extended (i := .latchm mask v) rfl rfl pinsValid_nil hi hv)

/-- INTCFGL modifies the mask pair by its list inverted (R261). -/
theorem intcfgl_modifies {s : State} {es : List PinBit} (hlen : es.length ≤ maxList)
    (hp : PinsValid (es.map fun e => e.pin)) (hi : s.init = true) (hv : s.variant = .extendedCapable) :
    PairModifyCommand (.intcfgl es) s s.regMap.intMask
      (fun old => es.foldl (fun w e => putElem w (invertElem e)) old) 0x001D#16 := by
  simp only [← mergeMask_inverted]
  have hruns := runsBody_extended (i := .intcfgl es) rfl (decide_eq_true hlen) hp hi hv
  exact pairModifyCommand_of_body rfl rfl (hruns.congr rfl)

/-- Settles O34: three bodies are `listBody`; the fourth merges the inverted list. -/
theorem extendedListCommands : Obligations.ExtendedListCommands := by
  intro s es hi hv hlen hp
  have hwf : decide (es.length ≤ maxList) = true := decide_eq_true hlen
  refine ⟨?_, ?_, ?_, ?_⟩
  · exact pairModifyCommand_of_listBody rfl rfl (runsBody_extended (i := .puenl es) rfl hwf hp hi hv)
  · exact pairModifyCommand_of_listBody rfl rfl (runsBody_extended (i := .pusell es) rfl hwf hp hi hv)
  · exact pairModifyCommand_of_listBody rfl rfl (runsBody_extended (i := .latchl es) rfl hwf hp hi hv)
  · exact intcfgl_modifies hlen hp hi hv

/-- Settles O35: the register and the field are those of R236. -/
theorem driveStrengthCommands : Obligations.DriveStrengthCommands := by
  intro s pin l hi hv hpin
  have hp := pinsValid_singleton hpin
  rw [← driveIndex_eq]
  refine ⟨?_, ?_⟩
  · have hruns := runsBody_extended (i := .drv pin l) rfl rfl hp hi hv
    exact modifyCommand_of_body (f := fun old => putLevel old pin l) rfl rfl (hruns.congr rfl)
  · have hruns := runsBody_extended (i := .drvget pin) rfl rfl hp hi hv
    exact readCommand_of_body (value := fun b => getLevel b pin) rfl (hruns.congr rfl)

/-- Settles O36: the success clauses of `driveStrengthCommands`, one on the state the other left, and the field reads
back as it was put. -/
theorem driveStrengthRoundTrip : Obligations.DriveStrengthRoundTrip := by
  intro s pin old a l j k j' rest hi hv hpin n reg sh new hj hk hj' hs
  have hset := (driveStrengthCommands s pin l hi hv hpin).1.1 j old k a (okAnswers j' new ++ rest) hj hk
    (by simpa only [List.append_assoc] using hs)
  refine ⟨_, _, hset, (driveStrengthCommands _ pin l ?_ ?_ hpin).2.1 j' new rest ?_ ?_, ?_, ?_, ?_, ?_⟩
  · exact hi
  · exact hv
  · exact hj'
  · rfl
  · rfl
  · exact congrArg (fun v => some (Response.mk true v)) (getLevel_putLevel old pin l)
  · rfl
  · exact fun b hb hpin => getLsbD_putLevel_other hb hpin

/-! DRVL: all its reads, then all its writes (R251). -/

theorem drvlBody_of_readFail {es : List PinLevel} {s t : State}
    (h : readDrives s.regMap (affectedDrives es) s = .ok none t) : drvlBody es s = .ok Response.failed t := by
  rw [drvlBody, get_bind, bind_ok h]
  rfl

theorem drvlBody_of_read {es : List PinLevel} {s t : State} {bs : List (Nat × Byte)}
    (h : readDrives s.regMap (affectedDrives es) s = .ok (some bs) t) :
    drvlBody es s = reportOk (writeSeq (driveWrites s.regMap es bs)) t := by
  rw [drvlBody, get_bind, bind_ok h]

/-- The reads of DRVL succeed, and what is left of the command is its write sequence. -/
theorem drvlBody_entered {es : List PinLevel} {s : State} {ms : List (Nat × Byte)} {rest : List Answer}
    (hl : ms.length = (affectedDrives es).length) (hm : RunWithin s.retries.toNat ms)
    (hs : s.script = okRun ms ++ rest) :
    drvlBody es (entered s 0x001D#16) =
      reportOk (writeSeq (List.zipWith (fun q x => (driveAt s.regMap q, applyLevels q es x.2)) (affectedDrives es) ms))
        (pairWasRead s 0x001D#16 (readRun s.addr ((affectedDrives es).map fun q => driveAt s.regMap q) ms) rest) := by
  have hclear := cleared_after_mask s.err 0x001D#16 .readFail rfl
  rw [← driveWrites_zipWith]
  exact drvlBody_of_read (readDrives_ok s.regMap _ ms rest (entered s 0x001D#16) hl hm hs hclear)

/-- Settles O37: the reads of `readDrives`, and after them the write sequence, on each script. -/
theorem driveStrengthListCommand : Obligations.DriveStrengthListCommand := by
  intro s es hi hv hlen hp n e qs regs byte writes
  have hruns : RunsBody (.drvl es) s 0x001D#16 (drvlBody es) :=
    runsBody_extended rfl (decide_eq_true hlen) hp hi hv
  have hclearR : cleared e .readFail = e := cleared_after_mask s.err 0x001D#16 .readFail rfl
  have hclearW : cleared e .writeFail = e := cleared_after_mask s.err 0x001D#16 .writeFail rfl
  have hread := @drvlBody_entered es s
  simp only [affectedDrives_eq, applyLevels_eq] at hread
  refine ⟨fun ms ks rest hl hl' hm hk hs => ?_, fun before r after ms rest hregs hl hm hs => ?_,
    fun ms before r b after ks rest hl hm hw hl' hk hs => ?_⟩
  · have hlen' : ks.length = (writes ms).length := by simp [writes, hl, hl']
    rw [List.append_assoc] at hs
    have hdone := writeSeq_ok (writes ms) ks rest (pairWasRead s 0x001D#16 (readRun s.addr regs ms) (okRun ks ++ rest))
      hlen' hk rfl hclearW
    rw [hruns _ _ ((hread hl hm hs).trans (reportOk_ok hdone))]
    simp only [pairWasRead, List.append_assoc]
    rfl
  · have hstop := readDrives_fail s.regMap qs before after r ms rest (entered s 0x001D#16) hregs hl hm hs hclearR
    rw [← show affectedDrives es = qs from affectedDrives_eq es] at hstop
    exact hruns _ _ (drvlBody_of_readFail hstop)
  · rw [List.append_assoc, List.append_assoc] at hs
    have hstop := writeSeq_fail before after r b ks rest
      (pairWasRead s 0x001D#16 (readRun s.addr regs ms) (okRun ks ++ (failAnswers n ++ rest))) hl' hk
      (List.append_assoc ..).symm hclearW
    rw [← hw] at hstop
    rw [hruns _ _ ((hread hl hm hs).trans (reportOk_ok hstop))]
    simp only [pairWasRead, List.append_assoc]
    rfl

/-! Commands that only write (R262, R270). -/

/-- A body that writes both registers of a pair (20_memory R69). -/
theorem pairWriteCommand_of_body {i : Instr} {s : State} {clears : Half} {pair : RegPair} {v : Half}
    (hw : flagMask .writeFail &&& clears = flagMask .writeFail)
    (h : RunsBody i s clears (reportOk (dualWrite pair v))) : PairWriteCommand i s pair v clears := by
  have hclear := cleared_after_mask s.err clears .writeFail hw
  refine ⟨fun k0 x0 k1 x1 rest h0 h1 hs => ?_, fun rest hs => ?_, fun k0 x0 rest h0 hs => ?_⟩
  · rw [h _ _ (reportOk_ok (dualWrite_ok (s := entered s clears) h0 h1 hs))]
    simp only [entered, hclear]
    rfl
  · exact h _ _ (reportOk_ok (dualWrite_fail0 (s := entered s clears) hs))
  · rw [h _ _ (reportOk_ok (dualWrite_fail1 (s := entered s clears) h0 hs))]
    simp only [entered, hclear]
    rfl

/-- Settles O38. -/
theorem interruptMaskCommand : Obligations.InterruptMaskCommand := by
  intro s m hi hv
  have hruns := runsBody_extended (i := .intmask m) rfl rfl pinsValid_nil hi hv
  exact pairWriteCommand_of_body rfl (hruns.congr rfl)

/-- Settles O39: the value read is returned as it is. -/
theorem interruptStatusCommand : Obligations.InterruptStatusCommand := by
  intro s hi hv
  have hruns := runsBody_extended (i := .intstat) rfl rfl pinsValid_nil hi hv
  refine pairReadCommand_of_body rfl (hruns.congr ?_)
  simp only [reportValue, Option.map_id']
  rfl

/-- The output-configuration byte by its two bits (R270). -/
theorem omodeByte_eq (od0 od1 : Bool) :
    omodeByte od0 od1 = (if od0 then 0x01#8 else 0x00#8) ||| (if od1 then 0x02#8 else 0x00#8) := by
  revert od0 od1
  decide

/-- Settles O40: one write transaction on each script. -/
theorem outputModeCommand : Obligations.OutputModeCommand := by
  intro s od0 od1 hi hv n e b
  have hruns : RunsBody (.omode od0 od1) s 0x0018#16 (reportOk (writeReg s.regMap.outConf b)) := by
    have hbyte : omodeByte od0 od1 = b := omodeByte_eq od0 od1
    rw [← hbyte]
    exact (runsBody_extended (i := .omode od0 od1) rfl rfl pinsValid_nil hi hv).congr rfl
  have hclear : cleared e .writeFail = e := cleared_after_mask s.err 0x0018#16 .writeFail rfl
  refine ⟨fun k x rest hk hs => ?_, fun rest hs => ?_⟩
  · rw [hruns _ _ (reportOk_ok (writeReg_ok (s := entered s 0x0018#16) hk hs))]
    simp only [entered, e, hclear]
    rfl
  · exact hruns _ _ (reportOk_ok (writeReg_fail (s := entered s 0x0018#16) hs))

end Sys2Proof.Proofs

namespace Sys2Proof.Proofs

open Sys2Proof.Machine Sys2Proof.Laws

/-! ### The events of one dispatch (43_interrupt_dispatch R303, R304) -/

/-- The change of a pin's level, from `prev` to `cur`, is one that the edge asks for (R303). -/
def EdgeSeen (e : Edge) (prev cur : Bool) : Prop :=
  match e with
  | .rising => prev = false ∧ cur = true
  | .falling => prev = true ∧ cur = false
  | .both => (prev = false ∧ cur = true) ∨ (prev = true ∧ cur = false)

theorem edgeMatches_iff (e : Edge) (prev cur : Bool) :
    edgeMatches e (!prev && cur) (prev && !cur) = true ↔ EdgeSeen e prev cur := by
  cases e <;> simp [edgeMatches, EdgeSeen]

/-- No edge is seen on a level that did not change (R304). -/
theorem EdgeSeen.changed {e : Edge} {prev cur : Bool} (h : EdgeSeen e prev cur) : prev ≠ cur := by
  rintro rfl
  cases e <;> simp [EdgeSeen] at h

/-- When a pin has an event in a dispatch, and which one it is (R303). -/
theorem pinEvent_eq_some_iff {cbt : Vector CbEntry 16} {st prev cur : Half} {p : Fin 16} {ev : CbEvent} :
    pinEvent cbt st prev cur p = some ev ↔
      st.getLsbD p.val = true ∧ cbt[p].reg = true ∧ EdgeSeen cbt[p].edge (prev.getLsbD p.val) (cur.getLsbD p.val) ∧
      ev = .pinCB cbt[p].id (BitVec.ofNat 4 p.val) (cur.getLsbD p.val) := by
  rw [← edgeMatches_iff, BitVec.ofNat_finVal, pinEvent]
  simp only [Option.ite_none_right_eq_some, Bool.and_eq_true, Option.some.injEq, and_assoc, eq_comm (a := ev)]

theorem eventPin_of_pinEvent {cbt : Vector CbEntry 16} {st prev cur : Half} {p : Fin 16} {ev : CbEvent}
    (h : pinEvent cbt st prev cur p = some ev) : eventPin ev = some (BitVec.ofNat 4 p.val) := by
  obtain ⟨-, -, -, rfl⟩ := pinEvent_eq_some_iff.1 h
  rfl

theorem globalEvent_eq (gcb : Byte) (st : Half) :
    globalEvent gcb st = if gcb = 0#8 then [] else [.globalCB gcb st] := by
  rw [globalEvent, ite_not]

/-- An event of a dispatch that names a pin is the event of that pin. -/
theorem pinEvent_of_mem_dispatchEvents {s : State} {st cur : Half} {p : Fin 16} {ev : CbEvent}
    (h : ev ∈ dispatchEvents s st cur) (hp : eventPin ev = some (BitVec.ofNat 4 p.val)) :
    pinEvent s.cbt st s.snap cur p = some ev := by
  rw [dispatchEvents, List.mem_append, List.mem_filterMap] at h
  rcases h with hglobal | ⟨q, -, hq⟩
  · have hev : ev = .globalCB s.gcb st := by
      rw [globalEvent_eq] at hglobal
      split at hglobal
      · cases hglobal
      · exact List.mem_singleton.1 hglobal
    rw [hev] at hp
    cases hp
  · have hpq : BitVec.ofNat 4 q.val = BitVec.ofNat 4 p.val := Option.some.inj ((eventPin_of_pinEvent hq).symm.trans hp)
    obtain rfl : q = p := by
      simpa only [BitVec.ofNat_finVal, BitVec.ofFin.injEq] using hpq
    exact hq

/-- With an empty status mask only the global callback is invoked. -/
theorem dispatchEvents_zero (s : State) (cur : Half) :
    dispatchEvents s 0#16 cur = if s.gcb = 0#8 then [] else [.globalCB s.gcb 0#16] := by
  have hnone : (List.finRange 16).filterMap (pinEvent s.cbt 0#16 s.snap cur) = [] := by
    refine List.filterMap_eq_nil_iff.2 fun p _ => Option.eq_none_iff_forall_ne_some.2 fun ev hev => ?_
    obtain ⟨hflag, -⟩ := pinEvent_eq_some_iff.1 hev
    simp at hflag
  rw [dispatchEvents, hnone, List.append_nil, globalEvent_eq]

/-- Settles O45: the per-pin events are those of `pinEvent` over the pins in ascending order. -/
theorem dispatchEventsFollowTheEdgeRules : Obligations.DispatchEventsFollowTheEdgeRules := by
  intro s st cur
  refine ⟨(List.finRange 16).filterMap (pinEvent s.cbt st s.snap cur), ?_, fun ev => ?_, ?_, ?_⟩
  · rw [dispatchEvents, globalEvent_eq]
  · simp only [List.mem_filterMap, List.mem_finRange, true_and, pinEvent_eq_some_iff]
    exact Iff.rfl
  · rw [List.pairwise_filterMap, List.pairwise_filterMap]
    refine (List.pairwise_lt_finRange 16).imp fun {p q} hpq ev hev ev' hev' a ha b hb => ?_
    rw [eventPin_of_pinEvent hev, Option.some.injEq] at ha
    rw [eventPin_of_pinEvent hev', Option.some.injEq] at hb
    rw [← ha, ← hb, BitVec.ofNat_finVal, BitVec.ofNat_finVal]
    exact hpq
  · refine List.filterMap_length_eq_length.2 fun ev hev => ?_
    obtain ⟨p, -, hp⟩ := List.mem_filterMap.1 hev
    rw [eventPin_of_pinEvent hp]
    rfl

end Sys2Proof.Proofs

namespace Sys2Proof.Proofs

open Sys2Proof.Machine Sys2Proof.Laws

/-! ### A pair read at the start of a body (20_memory R68, 40_control R130) -/

/-- The state after a read of a pair that failed: the events, and I2CReadFail raised after the entry clear. -/
def pairReadLost (s : State) (clears : Half) (evs : List BusEvent) (rest : List Answer) : State :=
  { s with err := (s.err &&& ~~~clears) ||| 0x0004#16, history := s.history ++ evs, script := rest }

section

variable {s : State} {clears : Half} {pair : RegPair} {b0 b1 : Byte} {j0 j1 : Nat} {rest : List Answer}

theorem dualRead_entered_ok (hr : flagMask .readFail &&& clears = flagMask .readFail) (h0 : j0 ≤ s.retries.toNat)
    (h1 : j1 ≤ s.retries.toNat) (hs : s.script = okAnswers j0 b0 ++ okAnswers j1 b1 ++ rest) :
    dualRead pair (entered s clears) = .ok (some (b1 ++ b0))
      (pairWasRead s clears (readOk s.addr pair.port0 j0 b0 ++ readOk s.addr pair.port1 j1 b1) rest) := by
  rw [dualRead_ok (s := entered s clears) h0 h1 hs]
  simp only [entered, pairWasRead, cleared_after_mask s.err clears .readFail hr]

theorem dualRead_entered_fail0 (hs : s.script = failAnswers s.retries.toNat ++ rest) :
    dualRead pair (entered s clears) = .ok none
      (pairReadLost s clears (readFailed s.addr pair.port0 s.retries.toNat) rest) :=
  dualRead_fail0 (s := entered s clears) hs

theorem dualRead_entered_fail1 (hr : flagMask .readFail &&& clears = flagMask .readFail) (h0 : j0 ≤ s.retries.toNat)
    (hs : s.script = okAnswers j0 b0 ++ failAnswers s.retries.toNat ++ rest) :
    dualRead pair (entered s clears) = .ok none
      (pairReadLost s clears (readOk s.addr pair.port0 j0 b0 ++ readFailed s.addr pair.port1 s.retries.toNat)
        rest) := by
  rw [dualRead_fail1 (s := entered s clears) h0 hs]
  simp only [entered, pairReadLost, cleared_after_mask s.err clears .readFail hr]
  rfl

end

/-! ### The callback table (43_interrupt_dispatch R290, R292) -/

theorem setCallback_eq {s : State} {pin : Byte} {e : CbEntry} (h : pin.toNat < 16) :
    s.setCallback pin e = { s with cbt := s.cbt.set pin.toNat e h } := by
  simp only [State.setCallback, Vector.setIfInBounds, Vector.set, Array.setIfInBounds, Vector.size_toArray, h,
    dite_true]

theorem cbregBody_of_readFail {pin id : Byte} {edge : Edge} {s t : State}
    (h : dualRead s.regMap.input (s.setCallback pin ⟨true, id, edge⟩) = .ok none t) :
    cbregBody pin id edge s = .ok (Response.done false) t := by
  rw [cbregBody, modify_bind, get_bind]
  exact bind_ok h

theorem cbregBody_of_read {pin id : Byte} {edge : Edge} {s t : State} {cur : Half}
    (h : dualRead s.regMap.input (s.setCallback pin ⟨true, id, edge⟩) = .ok (some cur) t) :
    cbregBody pin id edge s = .ok (Response.done true) (t.setSnap cur) := by
  rw [cbregBody, modify_bind, get_bind]
  exact bind_ok h

/-- The state with the entry that CBREG stores. -/
def registered (s : State) (pin id : Byte) (edge : Edge) (h : pin.toNat < 16) : State :=
  { s with cbt := s.cbt.set pin.toNat ⟨true, id, edge⟩ h }

theorem setCallback_entered {s : State} {clears : Half} {pin id : Byte} {edge : Edge} (hpin : pin.toNat < 16) :
    (entered s clears).setCallback pin ⟨true, id, edge⟩ = entered (registered s pin id edge hpin) clears :=
  setCallback_eq hpin

section

variable {s t : State} {pin id : Byte} {edge : Edge} (hpin : pin.toNat < 16) (hi : s.init = true) (hid : id ≠ 0#8)

include hpin hi hid

theorem cbreg_runs : RunsBody (.cbreg pin id edge) s 0x0005#16 (cbregBody pin id edge) :=
  runsBody_standard (i := .cbreg pin id edge) rfl rfl (decide_eq_true hid) (pinsValid_singleton hpin) hi

theorem exec_cbreg_of_readFail
    (h : dualRead s.regMap.input (entered (registered s pin id edge hpin) 0x0005#16) = .ok none t) :
    exec (.cbreg pin id edge) s = .next (t.respond false 0x0000#16) := by
  rw [← setCallback_entered] at h
  exact cbreg_runs hpin hi hid _ _ (cbregBody_of_readFail h)

theorem exec_cbreg_of_read {cur : Half}
    (h : dualRead s.regMap.input (entered (registered s pin id edge hpin) 0x0005#16) = .ok (some cur) t) :
    exec (.cbreg pin id edge) s = .next ((t.setSnap cur).respond true 0x0000#16) := by
  rw [← setCallback_entered] at h
  exact cbreg_runs hpin hi hid _ _ (cbregBody_of_read h)

end

/-- Settles O41: the read of the input pair from the state that holds the entry, on each script. -/
theorem registerCallbackOutcomes : Obligations.RegisterCallbackOutcomes := by
  intro s pin id edge hpin hi hid
  refine ⟨fun j0 b0 j1 b1 rest h0 h1 hs => ?_, fun rest hs => ?_, fun j0 b0 rest h0 hs => ?_⟩
  · rw [exec_cbreg_of_read hpin hi hid (dualRead_entered_ok (s := registered ..) rfl h0 h1 hs)]
    rfl
  · rw [exec_cbreg_of_readFail hpin hi hid (dualRead_entered_fail0 (s := registered ..) hs)]
    rfl
  · rw [exec_cbreg_of_readFail hpin hi hid (dualRead_entered_fail1 (s := registered ..) rfl h0 hs)]
    rfl

theorem exec_cbunreg {s : State} {pin : Byte} (hpin : pin.toNat < 16) :
    exec (.cbunreg pin) s =
      .next (((s.clearFlags [.invalidPin]).setCallback pin CbEntry.empty).respond true 0x0000#16) :=
  exec_of_body (i := .cbunreg pin) (r := Response.done true) rfl (pinsValid_singleton hpin) rfl (.inl rfl) (.inl rfl)
    rfl

/-- Settles O42: the body writes the entry, and the frame clears InvalidPin before it. -/
theorem unregisterCallbackEmptiesTheEntry : Obligations.UnregisterCallbackEmptiesTheEntry := by
  refine ⟨fun pin => ?_, fun s pin hpin => ?_⟩
  · exact congrArg (fun w => [w]) (BitVec.append_assoc (x₁ := 0x41#8 ++ pin) (x₂ := 0#14) (x₃ := 0#2))
  · rw [exec_cbunreg hpin, setCallback_eq hpin]
    rfl

end Sys2Proof.Proofs

namespace Sys2Proof.Proofs

open Sys2Proof.Machine Sys2Proof.Laws

/-! ### HANDLE on a given script (43_interrupt_dispatch R300, R301, R302, R305, R306) -/

/-- On the software path the input pair gives both the levels and, by comparison, the status mask (R301). -/
theorem handleReads_software {s : State} (hv : s.variant ≠ .extendedCapable) :
    handleReads s =
      (do pure ((← dualRead s.regMap.input).map fun cur => (cur ^^^ s.snap, cur)) : Eff (Option (Half × Half))) s := by
  rw [handleReads, get_bind, if_neg hv]
  refine congrFun (bind_congr fun r => ?_) s
  cases r <;> rfl

/-- On ExtendedCapable the input pair is read after the status pair succeeded (R302). -/
theorem handleReads_extended {s t : State} {st : Half} (hv : s.variant = .extendedCapable)
    (h : dualRead s.regMap.intStatus s = .ok (some st) t) :
    handleReads s =
      (do pure ((← dualRead s.regMap.input).map fun cur => (st, cur)) : Eff (Option (Half × Half))) t := by
  rw [handleReads, get_bind, if_pos hv, bind_ok h]
  refine congrFun (bind_congr fun r => ?_) t
  cases r <;> rfl

theorem handleReads_statusFail {s t : State} (hv : s.variant = .extendedCapable)
    (h : dualRead s.regMap.intStatus s = .ok none t) : handleReads s = .ok none t := by
  rw [handleReads, get_bind, if_pos hv]
  exact bind_ok h

theorem handleBody_of_hang {s t : State} {e : Unit} (h : handleReads s = .error e t) : handleBody s = .error e t := by
  rw [handleBody]
  exact bind_error h

theorem handleBody_of_readFail {s t : State} (h : handleReads s = .ok none t) :
    handleBody s = .ok Response.failed t := by
  rw [handleBody]
  exact bind_ok h

theorem handleBody_of_read {s t : State} {st cur : Half} (h : handleReads s = .ok (some (st, cur)) t) :
    handleBody s = .ok ⟨true, st⟩ (t.dispatch st cur) := by
  rw [handleBody]
  exact bind_ok h

section

variable {s t : State} (hi : s.init = true)

include hi

/-- HANDLE whose reads fail dispatches nothing (R306). -/
theorem exec_handle_of_readFail (h : handleReads (entered s 0x0004#16) = .ok none t) :
    exec .handle s = .next (t.respond false 0x0000#16) :=
  runsBody_standard (i := .handle) rfl rfl rfl pinsValid_nil hi _ _ (handleBody_of_readFail h)

/-- HANDLE whose reads succeed dispatches and returns the status mask (R300). -/
theorem exec_handle_of_read {st cur : Half} (h : handleReads (entered s 0x0004#16) = .ok (some (st, cur)) t) :
    exec .handle s = .next ((t.dispatch st cur).respond true st) :=
  runsBody_standard (i := .handle) rfl rfl rfl pinsValid_nil hi _ _ (handleBody_of_read h)

end

/-- Settles O43: the read of the input pair on each script. -/
theorem handleOnTheSoftwarePath : Obligations.HandleOnTheSoftwarePath := by
  intro s hi hv
  have hreads := handleReads_software (s := entered s 0x0004#16) hv
  refine ⟨fun j0 b0 j1 b1 rest h0 h1 hs => ?_, fun rest hs => ?_, fun j0 b0 rest h0 hs => ?_⟩
  · rw [exec_handle_of_read hi (hreads.trans (bind_ok (dualRead_entered_ok rfl h0 h1 hs)))]
    rfl
  · rw [exec_handle_of_readFail hi (hreads.trans (bind_ok (dualRead_entered_fail0 hs)))]
    rfl
  · rw [exec_handle_of_readFail hi (hreads.trans (bind_ok (dualRead_entered_fail1 rfl h0 hs)))]
    rfl

/-- The state in which HANDLE reads the input pair on ExtendedCapable: the status pair is read. -/
def statusWasRead (s : State) (i0 : Nat) (c0 : Byte) (i1 : Nat) (c1 : Byte) (rest : List Answer) : State :=
  { s with
    history := s.history ++
      (readOk s.addr s.regMap.intStatus.port0 i0 c0 ++ readOk s.addr s.regMap.intStatus.port1 i1 c1)
    script := rest }

/-- The status pair is read, and what is left of HANDLE's reads is the input pair. -/
theorem handleReads_statusOk {s : State} {c0 c1 : Byte} {i0 i1 : Nat} {rest : List Answer}
    (hv : s.variant = .extendedCapable) (h0 : i0 ≤ s.retries.toNat) (h1 : i1 ≤ s.retries.toNat)
    (hs : s.script = okAnswers i0 c0 ++ okAnswers i1 c1 ++ rest) :
    handleReads (entered s 0x0004#16) =
      (do pure ((← dualRead s.regMap.input).map fun cur => (c1 ++ c0, cur)) : Eff (Option (Half × Half)))
        (entered (statusWasRead s i0 c0 i1 c1 rest) 0x0004#16) :=
  handleReads_extended (s := entered s 0x0004#16) hv (dualRead_entered_ok rfl h0 h1 hs)

/-- Settles O44: the reads of the status pair and then of the input pair, on each script. -/
theorem handleOnTheExtendedPath : Obligations.HandleOnTheExtendedPath := by
  intro s hi hv n e in0 in1 st0 st1 status
  refine ⟨fun i0 c0 i1 c1 j0 b0 j1 b1 rest hi0 hi1 hj0 hj1 hs => ?_, fun rest hs => ?_, fun i0 c0 rest hi0 hs => ?_,
    fun i0 c0 i1 c1 rest hi0 hi1 hs => ?_, fun i0 c0 i1 c1 j0 b0 rest hi0 hi1 hj0 hs => ?_⟩
  · have hstatus := handleReads_statusOk (rest := okAnswers j0 b0 ++ okAnswers j1 b1 ++ rest) hv hi0 hi1
      (by simpa only [List.append_assoc] using hs)
    rw [exec_handle_of_read hi (hstatus.trans (bind_ok (dualRead_entered_ok (s := statusWasRead ..) rfl hj0 hj1 rfl)))]
    simp only [pairWasRead, entered, statusWasRead, status, List.append_assoc]
    rfl
  · rw [exec_handle_of_readFail hi (handleReads_statusFail hv (dualRead_entered_fail0 hs))]
    rfl
  · rw [exec_handle_of_readFail hi (handleReads_statusFail hv (dualRead_entered_fail1 rfl hi0 hs))]
    rfl
  · have hstatus := handleReads_statusOk (rest := failAnswers n ++ rest) hv hi0 hi1
      (by simpa only [List.append_assoc] using hs)
    rw [exec_handle_of_readFail hi (hstatus.trans (bind_ok (dualRead_entered_fail0 (s := statusWasRead ..) rfl)))]
    simp only [pairReadLost, statusWasRead, status, List.append_assoc]
    rfl
  · have hstatus := handleReads_statusOk (rest := okAnswers j0 b0 ++ failAnswers n ++ rest) hv hi0 hi1
      (by simpa only [List.append_assoc] using hs)
    rw [exec_handle_of_readFail hi
      (hstatus.trans (bind_ok (dualRead_entered_fail1 (s := statusWasRead ..) rfl hj0 rfl)))]
    simp only [pairReadLost, statusWasRead, status, List.append_assoc]
    rfl

/-- Settles O48: the success clause of `registerCallbackOutcomes`, then that of `handleOnTheSoftwarePath` with the
levels that stand in the snapshot, so the status mask is empty. -/
theorem refreshedSnapshotGivesNoSpuriousEdge : Obligations.RefreshedSnapshotGivesNoSpuriousEdge := by
  intro s pin id b0 b1 edge j k j' k' rest hi hv hpin hid n hj hk hj' hk' hs
  have hreg := (registerCallbackOutcomes s pin id edge hpin hi hid).1 j b0 k b1
    (okAnswers j' b0 ++ okAnswers k' b1 ++ rest) hj hk (by simpa only [List.append_assoc] using hs)
  refine ⟨_, _, hreg, (handleOnTheSoftwarePath _ ?_ ?_).1 j' b0 k' b1 rest ?_ ?_ ?_, ?_, ?_, ?_⟩
  · exact hi
  · exact hv
  · exact hj'
  · exact hk'
  · rfl
  · have hmask : (b1 ++ b0 : Half) ^^^ (b1 ++ b0) = 0#16 := BitVec.xor_self
    simp only [State.completed, hmask, dispatchEvents_zero]
  · rfl
  · exact congrArg (fun st => some (Response.mk true st)) BitVec.xor_self

end Sys2Proof.Proofs

namespace Sys2Proof.Proofs

open Sys2Proof.Machine Sys2Proof.Laws

/-! ### HANDLE whatever the oracle answers (43_interrupt_dispatch R293, R304, R306) -/

/-- The two states agree on what a dispatch reads, and no event stands between them. -/
structure SameDispatch (s t : State) : Prop where
  snap : t.snap = s.snap
  cbt : t.cbt = s.cbt
  gcb : t.gcb = s.gcb
  events : t.events = s.events

theorem SameDispatch.trans {s t u : State} (h : SameDispatch s t) (g : SameDispatch t u) : SameDispatch s u :=
  ⟨g.snap.trans h.snap, g.cbt.trans h.cbt, g.gcb.trans h.gcb, g.events.trans h.events⟩

theorem SameDispatch.dispatchEvents_eq {s t : State} (h : SameDispatch s t) (st cur : Half) :
    dispatchEvents t st cur = dispatchEvents s st cur := by
  rw [dispatchEvents, dispatchEvents, h.snap, h.cbt, h.gcb]

theorem SameDispatch.of_talked {P : BusCall → Prop} {s t : State} (h : Talked P s t) : SameDispatch s t := by
  rw [h.frame]
  exact ⟨rfl, rfl, rfl, rfl⟩

theorem SameDispatch.of_inited {s t : State} (h : Inited s t) : SameDispatch s t := by
  rw [h.frame]
  exact ⟨rfl, rfl, rfl, rfl⟩

theorem SameDispatch.respond {s t : State} (h : SameDispatch s t) (r : Option Response) :
    SameDispatch s { t with response := r } :=
  ⟨h.snap, h.cbt, h.gcb, h.events⟩

theorem SameDispatch.clearFlags {s t : State} (h : SameDispatch s t) (fs : List Flag) :
    SameDispatch s (t.clearFlags fs) :=
  ⟨h.snap, h.cbt, h.gcb, h.events⟩

/-- Everything HANDLE can do that its dispatch shows: nothing and no success (R306), or one dispatch with its status
mask, which on the software path is the change of the levels (R301). -/
inductive Handled (s : State) : State → Prop
  | silent {t} : SameDispatch s t → (∀ st, t.response ≠ some ⟨true, st⟩) → Handled s t
  | dispatched {t} (st cur : Half) : SameDispatch s t → (t.variant ≠ .extendedCapable → st = cur ^^^ s.snap) →
      Handled s ((t.dispatch st cur).respond true st)

theorem Handled.after {s t u : State} (h : SameDispatch s t) (hu : Handled t u) : Handled s u := by
  cases hu with
  | silent hsame hresp => exact .silent (h.trans hsame) hresp
  | dispatched st cur hsame hst => exact .dispatched st cur (h.trans hsame) fun hv => by rw [← h.snap]; exact hst hv

/-- The status mask that HANDLE's reads give on the software path (R301). -/
theorem handleReads_status {s t : State} {st cur : Half} (hv : s.variant ≠ .extendedCapable)
    (h : handleReads s = .ok (some (st, cur)) t) : st = cur ^^^ s.snap := by
  rw [handleReads_software hv] at h
  cases hm : dualRead s.regMap.input s with
  | error e u =>
    rw [bind_error hm] at h
    cases h
  | ok r u =>
    rw [bind_ok hm] at h
    cases r with
    | none => cases h
    | some v =>
      cases h
      rfl

theorem settle_handleBody (s : State) : Handled s (settle (handleBody s)) := by
  cases hm : handleReads s with
  | error e t =>
    have hsame := SameDispatch.of_talked (talks_handleReads.2 e t hm).1
    rw [settle_error (handleBody_of_hang hm)]
    exact .silent (hsame.respond _) nofun
  | ok r t =>
    have htalk := (talks_handleReads.1 r t hm).1
    have hsame := SameDispatch.of_talked htalk
    cases r with
    | none =>
      rw [settle_ok (handleBody_of_readFail hm)]
      exact .silent (hsame.respond _) nofun
    | some x =>
      obtain ⟨st, cur⟩ := x
      rw [settle_ok (handleBody_of_read hm)]
      exact .dispatched st cur hsame fun hv => handleReads_status (htalk.variant ▸ hv) hm

theorem exec_handled {s t : State} (h : exec .handle s = .next t) : Handled s t := by
  rw [exec_eq] at h
  injection h with h
  subst h
  rcases frame_cases .handle (bodyOf .handle) s with ⟨hw, -⟩ | ⟨-, p, hp, -⟩ | ⟨-, a, ha, -⟩ | ⟨-, e, u, hu, hm⟩ |
    ⟨-, u, hu, hm⟩ | ⟨u, -, hx, -⟩ | ⟨u, hu, -, -, -, -, hm⟩
  · cases hw
  · cases hp
  · cases ha
  · have hsame := SameDispatch.of_inited (ensureInit_effect (.inr ⟨e, hu⟩)).1.inited
    rw [settle_error hm]
    exact .silent (hsame.respond _) nofun
  · have hsame := SameDispatch.of_inited (ensureInit_effect (.inl ⟨false, hu⟩)).1.inited
    rw [settle_ok hm]
    exact .silent (hsame.respond _) nofun
  · cases hx
  · have hsame := SameDispatch.of_inited (Prepared.effect hu).1.inited
    have hbody : Handled (u.clearFlags (attr .handle).clear)
        (settle (bodyOf .handle (u.clearFlags (attr .handle).clear))) := settle_handleBody _
    rw [hm]
    exact hbody.after (hsame.clearFlags _)

/-- A pin that HANDLE invokes is registered, and its level changed (R303, R304). -/
theorem Handled.pinEvents {s t : State} (h : Handled s t) :
    ∃ evs, t.events = s.events ++ evs ∧ ∀ (p : Fin 16), ∀ ev ∈ evs, eventPin ev = some (BitVec.ofNat 4 p.val) →
      s.cbt[p].reg = true ∧ s.snap.getLsbD p.val ≠ t.snap.getLsbD p.val := by
  cases h with
  | silent hsame _ => exact ⟨[], by rw [hsame.events, List.append_nil], fun _ _ hev => nomatch hev⟩
  | @dispatched u st cur hsame _ =>
    refine ⟨dispatchEvents u st cur, congrArg (· ++ _) hsame.events, fun p ev hev hp => ?_⟩
    rw [hsame.dispatchEvents_eq] at hev
    obtain ⟨-, hreg, hedge, -⟩ := pinEvent_eq_some_iff.1 (pinEvent_of_mem_dispatchEvents hev hp)
    exact ⟨hreg, hedge.changed⟩

/-- On the software path the status mask is the change of the levels (R301, R304). -/
theorem Handled.status {s t : State} {st : Half} (h : Handled s t) (hv : t.variant ≠ .extendedCapable)
    (hresp : t.response = some ⟨true, st⟩) : st = t.snap ^^^ s.snap := by
  cases h with
  | silent _ hno => exact absurd hresp (hno st)
  | dispatched st' cur _ hst =>
    obtain rfl : st' = st := congrArg Response.value (Option.some.inj hresp)
    exact hst hv

/-- Settles O46: the clauses are `Handled.pinEvents` and `Handled.status`. -/
theorem unchangedPinHasNoEvent : Obligations.UnchangedPinHasNoEvent := by
  intro s t h
  have hhandled := exec_handled h
  obtain ⟨evs, hevs, hpin⟩ := hhandled.pinEvents
  refine ⟨evs, hevs, fun p => ⟨fun hsame ev hev hp => (hpin p ev hev hp).2 hsame, fun st hv hresp => ?_⟩⟩
  rw [hhandled.status hv hresp, BitVec.getLsbD_xor, Bool.xor_iff_ne, ne_comm]

/-- Settles O47: the entry that CBUNREG leaves is not registered, so `Handled.pinEvents` excludes the pin. -/
theorem unregisteredPinStaysSilent : Obligations.UnregisteredPinStaysSilent := by
  intro s t u pin hpin hunreg hhandle
  rw [exec_cbunreg hpin] at hunreg
  cases hunreg
  obtain ⟨evs, hevs, hreg⟩ := (exec_handled hhandle).pinEvents
  refine ⟨evs, hevs, fun ev hev hp => ?_⟩
  have hpin4 : pin.setWidth 4 = BitVec.ofNat 4 pin.toNat := rfl
  obtain ⟨hstill, -⟩ := hreg ⟨pin.toNat, hpin⟩ ev hev (hp.trans (congrArg some hpin4))
  have hempty : ((s.clearFlags [.invalidPin]).setCallback pin CbEntry.empty).cbt[pin.toNat] = CbEntry.empty := by
    rw [setCallback_eq hpin]
    exact Vector.getElem_set_self hpin
  rw [Fin.getElem_fin] at hstill
  exact absurd (hstill.symm.trans (congrArg CbEntry.reg hempty)) (by decide)

end Sys2Proof.Proofs

namespace Sys2Proof.Proofs

open Sys2Proof.Machine Sys2Proof.Laws

/-! ### No complete command on the port (60_exceptions R335, 30_encoding R106) -/

theorem fetch_nil : fetch [] = .idle := by
  rw [fetch]

theorem fetch_incomplete {w : Word} {ws : List Word} (hlen : ws.length + 1 < commandLength w) :
    fetch (w :: ws) = .idle := by
  rw [fetch, if_pos hlen]

/-- The engine waits when the port holds no command to take, and changes nothing (60_exceptions R335). -/
theorem step_of_idle {s : State} (hstuck : s.stuck = none) (h : fetch s.port = .idle) : step s = .next s := by
  rw [step, hstuck, h]

/-- Settles O9: on an empty port and on an incomplete command `fetch` idles; the hang is `step_of_stuck`. -/
theorem engineIdlesOrStaysHung : Obligations.EngineIdlesOrStaysHung := by
  refine ⟨fun s hstuck hport => step_of_idle hstuck ?empty,
    fun s w ws hstuck hport hlen => step_of_idle hstuck ?incomplete,
    fun _ _ hstuck => step_of_stuck hstuck⟩
  case empty => rw [hport, fetch_nil]
  case incomplete => rw [hport, fetch_incomplete hlen]

end Sys2Proof.Proofs

namespace Sys2Proof.Proofs

open Sys2Proof.Machine Sys2Proof.Laws

/-! ### A command that names an invalid pin (42_extended_bank R231, 70_reset R372) -/

/-- Step 1 of the frame turns an invalid pin away before anything runs: a command that names a pin has the pins
attribute, so its check sees the pin. -/
theorem frame_of_invalidPin {i : Instr} {body : Eff Response} {s : State} {p : Byte} (hw : i.wf = true)
    (hp : p ∈ namedPins i) (hp16 : 16 ≤ p.toNat) :
    frame i body s = .ok Response.failed (s.raiseFlag .invalidPin) := by
  have hcheck : ((attr i).pins && (pinOperands i).any pinInvalid) = true := by
    by_contra hpass
    have hvalid : p.toNat < 16 := pinsValid_of_frame (Bool.eq_false_of_not_eq_true hpass) p hp
    omega
  rw [frame, if_neg (by simp [hw]), if_pos hcheck, failWith_run]

/-- Settles O15: the check of `frame_of_invalidPin`. -/
theorem invalidPinTurnsTheCommandAway : Obligations.InvalidPinTurnsTheCommandAway :=
  fun _ _ _ hw hp hp16 => exec_of_frame_raised (frame_of_invalidPin hw hp hp16)

end Sys2Proof.Proofs

namespace Sys2Proof.Proofs

open Sys2Proof.Machine Sys2Proof.Laws

/-! ### What a sequence of writes leaves, whatever the oracle answers (20_memory R61, 70_reset R352) -/

/-- What writes leave between two states of their run: a talk whose only flag is I2CWriteFail. -/
structure Wrote (s t : State) : Prop where
  frame : t = { s with err := t.err, script := t.script, calls := t.calls, history := t.history, stuck := t.stuck }
  err : t.err &&& ~~~0x0008#16 = s.err &&& ~~~0x0008#16

theorem Wrote.refl (s : State) : Wrote s s := ⟨rfl, rfl⟩

theorem Wrote.trans {s t u : State} (h : Wrote s t) (g : Wrote t u) : Wrote s u where
  frame := g.frame.trans (by rw [h.frame])
  err := g.err.trans h.err

/-- The entry clear of RSTDEF (40_control R132). -/
theorem Wrote.clearFlags (s : State) : Wrote s (s.clearFlags [.writeFail]) :=
  ⟨rfl, cleared_outside s.err 0x0008#16 .writeFail (by decide)⟩

theorem busCall_err {c : BusCall} {s t : State} (h : Ends (busCall c) s t) : t.err = s.err := by
  rcases busCall_cases c s with ⟨_, _, hm, -⟩ | ⟨_, _, _, hm, -⟩ | ⟨_, hm, -⟩
  · rw [h.of_ok hm]
  · rw [h.of_ok hm]
  · rw [h.of_error hm]

theorem busWrite_err {r b : Byte} {s t : State} (h : Ends (busWrite r b) s t) : t.err = s.err := by
  refine busCall_err (c := .write s.addr r b) ?_
  cases hm : busCall (.write s.addr r b) s with
  | ok a u =>
    obtain rfl : t = u := h.of_ok (a := a.isSome) (by rw [busWrite, hm])
    exact .inl ⟨a, hm⟩
  | error e u =>
    obtain rfl : t = u := h.of_error (e := e) (by rw [busWrite, hm])
    exact .inr ⟨e, hm⟩

/-- The attempts of a write raise and clear nothing, the one that never returns included. -/
theorem writeAttempts_err {r b : Byte} (n : Nat) {s t : State} (h : Ends (writeAttempts r b n) s t) :
    t.err = s.err := by
  induction n generalizing s with
  | zero => rw [Ends.of_pure h]
  | succ n ih =>
    rw [writeAttempts] at h
    rcases Ends.of_bind h with ⟨e, he⟩ | ⟨a, u, hm, hu⟩
    · exact busWrite_err (.inr ⟨e, he⟩)
    · have hcall : u.err = s.err := busWrite_err (.inl ⟨a, hm⟩)
      cases a with
      | true => rw [Ends.of_pure (s := u) hu, hcall]
      | false => exact (ih hu).trans hcall

theorem writeReg_wrote {r b : Byte} {s t : State} (h : Ends (writeReg r b) s t) : Wrote s t := by
  refine ⟨(Talks.went (talks_writeReg (P := fun _ => True) trivial) h).1.frame, ?_⟩
  rw [writeReg, Ends, get_bind, ← Ends] at h
  rcases Ends.of_bind h with ⟨e, he⟩ | ⟨a, u, hm, hu⟩
  · rw [writeAttempts_err _ (.inr ⟨e, he⟩)]
  · have hattempts : u.err = s.err := writeAttempts_err _ (.inl ⟨a, hm⟩)
    rw [← hattempts]
    cases a with
    | true =>
      obtain rfl : t = u.clearFlag .writeFail := hu.of_ok rfl
      exact cleared_outside _ _ _ (by decide)
    | false =>
      obtain rfl : t = u.raiseFlag .writeFail := hu.of_ok rfl
      exact raised_outside _ _ _ (by decide)

theorem writeSeq_wrote (ws : List (Byte × Byte)) {s t : State} (h : Ends (writeSeq ws) s t) : Wrote s t := by
  induction ws generalizing s with
  | nil =>
    rw [Ends.of_pure h]
    exact .refl s
  | cons w ws ih =>
    rw [writeSeq] at h
    rcases Ends.of_bind h with ⟨e, he⟩ | ⟨a, u, hm, hu⟩
    · exact writeReg_wrote (.inr ⟨e, he⟩)
    · have hfirst : Wrote s u := writeReg_wrote (.inl ⟨a, hm⟩)
      cases a with
      | true => exact hfirst.trans (ih hu)
      | false =>
        rw [Ends.of_pure (s := u) hu]
        exact hfirst

/-- A command's next state is the one its frame ended in, with the response or none. -/
theorem exec_ends {i : Instr} {s t : State} (h : exec i s = .next t) :
    ∃ u r, Ends (frame i (bodyOf i)) s u ∧ t = { u with response := r } := by
  rw [exec_eq] at h
  injection h with h
  subst h
  cases hm : frame i (bodyOf i) s with
  | ok r u => exact ⟨u, some r, .inl ⟨r, hm⟩, rfl⟩
  | error e u => exact ⟨u, none, .inr ⟨e, hm⟩, rfl⟩

/-- On an initialised block RSTDEF is its entry clear and its writes, completed or hung (41_standard_bank R200). -/
theorem exec_rstdef_wrote {s t : State} (hi : s.init = true) (h : exec .rstdef s = .next t) :
    ∃ u r, Wrote s u ∧ t = { u with response := r } := by
  obtain ⟨u, r, hu, ht⟩ := exec_ends h
  rw [Ends, frame_body rfl rfl rfl (.inr hi) (.inl rfl), ← Ends] at hu
  have hwrites : Ends (writeSeq (resetWrites s.regMap s.variant)) (s.clearFlags [.writeFail]) u :=
    Ends.of_reportOk hu
  exact ⟨u, r, (Wrote.clearFlags s).trans (writeSeq_wrote _ hwrites), ht⟩

/-- Settles O31: the engine fields of an initialised block by `exec_rstdef_wrote`, the dispatch fields of any block by
`exec_framed`. -/
theorem resetToDefaultKeepsEngineState : Obligations.ResetToDefaultKeepsEngineState := by
  intro s t h
  have hframed := exec_framed h
  refine ⟨fun hi => ?_, hframed.cbt (by simp) (by simp), hframed.gcb (by simp), hframed.snap (by simp) (by simp)⟩
  obtain ⟨u, r, hwrote, rfl⟩ := exec_rstdef_wrote hi h
  exact ⟨congrArg (fun v : State => { v with response := r }) hwrote.frame, hwrote.err⟩

end Sys2Proof.Proofs
